-- ==== Sys2Proof/Word.lean ====
section
/-! DEFINITION. The word types of HBSP (spec/00_scope.md R9, R12; spec/10_state.md R26). All quantities are
unsigned (R13); the bit and byte helpers of R16 stand in Machine/Ops.lean. -/

namespace Sys2Proof

/-- One byte: a symbol, a stream byte, a command word. -/
abbrev Byte := BitVec 8

/-- A 64-bit occurrence count (a bin of FREQ, a node's frequency, REMAIN). -/
abbrev Count := BitVec 64

/-- A 9-bit node index; 511 is NIL, "no node". -/
abbrev NodeIx := BitVec 9

end Sys2Proof
end

