-- ==== Sys2Proof/Syntax.lean ====
section
/-! DEFINITION. The command set: one constructor per row of spec/opcode_table.json (spec/30_encoding.md R91). No command has
an explicit operand (R93), so no constructor has an argument. -/

namespace Sys2Proof

/-- The nine commands of HBSP (R91). -/
inductive Instr where
  /-- CLEAR, word 0x01 (R220). -/
  | clear
  /-- COUNT, word 0x02 (R120). -/
  | count
  /-- BUILD_TREE, word 0x03 (R130). -/
  | buildTree
  /-- BUILD_DICT, word 0x04 (R150). -/
  | buildDict
  /-- ENC_META, word 0x05 (R160). -/
  | encMeta
  /-- DEC_META, word 0x06 (R162). -/
  | decMeta
  /-- PACK, word 0x07 (R180). -/
  | pack
  /-- DECODE, word 0x08 (R200). -/
  | decode
  /-- NOP, word 0x09 (R224). -/
  | nop
  deriving DecidableEq, Repr

end Sys2Proof
end

