-- ==== Sys2Proof/WellFormed.lean ====
section
/-! DEFINITION. What a well-formed command word is (spec/30_encoding.md R90, R92). A command of Instr has no operand field,
so every one of its terms is well formed; what can be ill formed is the word: its zero field, or its operation number. -/

namespace Sys2Proof

/-- Bits 7:4 of a command word are the field `zero` and must be 0b0000 (R90). -/
def zeroFieldOk (w : Byte) : Bool := w.extractLsb' 4 4 == 0#4

/-- Bits 3:0 of a command word are the operation number; 1 to 9 are assigned (R91), 0 and 10 to 15 reserved (R92). -/
def opAssigned (w : Byte) : Bool :=
  1 ≤ (w.extractLsb' 0 4).toNat && (w.extractLsb' 0 4).toNat ≤ 9

/-- A command word that is not reserved. -/
def commandWordOk (w : Byte) : Bool := zeroFieldOk w && opAssigned w

/-- Every command is well formed: no command has an operand that could be out of range (R93). -/
def Instr.wellFormed : Instr → Bool
  | .clear => true
  | .count => true
  | .buildTree => true
  | .buildDict => true
  | .encMeta => true
  | .decMeta => true
  | .pack => true
  | .decode => true
  | .nop => true

end Sys2Proof
end

