-- ==== Sys2Proof/Decode.lean ====
section
/-! DEFINITION. The decoder and the encoder of command words (spec/30_encoding.md R90 to R92, R101). The decoder is total on any
bytes and refuses by name; it reads the word alone, no state (R101). -/

namespace Sys2Proof

/-- Why a word is no command. -/
inductive Reject where
  /-- There is no word at all. -/
  | noWord
  /-- Bits 7:4 are not 0b0000: words 0x10 to 0xFF (R90, R92). -/
  | zeroField (w : Byte)
  /-- The operation number is not assigned: words 0x00 and 0x0A to 0x0F (R92). -/
  | reservedOp (w : Byte)
  deriving DecidableEq, Repr

/-- The command an operation number selects (R91). -/
def decodeOp (op : BitVec 4) : Option Instr :=
  match op.toNat with
  | 1 => some .clear
  | 2 => some .count
  | 3 => some .buildTree
  | 4 => some .buildDict
  | 5 => some .encMeta
  | 6 => some .decMeta
  | 7 => some .pack
  | 8 => some .decode
  | 9 => some .nop
  | _ => none

/-- The command a word selects (R91), or why it is reserved (R92). -/
def decodeWord (w : Byte) : Except Reject Instr :=
  if w.extractLsb' 4 4 ≠ 0#4 then .error (.zeroField w)
  else
    match decodeOp (w.extractLsb' 0 4) with
    | some i => .ok i
    | none => .error (.reservedOp w)

/-- Decode the first command of a byte sequence, with the bytes that follow it: every command is exactly one word long (R90). -/
def decode : List Byte → Except Reject (Instr × List Byte)
  | [] => .error .noWord
  | w :: rest =>
    match decodeWord w with
    | .ok i => .ok (i, rest)
    | .error r => .error r

/-- The word of each command, written from the table of R91. -/
def encodeWord : Instr → Byte
  | .clear => 0x01#8
  | .count => 0x02#8
  | .buildTree => 0x03#8
  | .buildDict => 0x04#8
  | .encMeta => 0x05#8
  | .decMeta => 0x06#8
  | .pack => 0x07#8
  | .decode => 0x08#8
  | .nop => 0x09#8

/-- The words of a command: one byte. -/
def encode (i : Instr) : List Byte := [encodeWord i]

/-- The words of a command sequence, one after the other (R94). -/
def encodeAll (is : List Instr) : List Byte := is.flatMap encode

/-- The commands of a whole byte sequence, one word after the other (R94), or why one of its words is reserved. -/
def decodeAll : List Byte → Except Reject (List Instr)
  | [] => .ok []
  | w :: rest =>
    match decodeWord w, decodeAll rest with
    | .ok i, .ok is => .ok (i :: is)
    | .ok _, .error r => .error r
    | .error r, _ => .error r

/-- The command the decoder reads from an instruction whose bits are `w`, numbered as spec/opcode_table.json numbers them.
Every command is one 8-bit word, so `w` is that one byte; a row of another width is no command of HBSP. -/
def decodeTableWord (nbits w : Nat) : Option Instr :=
  if nbits = 8 then
    match decode [BitVec.ofNat 8 w] with
    | .ok (i, _) => some i
    | .error _ => none
  else none

theorem decodeWord_clear : decodeWord 0b00000001#8 = .ok .clear := by decide
theorem decodeWord_count : decodeWord 0b00000010#8 = .ok .count := by decide
theorem decodeWord_buildTree : decodeWord 0b00000011#8 = .ok .buildTree := by decide
theorem decodeWord_buildDict : decodeWord 0b00000100#8 = .ok .buildDict := by decide
theorem decodeWord_encMeta : decodeWord 0b00000101#8 = .ok .encMeta := by decide
theorem decodeWord_decMeta : decodeWord 0b00000110#8 = .ok .decMeta := by decide
theorem decodeWord_pack : decodeWord 0b00000111#8 = .ok .pack := by decide
theorem decodeWord_decode : decodeWord 0b00001000#8 = .ok .decode := by decide
theorem decodeWord_nop : decodeWord 0b00001001#8 = .ok .nop := by decide

end Sys2Proof
end

