-- ==== Sys2Proof/Config.lean ====
section
/-! DEFINITION. The parameters of the step: the fixed and derived constants of spec/00_scope.md R9, R10, R12 and the
one open parameter CHUNK of R11. HOSTMAP (spec/10_state.md R21) is read by no rule and has no counterpart. -/

namespace Sys2Proof

/-- FREE VALUE (log entry 6): CHUNK - 1. The spec gives CHUNK no value (R11, D22), only CHUNK >= 1. -/
opaque Config.chunkLessOne : Nat

/-- CHUNK, the number of input bytes the packer takes per chunk: some integer >= 1 (R11). -/
def Config.chunk : Nat := Config.chunkLessOne + 1

/-- NIL = 511, the node index that names no node (R12, R26). -/
def Config.nil : NodeIx := 511#9

/-- CODELEN_MAX = 255, the greatest code length (R10). -/
def Config.codeLenMax : Nat := 255

/-- N_MAX = 255, the most symbols a header can carry (R10). -/
def Config.symbolsMax : Nat := 255

/-- W_MAX = 8, the most bytes of a frequency field (R10). -/
def Config.widthMax : Nat := 8

end Sys2Proof
end

