-- ==== Sys2Proof/Machine/State.lean ====
section
/-! DEFINITION. The state of HBSP as plain data: every register, table and stream that spec/10_state.md names, the host's side
(what it will do, what it has been answered), and the reasons a step can stop. -/

namespace Sys2Proof.Machine

/-- PHASE (R22, R37): 0 IDLE, 1 BUSY, 2 FAULT; the value 3 never occurs. -/
inductive Phase where
  | idle
  | busy
  | fault
  deriving DecidableEq, Repr

/-- The kind of a tree node (R26): 0 Leaf, 1 Internal. -/
inductive NodeKind where
  | leaf
  | internal
  deriving DecidableEq, Repr

/-- One entry of the node memory NODE (R26). -/
structure Node where
  kind  : NodeKind
  sym   : Byte
  freq  : Count
  left  : NodeIx
  right : NodeIx
  deriving DecidableEq, Repr

/-- One entry of the dictionary DICT (R30): `bytes` is the 32-byte field code_bytes of R98, `len` the code's bit length. -/
structure DictEntry where
  valid : Bool
  len   : BitVec 8
  bytes : Vector Byte 32
  deriving DecidableEq, Repr

/-- The input stream IN (R34): a finite byte sequence and the read position. -/
structure InStream where
  data : List Byte
  pos  : Nat
  deriving DecidableEq, Repr

/-- One stream access of the block (R61, R63): an InRead that took a byte, or an OutWrite of a byte. -/
inductive StreamAccess where
  | read (b : Byte)
  | write (b : Byte)
  deriving DecidableEq, Repr

/-- The host registers that can be read (R21): HR1 to HR6. HR0 (CMD) has no read port. -/
inductive HostReg where
  /-- HR1, STATUS (R37). -/
  | status
  /-- HR2, META: N and W (R31). -/
  | header
  /-- HR3, NLEAF (R27). -/
  | nleaf
  /-- HR4, TOTAL (R38). -/
  | total
  /-- HR5, REMAIN (R33). -/
  | remain
  /-- HR6, ERRINFO (R23). -/
  | errinfo
  deriving DecidableEq, Repr

/-- One move of the host (R20, R94, R228). -/
inductive HostEvent where
  /-- A write of the word to HR0, CMD (R222). -/
  | command (w : Byte)
  /-- `in <- bytes`, HostSetInput (R62). -/
  | setInput (bytes : List Byte)
  /-- `rewind`, HostRewind (R62). -/
  | rewind
  /-- `take`, HostTakeOutput (R62). -/
  | takeOutput
  /-- The host keeps the first `n` bytes of OUT only ("take or truncate OUT", R34; log entry 15). -/
  | truncateOutput (n : Nat)
  /-- `read HRn` (R221). -/
  | readReg (r : HostReg)
  /-- The reset input (R280). -/
  | reset
  /-- A write of the word to CMD, and reset asserted while that command runs, after `k` of its stream accesses (R280: "a
  command running when reset is asserted is abandoned"; log entry 11). -/
  | commandThenReset (w : Byte) (k : Nat)
  deriving DecidableEq, Repr

/-- What a host move returns to the host: a register's value, widened with zeros to 64 bits, or the bytes taken from OUT. -/
inductive HostReply where
  | reg (r : HostReg) (value : BitVec 64)
  | taken (bytes : List Byte)
  deriving DecidableEq, Repr

/-- The error kinds of HBSP (R240). Raising one is a NEXT state of the model (R250), not a stop. -/
inductive ErrKind where
  | malformedTree
  | emptyInput
  | truncatedStream
  | symbolCountOverflow
  | badHeader
  | countOverflow
  | dictMiss
  | badCommand
  deriving DecidableEq, Repr

/-- The whole state: the block's (R22 to R34), the streams (R34), and the host's side. -/
@[ext]
structure State where
  /-- PHASE, 2 bits (R22). -/
  phase    : Phase
  /-- ERR, 4 bits (R23). -/
  err      : BitVec 4
  /-- ERRINFO, 8 bits (R23). -/
  errinfo  : Byte
  /-- FV (R24): FREQ holds a frequency table of this session. -/
  fv       : Bool
  /-- TV (R24): the tree of FREQ is built. -/
  tv       : Bool
  /-- DV (R24): DICT holds the dictionary of that tree. -/
  dv       : Bool
  /-- FREQ[0..255] (R25). -/
  freq     : Vector Count 256
  /-- NODE[0..510] (R26). -/
  node     : Vector Node 511
  /-- NCOUNT, 10 bits (R27). -/
  ncount   : BitVec 10
  /-- NLEAF, 9 bits (R27). -/
  nleaf    : BitVec 9
  /-- ROOT, 9 bits (R27). -/
  root     : NodeIx
  /-- LEAFLIST[0..255] (R28). -/
  leaflist : Vector NodeIx 256
  /-- WORK (R29). -/
  work     : List NodeIx
  /-- DICT[0..255] (R30). -/
  dict     : Vector DictEntry 256
  /-- N, the header's symbol count (R31). -/
  hdrN     : Byte
  /-- W, the header's field width (R31). -/
  hdrW     : Byte
  /-- BUF, the packer's buffer (R32). -/
  buf      : List Byte
  /-- BITLEN, the valid bits of BUF (R32). -/
  bitlen   : Nat
  /-- CUR, the node the walk stands on (R33). -/
  cur      : NodeIx
  /-- REMAIN, the symbols still owed (R33). -/
  remain   : Count
  /-- SHIFT, the body byte being consumed (R33). -/
  shift    : Byte
  /-- BITPOS, the unread bits of SHIFT (R33). -/
  bitpos   : BitVec 4
  /-- IN (R34). -/
  inp      : InStream
  /-- OUT (R34). -/
  out      : List Byte
  /-- The model's own: the history of stream accesses, oldest first (R69; log entry 12). -/
  accesses : List StreamAccess
  /-- The host's moves still to be taken, in order (R228; log entry 1). -/
  pending  : List HostEvent
  /-- What the host has been answered, oldest first (R221, R62; log entry 13). -/
  replies  : List HostReply
  deriving DecidableEq, Repr

/-- A node entry at reset: unspecified in the spec (R26, R40); DESIGN CHOICE, log entry 3. -/
def Node.blank : Node := ⟨.leaf, 0#8, 0#64, Config.nil, Config.nil⟩

/-- A dictionary entry at reset: `valid = 0`; `len` and `code` are unspecified in the spec (R30, R40); DESIGN CHOICE, log
entry 3. -/
def DictEntry.blank : DictEntry := ⟨false, 0#8, Vector.replicate 32 0#8⟩

/-- The machine right after reset (R40, R280), with nothing from the host yet (log entries 1, 4). -/
def State.reset : State where
  phase    := .idle
  err      := 0#4
  errinfo  := 0#8
  fv       := false
  tv       := false
  dv       := false
  freq     := Vector.replicate 256 0#64
  node     := Vector.replicate 511 Node.blank
  ncount   := 0#10
  nleaf    := 0#9
  root     := Config.nil
  leaflist := Vector.replicate 256 0#9
  work     := []
  dict     := Vector.replicate 256 DictEntry.blank
  hdrN     := 0#8
  hdrW     := 0#8
  buf      := []
  bitlen   := 0
  cur      := Config.nil
  remain   := 0#64
  shift    := 0#8
  bitpos   := 0#4
  inp      := ⟨[], 0⟩
  out      := []
  accesses := []
  pending  := []
  replies  := []

/-- Why the MODEL stops (the hardware's own faults are next states, R250). None is reachable from reset. -/
inductive Fault where
  /-- A read of NODE[NIL], an entry that does not exist (R26). Raised by BUILD_DICT and DECODE when ROOT is NIL, by ENC_META
  when a leaf-list entry is NIL, by a read of HR4 when TV = 1 and ROOT is NIL. Safe: the model stops (log entry 7). -/
  | noSuchNode
  /-- BUILD_DICT walks deeper than CODELEN_MAX = 255 (R10): the code fits no entry, or the tree is cyclic and the walk would
  never end. Safe: the model stops (log entry 8). -/
  | codeTooLong
  /-- A loop of a command passes the bound R225 gives it. Raised by the shared loop operation; no state reaches it. Safe: the
  model stops (log entry 9). -/
  | loopBound
  deriving DecidableEq, Repr

/-- Why the model has no move. -/
inductive Refusal where
  /-- The command has no meaning in the model yet. Raised by exec's arms alone. Safe. -/
  | notModelled (mnemonic : String)
  /-- A write to CMD while PHASE = BUSY: "no write can occur" (R222, U16). Raised by every command and by the issue of a
  reserved word. Safe; BUSY is never the phase between two steps (log entry 10). -/
  | cmdNotReady
  /-- A host action on a stream while PHASE = BUSY: not allowed (R62, U16). Raised by setInput, rewind, takeOutput,
  truncateOutput. Safe; BUSY is never the phase between two steps (log entry 10). -/
  | streamsNotReady
  deriving DecidableEq, Repr

end Sys2Proof.Machine
end

