-- ==== Sys2Proof/Machine/Ops.lean ====
section
/-! DEFINITION. The shared operations: bits and bytes (spec/00_scope.md R13, R16), the two stream primitives
(spec/20_memory.md R61, R63), raising a fault and leaving the fault state (spec/60_exceptions.md R250, R253), the loop of a
command's pseudocode (spec/46_system.md R225) and the acceptance of a command (spec/46_system.md R222). -/

namespace Sys2Proof.Machine

/-! ### Bits and bytes (R13, R16) -/

/-- The byte whose bits 7 down to 0 are the arguments in order. -/
def byteOf (b7 b6 b5 b4 b3 b2 b1 b0 : Bool) : Byte :=
  BitVec.ofNat 8 (128 * b7.toNat + 64 * b6.toNat + 32 * b5.toNat + 16 * b4.toNat
    + 8 * b3.toNat + 4 * b2.toNat + 2 * b1.toNat + b0.toNat)

/-- The bits of one byte, bit 7 first (R16, R65). -/
def bitsOf (x : Byte) : List Bool :=
  [x.getLsbD 7, x.getLsbD 6, x.getLsbD 5, x.getLsbD 4, x.getLsbD 3, x.getLsbD 2, x.getLsbD 1, x.getLsbD 0]

/-- `bits(B)` of R16: bit `k` is `B[k div 8][7 - (k mod 8)]`. -/
def bits (bs : List Byte) : List Bool := bs.flatMap bitsOf

/-- `pack(b)` of R16: the bits most significant first in each byte, the last byte filled up with zeros. -/
def pack : List Bool → List Byte
  | b7 :: b6 :: b5 :: b4 :: b3 :: b2 :: b1 :: b0 :: t => byteOf b7 b6 b5 b4 b3 b2 b1 b0 :: pack t
  | [b7, b6, b5, b4, b3, b2, b1] => [byteOf b7 b6 b5 b4 b3 b2 b1 false]
  | [b7, b6, b5, b4, b3, b2] => [byteOf b7 b6 b5 b4 b3 b2 false false]
  | [b7, b6, b5, b4, b3] => [byteOf b7 b6 b5 b4 b3 false false false]
  | [b7, b6, b5, b4] => [byteOf b7 b6 b5 b4 false false false false]
  | [b7, b6, b5] => [byteOf b7 b6 b5 false false false false false]
  | [b7, b6] => [byteOf b7 b6 false false false false false false]
  | [b7] => [byteOf b7 false false false false false false false]
  | [] => []

/-- `be(v, W)` of R16: byte `j` is `(v div 256^(W-1-j)) mod 256`. -/
def be (v W : Nat) : List Byte := (List.range W).map fun j => BitVec.ofNat 8 (v / 256 ^ (W - 1 - j))

/-- `unbe(B)` of R16: the number whose big-endian bytes are `B`. -/
def unbe (bs : List Byte) : Nat := bs.foldl (fun f b => f * 256 + b.toNat) 0

/-- `bitlen(v)` of R13: the bits needed to write `v` in binary, 0 for 0. -/
def bitlen (v : Nat) : Nat := if v = 0 then 0 else Nat.log2 v + 1

/-- `ceil(a / 8)`. -/
def ceil8 (a : Nat) : Nat := (a + 7) / 8

/-! ### How a piece of a command ends -/

/-- The end of a command's pseudocode, or of a part of it: it ran to its end, it ended with `raise` (R250), or the model
stops. -/
inductive Run where
  | done (s : State)
  | raised (s : State)
  | stuck (f : Fault)
  deriving DecidableEq, Repr

/-- One pass of a loop: go on, leave the loop, or leave the command. -/
inductive Iter where
  | again (s : State)
  | exit (s : State)
  | raised (s : State)
  | stuck (f : Fault)
  deriving DecidableEq, Repr

/-- What follows a part that ran to its end; a raise or a stop leaves at once ("no later line of that command runs", R17). -/
def Run.andThen (r : Run) (k : State → Run) : Run :=
  match r with
  | .done s => k s
  | .raised s => .raised s
  | .stuck f => .stuck f

/-- A `while` or `loop` of the pseudocode, with the bound on its passes that R225 gives it. -/
def loop (body : State → Iter) : Nat → State → Run
  | 0, _ => .stuck .loopBound
  | n + 1, s =>
    match body s with
    | .again s' => loop body n s'
    | .exit s' => .done s'
    | .raised s' => .raised s'
    | .stuck f => .stuck f

/-! ### Fault entry and return (R240, R250, R253) -/

/-- The fault codes of R240. -/
def ErrKind.code : ErrKind → BitVec 4
  | .malformedTree => 1#4
  | .emptyInput => 2#4
  | .truncatedStream => 3#4
  | .symbolCountOverflow => 4#4
  | .badHeader => 5#4
  | .countOverflow => 6#4
  | .dictMiss => 7#4
  | .badCommand => 8#4

/-- TAKING A FAULT, `raise K(info)` (R250): ERR, ERRINFO and PHASE are written and nothing else; nothing is saved, nothing is
rolled back, control goes nowhere. -/
def raise (k : ErrKind) (info : Byte) (s : State) : State :=
  { s with err := k.code, errinfo := info, phase := .fault }

/-- THE RETURN FROM A FAULT, which is also reset (R40, R220, R253, R280, R281): every piece of block state takes its reset
value; the streams, the host's side and the access history stay. -/
def resetBlock (s : State) : State :=
  { State.reset with
    inp := s.inp, out := s.out, accesses := s.accesses, pending := s.pending, replies := s.replies }

/-- `require c else raise BadCommand(w)`, the precondition check a command makes first of all (R223). -/
def require (c : Bool) (w : Byte) (body : State → Run) (s : State) : Run :=
  if c then body s else .raised (raise .badCommand w s)

/-! ### The streams (R61, R63) -/

/-- How many bytes of IN are left to read. -/
def InStream.left (i : InStream) : Nat := i.data.length - i.pos

/-- The bytes of IN that are left to read. -/
def InStream.rest (i : InStream) : List Byte := i.data.drop i.pos

/-- The state after the byte `b` was taken from IN (R61): `IN.pos <- IN.pos + 1`. -/
def tookByte (b : Byte) (s : State) : State :=
  { s with inp := { s.inp with pos := s.inp.pos + 1 }, accesses := s.accesses ++ [.read b] }

/-- `InRead()` (R61): the next byte and the state after taking it, or `none` for EOF, which changes nothing. -/
def inRead (s : State) : Option (Byte × State) :=
  match s.inp.data[s.inp.pos]? with
  | none => none
  | some b => some (b, tookByte b s)

/-- `OutWrite(b)` (R63): append one byte to OUT. -/
def outWrite (b : Byte) (s : State) : State :=
  { s with out := s.out ++ [b], accesses := s.accesses ++ [.write b] }

/-- `OutWrite` of each byte of a sequence, in order. -/
def outWriteAll : List Byte → State → State
  | [], s => s
  | b :: bs, s => outWriteAll bs (outWrite b s)

/-- The state after stream accesses that did happen: a read moves IN.pos by one, a write appends its byte. -/
def replay : List StreamAccess → State → State
  | [], s => s
  | .read b :: as, s => replay as (tookByte b s)
  | .write b :: as, s => replay as (outWrite b s)

/-! ### Accepting a command (R222) -/

/-- The end of an accepted command: PHASE <- IDLE if it did not raise; a raise has set FAULT (R222 (a)). -/
def finish : Run → Host.Outcome State Fault Refusal
  | .done s => .next { s with phase := .idle }
  | .raised s => .next s
  | .stuck f => .fault f

/-- R222: in IDLE, PHASE <- BUSY and the command's pseudocode runs to its end; in FAULT the word is accepted and discarded
with no change to any state; in BUSY no write can occur. CLEAR, which also runs in FAULT, does not go through here. -/
def accept (body : State → Run) (s : State) : Host.Outcome State Fault Refusal :=
  match s.phase with
  | .idle => finish (body { s with phase := .busy })
  | .fault => .next s
  | .busy => .refused .cmdNotReady

end Sys2Proof.Machine
end

