-- ==== Sys2Proof/Machine/Operands.lean ====
section
/-! DEFINITION. The operand forms. No command has an explicit operand (spec/30_encoding.md R93): what a command reads and writes
are the tables of spec/10_state.md, one whole entry at a time (spec/20_memory.md R67). These are those reads and writes. -/

namespace Sys2Proof.Machine

/-! ### FREQ (R25) -/

/-- `FREQ[b]`. -/
def freqAt (s : State) (b : Byte) : Count := s.freq[b.toNat]'(b.isLt)

/-- `FREQ[b] <- v`: one bin changes (R121). -/
def setFreq (s : State) (b : Byte) (v : Count) : State :=
  { s with freq := s.freq.set b.toNat v b.isLt }

/-- `for s in 0..255: FREQ[s] <- 0`. -/
def clearFreq (s : State) : State := { s with freq := Vector.replicate 256 0#64 }

/-- The symbols in ascending order, 0 to 255 (R130). -/
def symbols : List Byte := (List.range 256).map (BitVec.ofNat 8)

/-! ### NODE, WORK, LEAFLIST (R26, R28, R29) -/

/-- Entry `i` of a node memory. NIL = 511 names no entry: each command that could meet NIL checks for it first, and what
this function answers there (a blank leaf) reaches no result (log entry 7). -/
def nodeAt (nodes : Vector Node 511) (i : NodeIx) : Node := nodes[i.toNat]?.getD Node.blank

/-- `MkLeaf(s, f)` (R133). -/
def mkLeaf (sym : Byte) (f : Count) : Node := ⟨.leaf, sym, f, Config.nil, Config.nil⟩

/-- `MkInternal(left, right, freq)` (R133); its check for a missing child is made by its caller, which raises. -/
def mkInternal (left right : NodeIx) (f : Count) : Node := ⟨.internal, 0#8, f, left, right⟩

/-- `Insert(L, i)` (R131): before the first element whose frequency is strictly less than node `i`'s, else at the end. -/
def insertWork (nodes : Vector Node 511) (i : NodeIx) : List NodeIx → List NodeIx
  | [] => [i]
  | j :: l =>
    if (nodeAt nodes j).freq < (nodeAt nodes i).freq then i :: j :: l
    else j :: insertWork nodes i l

/-- `i <- NCOUNT; NODE[i] <- n; NCOUNT <- NCOUNT + 1; WORK <- Insert(WORK, i)`, the four lines that BUILD_TREE uses for
leaves and for merged nodes alike (R130). NCOUNT is below 511 at every call (log entry 7). -/
def addNode (n : Node) (s : State) : State :=
  let nodes := s.node.setIfInBounds s.ncount.toNat n
  { s with
    node := nodes
    ncount := s.ncount + 1#10
    work := insertWork nodes (s.ncount.setWidth 9) s.work }

/-- `for k in 0..len(L)-1: LEAFLIST[k] <- L[k]`, from entry `k` on (R130). -/
def writeLeafList : List NodeIx → Nat → Vector NodeIx 256 → Vector NodeIx 256
  | [], _, v => v
  | i :: l, k, v => writeLeafList l (k + 1) (v.setIfInBounds k i)

/-- `LEAFLIST[0..NLEAF-1]`, the valid entries in order (R28). -/
def leafList (s : State) : List NodeIx := s.leaflist.toList.take s.nleaf.toNat

/-! ### DICT (R30, R98) -/

/-- `DICT[b]`. -/
def dictAt (s : State) (b : Byte) : DictEntry := s.dict[b.toNat]'(b.isLt)

/-- The code of an entry: the first `len` bits of its 32 bytes (R98). -/
def DictEntry.code (e : DictEntry) : List Bool := (bits e.bytes.toList).take e.len.toNat

/-- The entry a leaf's code is stored as (R150, R98): valid, its length, and `pack(code)` in the first bytes of the field, every
other bit 0. -/
def DictEntry.ofCode (c : List Bool) : DictEntry :=
  ⟨true, BitVec.ofNat 8 c.length, Vector.ofFn fun i => (pack c).getD i.val 0#8⟩

/-- `DICT[b] <- e`. -/
def setDict (s : State) (b : Byte) (e : DictEntry) : State :=
  { s with dict := s.dict.set b.toNat e b.isLt }

/-- A dictionary with every entry invalid; `len` and `code` stay. -/
def invalidated (d : Vector DictEntry 256) : Vector DictEntry 256 :=
  ⟨⟨d.toList.map fun e => { e with valid := false }⟩, by simp⟩

/-- `for s in 0..255: DICT[s].valid <- 0`. -/
def invalidateEntries (s : State) : State := { s with dict := invalidated s.dict }

end Sys2Proof.Machine
end

