-- ==== Sys2Proof/Machine/Flags.lean ====
section
/-! DEFINITION. The validity flags FV, TV, DV (spec/10_state.md R24) and the host's views of the state, HR1 to HR6 (R21, R37,
R38). HBSP has no other flag (R24). -/

namespace Sys2Proof.Machine

/-- `FV <- 0; TV <- 0; DV <- 0`, the start of COUNT and DEC_META (R24). -/
def clearFlags (s : State) : State := { s with fv := false, tv := false, dv := false }

/-- `TV <- 0; DV <- 0`, the start of BUILD_TREE (R24). -/
def clearTreeFlags (s : State) : State := { s with tv := false, dv := false }

/-- `DV <- 0`, the start of BUILD_DICT (R24). -/
def clearDictFlag (s : State) : State := { s with dv := false }

/-- `FV <- 1`, the end of COUNT and DEC_META (R24). -/
def setFV (s : State) : State := { s with fv := true }

/-- `TV <- 1`, the end of BUILD_TREE (R24). -/
def setTV (s : State) : State := { s with tv := true }

/-- `DV <- 1`, the end of BUILD_DICT (R24). -/
def setDV (s : State) : State := { s with dv := true }

/-- The 2-bit value of PHASE (R37). -/
def Phase.code : Phase → BitVec 2
  | .idle => 0#2
  | .busy => 1#2
  | .fault => 2#2

/-- STATUS, HR1 (R37): bits 1:0 PHASE, 2 FV, 3 TV, 4 DV, 11:8 ERR, the rest 0. -/
def statusReg (s : State) : BitVec 16 :=
  0#4 ++ s.err ++ 0#3 ++ BitVec.ofBool s.dv ++ BitVec.ofBool s.tv ++ BitVec.ofBool s.fv ++ s.phase.code

/-- META, HR2 (R21): bits 7:0 N, bits 15:8 W. -/
def metaReg (s : State) : BitVec 16 := s.hdrW ++ s.hdrN

/-- TOTAL, HR4 (R38): the root's frequency when TV = 1, else 0; `none` when there is no such node. -/
def totalReg (s : State) : Option Count :=
  if s.tv then (if s.root = Config.nil then none else some (nodeAt s.node s.root).freq)
  else some 0#64

/-- What `read HRn` returns (R221), widened with zeros to 64 bits. -/
def hostReg (s : State) : HostReg → Option (BitVec 64)
  | .status => some ((statusReg s).setWidth 64)
  | .header => some ((metaReg s).setWidth 64)
  | .nleaf => some (s.nleaf.setWidth 64)
  | .total => totalReg s
  | .remain => some s.remain
  | .errinfo => some (s.errinfo.setWidth 64)

end Sys2Proof.Machine
end

