-- ==== Sys2Proof/Machine/Decoder.lean ====
section
/-! DEFINITION. Unit DEC: the tree traverser and bit-stream decoder, DECODE (spec/45_decoder.md R200 to R206). -/

namespace Sys2Proof.Machine

/-- `bit <- SHIFT[7]; SHIFT <- (SHIFT << 1) mod 256; BITPOS <- BITPOS - 1` (R200, R201). -/
def takeBit (s : State) : Bool × State :=
  (s.shift.getLsbD 7, { s with shift := s.shift <<< 1, bitpos := s.bitpos - 1#4 })

/-- `SHIFT <- b; BITPOS <- 8` (R200). -/
def loadShift (b : Byte) (s : State) : State := { s with shift := b, bitpos := 8#4 }

/-- `NextBit()` (R200, R201): a byte is fetched only when no bit is left; `none` when the input has ended. -/
def nextBit (s : State) : Option (Bool × State) :=
  if s.bitpos = 0#4 then
    match inRead s with
    | none => none
    | some (b, s1) => some (takeBit (loadShift b s1))
  else some (takeBit s)

/-- The child a bit selects: 0 left, 1 right (R202). -/
def childOf (n : Node) (bit : Bool) : NodeIx := if bit then n.right else n.left

/-- The end of a walk step that stands on a leaf (R202): the symbol goes out, one fewer is owed, the walk is at the root. -/
def emitSymbol (s : State) : State :=
  let s1 := outWrite (nodeAt s.node s.cur).sym s
  { s1 with remain := s.remain - 1#64, cur := s.root }

/-- `Step(bit)` (R200, R202, R206). -/
def walkStep (bit : Bool) (s : State) : Iter :=
  if childOf (nodeAt s.node s.cur) bit = Config.nil then
    .raised (raise .malformedTree (encodeWord .decode) s)
  else
    let s1 := { s with cur := childOf (nodeAt s.node s.cur) bit }
    match (nodeAt s1.node s1.cur).kind with
    | .leaf => .again (emitSymbol s1)
    | .internal => .again s1

/-- One pass of DECODE's loop (R200, R203, R204): nothing is read once REMAIN is 0; a missing bit raises TruncatedStream. -/
def decodeStep (s : State) : Iter :=
  if s.remain = 0#64 then .exit s
  else
    match nextBit s with
    | none => .raised (raise .truncatedStream (encodeWord .decode) s)
    | some (bit, s1) => walkStep bit s1

/-- The one-leaf tree (R205): `while REMAIN > 0: OutWrite(NODE[ROOT].sym); REMAIN <- REMAIN - 1`, `k` symbols still owed. -/
def emitRun : Nat → State → State
  | 0, s => s
  | k + 1, s =>
    let s1 := outWrite (nodeAt s.node s.root).sym s
    emitRun k { s1 with remain := s.remain - 1#64 }

/-- DECODE after its start (R200): a root that is a leaf is emitted and nothing is read, else the bit walk runs. Every pass but
the last takes one bit of IN. -/
def decodeWalk (s : State) : Run :=
  match (nodeAt s.node s.root).kind with
  | .leaf => .done (emitRun s.remain.toNat s)
  | .internal => loop decodeStep (8 * s.inp.left + 1) s

/-- DECODE's pseudocode after its check (R200); there is no NODE[NIL] to start from. -/
def decodeMain (s : State) : Run :=
  if s.root = Config.nil then .stuck .noSuchNode
  else
    decodeWalk { s with remain := (nodeAt s.node s.root).freq, cur := s.root, shift := 0#8, bitpos := 0#4 }

/-- DECODE's pseudocode (R200). -/
def decodeBody (s : State) : Run := require s.tv (encodeWord .decode) decodeMain s

/-- DECODE (R200). -/
def execDecode (s : State) : Host.Outcome State Fault Refusal := accept decodeBody s

end Sys2Proof.Machine
end

