-- ==== Sys2Proof/Machine/Dict.lean ====
section
/-! DEFINITION. Unit DICT: BUILD_DICT (spec/42_dictionary_builder.md R150, R152). -/

namespace Sys2Proof.Machine

/-- `Walk(i, c)` (R150): a leaf stores its code; an Internal node walks its left child with bit 0 and then its right child with
bit 1; a missing child raises MalformedTree. `depth` is how many more levels a code of at most CODELEN_MAX bits allows. -/
def walk : Nat → NodeIx → List Bool → State → Run
  | 0, _, _, _ => .stuck .codeTooLong
  | depth + 1, i, c, s =>
    match (nodeAt s.node i).kind with
    | .leaf => .done (setDict s (nodeAt s.node i).sym (DictEntry.ofCode c))
    | .internal =>
      if (nodeAt s.node i).left = Config.nil ∨ (nodeAt s.node i).right = Config.nil then
        .raised (raise .malformedTree (encodeWord .buildDict) s)
      else
        (walk depth (nodeAt s.node i).left (c ++ [false]) s).andThen fun s1 =>
          walk depth (nodeAt s1.node i).right (c ++ [true]) s1

/-- BUILD_DICT's pseudocode after its check (R150); there is no NODE[NIL] to walk from. -/
def buildDictMain (s : State) : Run :=
  if s.root = Config.nil then .stuck .noSuchNode
  else
    (walk (Config.codeLenMax + 1) s.root [] (invalidateEntries (clearDictFlag s))).andThen fun s1 =>
      .done (setDV s1)

/-- BUILD_DICT's pseudocode (R150). -/
def buildDictBody (s : State) : Run := require s.tv (encodeWord .buildDict) buildDictMain s

/-- BUILD_DICT (R150). -/
def execBuildDict (s : State) : Host.Outcome State Fault Refusal := accept buildDictBody s

end Sys2Proof.Machine
end

