-- ==== Sys2Proof/Machine/Hist.lean ====
section
/-! DEFINITION. Unit HIST: COUNT (spec/40_histogram.md R120, R121, R123). -/

namespace Sys2Proof.Machine

/-- One pass of COUNT's loop, the bin step (R121): one byte read, one bin up by one; a bin at 2^64 - 1 never wraps (R123). -/
def countStep (s : State) : Iter :=
  match inRead s with
  | none => .exit s
  | some (b, s1) =>
    if freqAt s1 b = BitVec.allOnes 64 then .raised (raise .countOverflow (encodeWord .count) s1)
    else .again (setFreq s1 b (freqAt s1 b + 1#64))

/-- COUNT's pseudocode (R120). Every pass but the last takes a byte. -/
def countBody (s : State) : Run :=
  (loop countStep (s.inp.left + 1) (clearFreq (clearFlags s))).andThen fun s1 => .done (setFV s1)

/-- COUNT (R120). -/
def execCount (s : State) : Host.Outcome State Fault Refusal := accept countBody s

end Sys2Proof.Machine
end

