-- ==== Sys2Proof/Machine/Meta.lean ====
section
/-! DEFINITION. Unit META: ENC_META and DEC_META (spec/43_metadata_codec.md R160 to R163, R165). -/

namespace Sys2Proof.Machine

/-- The frequency field width of a greatest frequency (R161): `max(1, ceil(bitlen(fmax) / 8))`. -/
def fieldWidth (fmax : Nat) : Nat := max 1 (ceil8 (bitlen fmax))

/-- The bytes of one record (R97): the symbol, then its frequency in `w` bytes, big-endian. -/
def recordBytes (w : Nat) (n : Node) : List Byte := n.sym :: be n.freq.toNat w

/-- ENC_META's loop over the leaf list (R160). -/
def encRecords (w : Nat) : List NodeIx → State → Run
  | [], s => .done s
  | i :: l, s =>
    if i = Config.nil then .stuck .noSuchNode
    else encRecords w l (outWriteAll (recordBytes w (nodeAt s.node i)) s)

/-- ENC_META after its checks (R160): `N`, `W` written, then the two header bytes and the records. -/
def encHeader (w : Nat) (s : State) : Run :=
  let s1 := { s with hdrN := s.nleaf.setWidth 8, hdrW := BitVec.ofNat 8 w }
  encRecords w (leafList s1) (outWriteAll [s1.hdrN, s1.hdrW] s1)

/-- ENC_META's pseudocode after its precondition (R160): more than 255 leaves raise SymbolCountOverflow before a byte is
written (R165); the width is that of the first leaf of the leaf list (R161). -/
def encMetaMain (s : State) : Run :=
  if Config.symbolsMax < s.nleaf.toNat then .raised (raise .symbolCountOverflow 0x00#8 s)
  else if s.leaflist[0] = Config.nil then .stuck .noSuchNode
  else encHeader (fieldWidth (nodeAt s.node s.leaflist[0]).freq.toNat) s

/-- ENC_META's pseudocode (R160). -/
def encMetaBody (s : State) : Run := require s.tv (encodeWord .encMeta) encMetaMain s

/-- ENC_META (R160). -/
def execEncMeta (s : State) : Host.Outcome State Fault Refusal := accept encMetaBody s

/-- `b <- InRead(); if b == EOF: raise TruncatedStream(0x06)`, the read DEC_META makes for every header byte (R162). -/
def readHeaderByte (s : State) (k : Byte → State → Run) : Run :=
  match inRead s with
  | none => .raised (raise .truncatedStream (encodeWord .decMeta) s)
  | some (b, s1) => k b s1

/-- `for j in 0..w-1: f <- f * 256 + InRead()` (R162), then what follows with the number read. -/
def readFreq : Nat → Nat → State → (Nat → State → Run) → Run
  | 0, f, s, k => k f s
  | w + 1, f, s, k => readHeaderByte s fun b s1 => readFreq w (f * 256 + b.toNat) s1 k

/-- The checks of one record and its bin (R162, R163): zero frequency first, then a symbol already present. -/
def storeRecord (sym : Byte) (f : Nat) (s : State) : Run :=
  if f = 0 then .raised (raise .badHeader 3#8 s)
  else if freqAt s sym ≠ 0#64 then .raised (raise .badHeader 2#8 s)
  else .done (setFreq s sym (BitVec.ofNat 64 f))

/-- DEC_META's loop over the records (R162). -/
def decRecords (w : Nat) : Nat → State → Run
  | 0, s => .done s
  | n + 1, s =>
    (readHeaderByte s fun sym s1 => readFreq w 0 s1 fun f s2 => storeRecord sym f s2).andThen (decRecords w n)

/-- DEC_META after the two header bytes (R162): `N`, `W` are written, the width is checked, then the records. -/
def decHeader (n w : Byte) (s : State) : Run :=
  let s1 := { s with hdrN := n, hdrW := w }
  if w.toNat < 1 ∨ Config.widthMax < w.toNat then .raised (raise .badHeader 1#8 s1)
  else (decRecords w.toNat n.toNat s1).andThen fun s2 => .done (setFV s2)

/-- DEC_META's pseudocode (R162). -/
def decMetaBody (s : State) : Run :=
  readHeaderByte (clearFreq (clearFlags s)) fun n s1 => readHeaderByte s1 fun w s2 => decHeader n w s2

/-- DEC_META (R162). -/
def execDecMeta (s : State) : Host.Outcome State Fault Refusal := accept decMetaBody s

end Sys2Proof.Machine
end

