-- ==== Sys2Proof/Machine/Packer.lean ====
section
/-! DEFINITION. Unit PACK: the bit-stream packer (spec/44_packer.md R180 to R187). -/

namespace Sys2Proof.Machine

/-- `X OR b` on the last byte of a sequence. -/
def orLast (buf : List Byte) (b : Byte) : List Byte :=
  match buf.reverse with
  | [] => []
  | x :: l => (l.reverse) ++ [x ||| b]

/-- `Append(c, l)` on BUF and BITLEN, byte by byte (R182): aligned, the code's bytes are appended; else the code is shifted right
by the misalignment, its first byte is ORed into the buffer's last and the rest appended. -/
def appendCode (c : List Bool) (s : State) : State :=
  if c.length = 0 then s
  else if s.bitlen % 8 = 0 then
    { s with buf := s.buf ++ pack c, bitlen := s.bitlen + c.length }
  else
    let sh := pack (List.replicate (s.bitlen % 8) false ++ c)
    { s with buf := orLast s.buf (sh.headD 0#8) ++ sh.tail, bitlen := s.bitlen + c.length }

/-- One symbol of a chunk (R180): read it, look its code up (R187), append the code. -/
def packSymbol (s : State) : Iter :=
  match inRead s with
  | none => .exit s
  | some (b, s1) =>
    if (dictAt s1 b).valid then .again (appendCode (dictAt s1 b).code s1)
    else .raised (raise .dictMiss b s1)

/-- `while n < CHUNK` (R180), `k` symbols of the chunk still to take: `again` when the chunk is full, `exit` when the input
ended before. -/
def packChunk : Nat → State → Iter
  | 0, s => .again s
  | k + 1, s =>
    match packSymbol s with
    | .again s1 => packChunk k s1
    | .exit s1 => .exit s1
    | .raised s1 => .raised s1
    | .stuck f => .stuck f

/-- `FlushComplete()` (R183): every complete byte goes to OUT, the trailing partial byte stays. -/
def flushComplete (s : State) : State :=
  let s1 := outWriteAll (s.buf.take (s.bitlen / 8)) s
  { s1 with buf := s.buf.drop (s.bitlen / 8), bitlen := s.bitlen % 8 }

/-- `FlushFinal()` (R184): the last partial byte goes to OUT as it stands, then the buffer is empty. -/
def flushFinal (s : State) : State :=
  let s1 := if 0 < s.bitlen then outWriteAll (s.buf.take 1) s else s
  { s1 with buf := [], bitlen := 0 }

/-- One pass of PACK's outer loop, one chunk (R180): a full chunk goes on after its flush, a short one ends the loop. -/
def packPass (chunk : Nat) (s : State) : Iter :=
  match packChunk chunk s with
  | .again s1 => .again (flushComplete s1)
  | .exit s1 => .exit (flushComplete s1)
  | .raised s1 => .raised s1
  | .stuck f => .stuck f

/-- PACK's pseudocode after its check (R180), for a chunk of `chunk` symbols. Every pass but the last takes at least one. -/
def packMain (chunk : Nat) (s : State) : Run :=
  (loop (packPass chunk) (s.inp.left + 1) { s with buf := [], bitlen := 0 }).andThen fun s1 =>
    .done (flushFinal s1)

/-- PACK's pseudocode (R180), for a chunk of `chunk` symbols. -/
def packBody (chunk : Nat) (s : State) : Run := require s.dv (encodeWord .pack) (packMain chunk) s

/-- PACK (R180), with the CHUNK of the configuration (R11). -/
def execPack (s : State) : Host.Outcome State Fault Refusal := accept (packBody Config.chunk) s

end Sys2Proof.Machine
end

