-- ==== Sys2Proof/Machine/Sys.lean ====
section
/-! DEFINITION. The two commands that touch no data: CLEAR and NOP (spec/46_system.md R220, R224). -/

namespace Sys2Proof.Machine

/-- CLEAR (R220): runs in IDLE and in FAULT; the block state takes its reset value, IN and OUT are not touched. -/
def execClear (s : State) : Host.Outcome State Fault Refusal :=
  match s.phase with
  | .idle => .next (resetBlock s)
  | .fault => .next (resetBlock s)
  | .busy => .refused .cmdNotReady

/-- NOP (R224): no state changes. -/
def execNop (s : State) : Host.Outcome State Fault Refusal := accept Run.done s

end Sys2Proof.Machine
end

