-- ==== Sys2Proof/Machine/Tree.lean ====
section
/-! DEFINITION. Unit TREE: BUILD_TREE (spec/41_tree_builder.md R130 to R133, R135). -/

namespace Sys2Proof.Machine

/-- Steps 1 and 2 for one symbol (R130): a leaf for a nonzero bin. -/
def addLeaf (s : State) (sym : Byte) : State :=
  if freqAt s sym = 0#64 then s else addNode (mkLeaf sym (freqAt s sym)) s

/-- Steps 1 and 2 (R130): one leaf per nonzero bin, in ascending symbol order. -/
def addLeaves (s : State) : State := symbols.foldl addLeaf s

/-- The merge of two popped nodes, `a` popped first (R130, R132): a sum of 2^64 or more raises CountOverflow, a missing child
raises MalformedTree (R133), else the new node's left child is `a` and its right child `b`. -/
def mergeNodes (a b : NodeIx) (s : State) : Iter :=
  let f := (nodeAt s.node a).freq.toNat + (nodeAt s.node b).freq.toNat
  if 2 ^ 64 ≤ f then .raised (raise .countOverflow (encodeWord .buildTree) s)
  else if a = Config.nil ∨ b = Config.nil then .raised (raise .malformedTree (encodeWord .buildTree) s)
  else .again (addNode (mkInternal a b (BitVec.ofNat 64 f)) s)

/-- One pass of step 3 (R130): while WORK holds more than one node, pop its last two and merge them. -/
def mergeStep (s : State) : Iter :=
  match s.work.reverse with
  | a :: b :: l => mergeNodes a b { s with work := l.reverse }
  | _ => .exit s

/-- The start of BUILD_TREE after its check (R130): flags and dictionary invalid, no node, no root, an empty list. -/
def startTree (s : State) : State :=
  { invalidateEntries (clearTreeFlags s) with ncount := 0#10, nleaf := 0#9, root := Config.nil, work := [] }

/-- `NLEAF <- len(WORK); for k in 0..NLEAF-1: LEAFLIST[k] <- WORK[k]` (R130). -/
def recordLeaves (s : State) : State :=
  { s with nleaf := BitVec.ofNat 9 s.work.length, leaflist := writeLeafList s.work 0 s.leaflist }

/-- Step 4 (R130): `ROOT <- WORK[0]; TV <- 1`. -/
def finishTree (s : State) : State := setTV { s with root := s.work.headD Config.nil }

/-- BUILD_TREE's pseudocode after its check (R130). -/
def buildTreeMain (s : State) : Run :=
  let s1 := addLeaves (startTree s)
  if s1.work = [] then .raised (raise .emptyInput 0x00#8 s1)
  else
    let s2 := recordLeaves s1
    (loop mergeStep s2.work.length s2).andThen fun s3 => .done (finishTree s3)

/-- BUILD_TREE's pseudocode (R130). -/
def buildTreeBody (s : State) : Run := require s.fv (encodeWord .buildTree) buildTreeMain s

/-- BUILD_TREE (R130). -/
def execBuildTree (s : State) : Host.Outcome State Fault Refusal := accept buildTreeBody s

end Sys2Proof.Machine
end

