-- ==== Sys2Proof/Machine/Dispatch.lean ====
section
/-! DEFINITION. The command a word selects, executed: one arm per command (spec/30_encoding.md R91). -/

namespace Sys2Proof.Machine

def exec (i : Instr) (s : State) : Host.Outcome State Fault Refusal :=
  match i with
  | .clear => Sys2Proof.Machine.execClear s
  | .count => Sys2Proof.Machine.execCount s
  | .buildTree => Sys2Proof.Machine.execBuildTree s
  | .buildDict => Sys2Proof.Machine.execBuildDict s
  | .encMeta => Sys2Proof.Machine.execEncMeta s
  | .decMeta => Sys2Proof.Machine.execDecMeta s
  | .pack => Sys2Proof.Machine.execPack s
  | .decode => Sys2Proof.Machine.execDecode s
  | .nop => Sys2Proof.Machine.execNop s

end Sys2Proof.Machine
end

