-- ==== Sys2Proof/Machine/Port.lean ====
section
/-! DEFINITION. The host port: what each move of the host does (spec/46_system.md R221, R222; spec/20_memory.md R62;
spec/70_reset_and_hazards.md R280). -/

namespace Sys2Proof.Machine

/-- A reserved word (R92, R222): BadCommand with the word in IDLE, discarded in FAULT; in BUSY no write can occur. -/
def execReserved (w : Byte) (s : State) : Host.Outcome State Fault Refusal :=
  accept (fun s1 => .raised (raise .badCommand w s1)) s

/-- A write of a word to CMD (R222): the word is decoded, the same way in every phase (R101), and its command is run, or it
is reserved. -/
def issue (w : Byte) (s : State) : Host.Outcome State Fault Refusal :=
  match decodeWord w with
  | .ok i => exec i s
  | .error _ => execReserved w s

/-- A host action on a stream, allowed only while PHASE is not BUSY (R62). -/
def streamAction (f : State → State) (s : State) : Host.Outcome State Fault Refusal :=
  match s.phase with
  | .idle => .next (f s)
  | .fault => .next (f s)
  | .busy => .refused .streamsNotReady

/-- `HostSetInput(bytes)` (R62). -/
def hostSetInput (bytes : List Byte) (s : State) : State := { s with inp := ⟨bytes, 0⟩ }

/-- `HostRewind()` (R62): the data stays. -/
def hostRewind (s : State) : State := { s with inp := { s.inp with pos := 0 } }

/-- `HostTakeOutput()` (R62): OUT is returned to the host and is empty after. -/
def hostTakeOutput (s : State) : State := { s with out := [], replies := s.replies ++ [.taken s.out] }

/-- The host truncates OUT (R34; log entry 15): its first `n` bytes stay. -/
def hostTruncateOutput (n : Nat) (s : State) : State := { s with out := s.out.take n }

/-- `read HRn` (R221): the value is returned, nothing of the block changes, in every phase. -/
def hostRead (r : HostReg) (s : State) : Host.Outcome State Fault Refusal :=
  match hostReg s r with
  | some v => .next { s with replies := s.replies ++ [.reg r v] }
  | none => .fault .noSuchNode

/-- Reset asserted while the command of `w` runs, after `k` of its stream accesses (R280; log entry 11): what those accesses did
to IN and OUT stays, the block is at its reset state. A command with fewer accesses has ended by then. -/
def abandon (w : Byte) (k : Nat) (s : State) : Host.Outcome State Fault Refusal :=
  match issue w s with
  | .next s1 => .next (resetBlock (replay ((s1.accesses.drop s.accesses.length).take k) s))
  | .fault f => .fault f
  | .refused r => .refused r

/-- One move of the host. -/
def hostStep (e : HostEvent) (s : State) : Host.Outcome State Fault Refusal :=
  match e with
  | .command w => issue w s
  | .setInput bytes => streamAction (hostSetInput bytes) s
  | .rewind => streamAction hostRewind s
  | .takeOutput => streamAction hostTakeOutput s
  | .truncateOutput n => streamAction (hostTruncateOutput n) s
  | .readReg r => hostRead r s
  | .reset => .next (resetBlock s)
  | .commandThenReset w k => abandon w k s

/-- The next move: the host's oldest pending one is taken; with none the block waits and nothing changes (R280). -/
def takeMove (s : State) : Host.Outcome State Fault Refusal :=
  match s.pending with
  | [] => .next s
  | e :: es => hostStep e { s with pending := es }

/-- The state in which the host's very next move writes the word to CMD. -/
def placeWord (w : Byte) (s : State) : State := { s with pending := .command w :: s.pending }

end Sys2Proof.Machine
end

