-- ==== Sys2Proof/Machine/Step.lean ====
section
/-! DEFINITION. One step: the host's next move, with the command it starts run to its end (spec/10_state.md R22, R20). -/

namespace Sys2Proof.Machine

/-- One step of the machine. -/
def step (s : State) : Host.Outcome State Fault Refusal := takeMove s

/-- The state whose very next step runs the command of the word `w` (R222). HBSP fetches nothing (R36): the host writes the
word to CMD, so the word is put before the host's other moves; the table gives every command 8 bits. -/
def State.withFetchWord (s : State) (_nbits w : Nat) : State := placeWord (BitVec.ofNat 8 w) s

end Sys2Proof.Machine
end

