-- ==== Sys2Proof/Safety.lean ====
section
/-! DEFINITION. What counts as a safe run, in the terms the claims use: the invariants of spec/10_state.md R22, R23, R24, R32
and R41, the stream history, the words the rules use for results (histogram, header, code path), and the two fixed
sequences of spec/46_system.md R226 and R227. The machine does not use this file. -/

namespace Sys2Proof.Machine

/-! ### The streams -/

/-- The bytes read in a history of stream accesses, in order. -/
def readBytes : List StreamAccess → List Byte
  | [] => []
  | .read b :: as => b :: readBytes as
  | .write _ :: as => readBytes as

/-- The bytes written in a history of stream accesses, in order. -/
def writtenBytes : List StreamAccess → List Byte
  | [] => []
  | .read _ :: as => writtenBytes as
  | .write b :: as => b :: writtenBytes as

/-- From `s` to `t` the block changed IN only by InRead and OUT only by OutWrite (R34, R61, R63): the accesses `as` happened, the
bytes read are the next of IN and moved its position, the bytes written stand at OUT's end in their order. -/
def StreamsMovedBy (as : List StreamAccess) (s t : State) : Prop :=
  t.accesses = s.accesses ++ as ∧
  t.inp.data = s.inp.data ∧
  readBytes as <+: s.inp.rest ∧
  t.inp.pos = s.inp.pos + (readBytes as).length ∧
  t.out = s.out ++ writtenBytes as

/-! ### Results -/

/-- The table of the counts of a byte sequence (R122). -/
def histogram (l : List Byte) : Vector Count 256 :=
  Vector.ofFn fun i => BitVec.ofNat 64 (l.count (BitVec.ofNat 8 i.val))

/-- The sum of all bins of FREQ. -/
def freqTotal (s : State) : Nat := (symbols.map fun b => (freqAt s b).toNat).sum

/-- The symbols with a nonzero bin, ascending. -/
def presentSymbols (s : State) : List Byte := symbols.filter fun b => freqAt s b ≠ 0#64

/-- Node `i`, by number. -/
def nodeN (s : State) (i : Nat) : Node := nodeAt s.node (BitVec.ofNat 9 i)

/-- The header of a leaf list with field width `w`, by the layout of R96 and R97. -/
def headerBytes (nodes : Vector Node 511) (leaves : List NodeIx) (w : Nat) : List Byte :=
  [BitVec.ofNat 8 leaves.length, BitVec.ofNat 8 w] ++
    leaves.flatMap fun i => (nodeAt nodes i).sym :: be (nodeAt nodes i).freq.toNat w

/-- The bytes of header records (symbol, frequency) with field width `w` (R97). -/
def recordsImage (w : Nat) (rs : List (Byte × Nat)) : List Byte := rs.flatMap fun r => r.1 :: be r.2 w

/-- Records DEC_META accepts (R162, R163): no symbol twice, no zero frequency, every frequency fits its field. -/
def RecordsOk (w : Nat) (rs : List (Byte × Nat)) : Prop :=
  (rs.map Prod.fst).Nodup ∧ ∀ r ∈ rs, r.2 ≠ 0 ∧ r.2 < 256 ^ w

/-- The table of header records: a symbol's frequency, 0 for a symbol in no record. -/
def recordsTable (rs : List (Byte × Nat)) : Vector Count 256 :=
  Vector.ofFn fun i => BitVec.ofNat 64 (((rs.find? fun r => r.1 == BitVec.ofNat 8 i.val).map Prod.snd).getD 0)

/-- The concatenated codes of a symbol sequence (R99). -/
def codesOf (s : State) (l : List Byte) : List Bool := l.flatMap fun b => (dictAt s b).code

/-- The symbol at the end of a path of branch bits: it starts at node `i`, follows 0 to the left child and 1 to the right, and
its last bit arrives at a leaf; `none` for bits that are no such path (R98, R151). -/
def leafPath (nodes : Vector Node 511) (i : NodeIx) : List Bool → Option Byte
  | [] => match (nodeAt nodes i).kind with
    | .leaf => some (nodeAt nodes i).sym
    | .internal => none
  | b :: c => match (nodeAt nodes i).kind with
    | .leaf => none
    | .internal =>
      if childOf (nodeAt nodes i) b = Config.nil then none
      else leafPath nodes (childOf (nodeAt nodes i) b) c

/-- Whether branch bits from node `i` go from Internal node to Internal node, ending on one: a walk still inside a code. -/
def innerPath (nodes : Vector Node 511) (i : NodeIx) : List Bool → Bool
  | [] => (nodeAt nodes i).kind == .internal
  | b :: c =>
    (nodeAt nodes i).kind == .internal && childOf (nodeAt nodes i) b != Config.nil &&
      innerPath nodes (childOf (nodeAt nodes i) b) c

/-- The node that branch bits from node `i` arrive at, whatever nodes they pass. -/
def reach (nodes : Vector Node 511) (i : NodeIx) : List Bool → NodeIx
  | [] => i
  | b :: c => reach nodes (childOf (nodeAt nodes i) b) c

/-- Whether a node lacks a child: what MalformedTree is raised for at an Internal node (R150, R241). -/
def lacksChild (n : Node) : Bool := n.left == Config.nil || n.right == Config.nil

/-- The valid bits of BUF: its first BITLEN bits (R32). -/
def validBits (s : State) : List Bool := (bits s.buf).take s.bitlen

/-! ### Invariants -/

/-- R32: BUF has the bytes its valid bits need, and its pad positions are 0. -/
structure BufOk (s : State) : Prop where
  length : s.buf.length = ceil8 s.bitlen
  pad    : (bits s.buf).drop s.bitlen = List.replicate (8 * s.buf.length - s.bitlen) false

/-- The children of the Internal nodes, left before right, in index order. -/
def childIndices (s : State) : List Nat :=
  (List.range (s.ncount.toNat - s.nleaf.toNat)).flatMap fun k =>
    [(nodeN s (s.nleaf.toNat + k)).left.toNat, (nodeN s (s.nleaf.toNat + k)).right.toNat]

/-- The tree in NODE is valid, R41 (a) to (f). -/
structure TreeOk (s : State) : Prop where
  leaves_pos : 1 ≤ s.nleaf.toNat
  leaves_le  : s.nleaf.toNat ≤ 256
  count      : s.ncount.toNat = 2 * s.nleaf.toNat - 1
  root       : s.root.toNat = s.ncount.toNat - 1
  leaf       : ∀ i, i < s.nleaf.toNat →
    (nodeN s i).kind = .leaf ∧ (nodeN s i).left = Config.nil ∧ (nodeN s i).right = Config.nil ∧
    1 ≤ (nodeN s i).freq.toNat
  inner      : ∀ i, i < s.ncount.toNat → s.nleaf.toNat ≤ i →
    (nodeN s i).kind = .internal ∧ (nodeN s i).sym = 0#8 ∧
    (nodeN s i).left.toNat < i ∧ (nodeN s i).right.toNat < i ∧
    (nodeN s i).freq.toNat =
      (nodeAt s.node (nodeN s i).left).freq.toNat + (nodeAt s.node (nodeN s i).right).freq.toNat
  once       : (childIndices s).Perm (List.range (s.ncount.toNat - 1))
  total      : ((List.range s.nleaf.toNat).map fun i => (nodeN s i).freq.toNat).sum =
    (nodeAt s.node s.root).freq.toNat

/-- The tree's leaves are those of FREQ, in ascending symbol order, and LEAFLIST has them by descending frequency, equal
frequencies by ascending symbol (R134). -/
structure LeavesOk (s : State) : Prop where
  ofFreq : (List.range s.nleaf.toNat).map (fun i => ((nodeN s i).sym, (nodeN s i).freq)) =
    (presentSymbols s).map fun b => (b, freqAt s b)
  listed : ((leafList s).map BitVec.toNat).Perm (List.range s.nleaf.toNat)
  sorted : (leafList s).Pairwise fun i j =>
    (nodeAt s.node j).freq < (nodeAt s.node i).freq ∨
    ((nodeAt s.node j).freq = (nodeAt s.node i).freq ∧ (nodeAt s.node i).sym < (nodeAt s.node j).sym)

/-- DICT is the dictionary of the tree (R151): an entry for every symbol with a nonzero bin and for no other, its code the path
from the root to that symbol's leaf, stored as R98 says: packed, every other bit of the 32 bytes 0. -/
structure DictOk (s : State) : Prop where
  valid : ∀ b, (dictAt s b).valid = true ↔ freqAt s b ≠ 0#64
  path  : ∀ b, (dictAt s b).valid = true → leafPath s.node s.root (dictAt s b).code = some b
  stored : ∀ b, (dictAt s b).valid = true → (dictAt s b).bytes.toList =
    pack (dictAt s b).code ++ List.replicate (32 - ceil8 (dictAt s b).code.length) 0#8

/-- The invariant of the machine between two steps. -/
structure Inv (s : State) : Prop where
  /-- BUSY is never the value between two steps (R22). -/
  notBusy  : s.phase ≠ .busy
  /-- Codes 9 to 15 are never written (R240). -/
  errCode  : s.err.toNat ≤ 8
  /-- IDLE: no fault is recorded; FAULT: a command ended with raise (R22, R23). -/
  errFault : s.phase = .fault ↔ s.err ≠ 0#4
  /-- ERRINFO is 0 when no fault is recorded (R23). -/
  info     : s.phase = .idle → s.errinfo = 0#8
  /-- 0 <= pos <= len(data) (R34). -/
  pos      : s.inp.pos ≤ s.inp.data.length
  /-- A tree is built from a table, a dictionary from a tree (R24). -/
  treeFlag : s.tv = true → s.fv = true
  dictFlag : s.dv = true → s.tv = true
  /-- Outside PACK the buffer is empty (R32); a fault may leave it as it stood (R250). -/
  idleBuf  : s.phase = .idle → s.buf = [] ∧ s.bitlen = 0
  bufOk    : BufOk s
  /-- The ranges of R27, R29, R33. -/
  nleafLe  : s.nleaf.toNat ≤ 256
  ncountLe : s.ncount.toNat ≤ 511
  workLe   : s.work.length ≤ 256
  bitposLe : s.bitpos.toNat ≤ 8
  /-- R41, R134. -/
  tree     : s.tv = true → TreeOk s
  leaves   : s.tv = true → LeavesOk s
  /-- R151. -/
  dict     : s.dv = true → DictOk s

/-- The block state that R40 gives a value is at it. NODE, LEAFLIST and the `len` and `code` of DICT have none there. -/
structure BlockAtReset (s : State) : Prop where
  phase   : s.phase = .idle
  err     : s.err = 0#4
  errinfo : s.errinfo = 0#8
  fv      : s.fv = false
  tv      : s.tv = false
  dv      : s.dv = false
  freq    : ∀ b, freqAt s b = 0#64
  ncount  : s.ncount = 0#10
  nleaf   : s.nleaf = 0#9
  root    : s.root = Config.nil
  work    : s.work = []
  dict    : ∀ b, (dictAt s b).valid = false
  hdrN    : s.hdrN = 0#8
  hdrW    : s.hdrW = 0#8
  buf     : s.buf = []
  bitlen  : s.bitlen = 0
  cur     : s.cur = Config.nil
  remain  : s.remain = 0#64
  shift   : s.shift = 0#8
  bitpos  : s.bitpos = 0#4

/-! ### What a command may write -/

/-- From `s` to `t` nothing outside the command's row of R93 changed, but for what a raise writes (PHASE, ERR, ERRINFO: R250), the
history of the command's stream accesses, and the `valid` bits that BUILD_TREE clears (R130). -/
def WritesOnly (i : Instr) (s t : State) : Prop :=
  match i with
  | .clear => t = { t with
      inp := s.inp
      out := s.out
      accesses := s.accesses
      pending := s.pending
      replies := s.replies }
  | .count => t.inp.data = s.inp.data ∧ t = { s with
      phase := t.phase
      err := t.err
      errinfo := t.errinfo
      fv := t.fv
      tv := t.tv
      dv := t.dv
      freq := t.freq
      inp := t.inp
      accesses := t.accesses }
  | .buildTree => (t.dict = s.dict ∨ t.dict = (invalidateEntries s).dict) ∧ t = { s with
      phase := t.phase
      err := t.err
      errinfo := t.errinfo
      tv := t.tv
      dv := t.dv
      node := t.node
      ncount := t.ncount
      nleaf := t.nleaf
      root := t.root
      leaflist := t.leaflist
      work := t.work
      dict := t.dict }
  | .buildDict => t = { s with
      phase := t.phase
      err := t.err
      errinfo := t.errinfo
      dv := t.dv
      dict := t.dict }
  | .encMeta => t = { s with
      phase := t.phase
      err := t.err
      errinfo := t.errinfo
      hdrN := t.hdrN
      hdrW := t.hdrW
      out := t.out
      accesses := t.accesses }
  | .decMeta => t.inp.data = s.inp.data ∧ t = { s with
      phase := t.phase
      err := t.err
      errinfo := t.errinfo
      fv := t.fv
      tv := t.tv
      dv := t.dv
      freq := t.freq
      hdrN := t.hdrN
      hdrW := t.hdrW
      inp := t.inp
      accesses := t.accesses }
  | .pack => t.inp.data = s.inp.data ∧ t = { s with
      phase := t.phase
      err := t.err
      errinfo := t.errinfo
      buf := t.buf
      bitlen := t.bitlen
      inp := t.inp
      out := t.out
      accesses := t.accesses }
  | .decode => t.inp.data = s.inp.data ∧ t = { s with
      phase := t.phase
      err := t.err
      errinfo := t.errinfo
      cur := t.cur
      remain := t.remain
      shift := t.shift
      bitpos := t.bitpos
      inp := t.inp
      out := t.out
      accesses := t.accesses }
  | .nop => t = s

/-- What a command accepted in IDLE does to FV, TV and DV (R24): cleared at its start, set at its end on success only. -/
def FlagsFollow (i : Instr) (s t : State) : Prop :=
  match i with
  | .clear => t.fv = false ∧ t.tv = false ∧ t.dv = false
  | .count => t.fv = decide (t.phase = .idle) ∧ t.tv = false ∧ t.dv = false
  | .decMeta => t.fv = decide (t.phase = .idle) ∧ t.tv = false ∧ t.dv = false
  | .buildTree => t.fv = s.fv ∧
      (s.fv = true → t.tv = decide (t.phase = .idle) ∧ t.dv = false) ∧
      (s.fv = false → t.tv = s.tv ∧ t.dv = s.dv)
  | .buildDict => t.fv = s.fv ∧ t.tv = s.tv ∧
      (s.tv = true → t.dv = decide (t.phase = .idle)) ∧ (s.tv = false → t.dv = s.dv)
  | .encMeta => t.fv = s.fv ∧ t.tv = s.tv ∧ t.dv = s.dv
  | .pack => t.fv = s.fv ∧ t.tv = s.tv ∧ t.dv = s.dv
  | .decode => t.fv = s.fv ∧ t.tv = s.tv ∧ t.dv = s.dv
  | .nop => t.fv = s.fv ∧ t.tv = s.tv ∧ t.dv = s.dv

/-- The flag a command requires before anything else (R223); CLEAR, NOP, COUNT and DEC_META require nothing. -/
def requiredFlag (i : Instr) (s : State) : Bool :=
  match i with
  | .clear => true
  | .count => true
  | .buildTree => s.fv
  | .buildDict => s.tv
  | .encMeta => s.tv
  | .decMeta => true
  | .pack => s.dv
  | .decode => s.tv
  | .nop => true

/-! ### The two sequences (R95, R226, R227) -/

/-- COMPRESS (R226). -/
def compressMoves : List HostEvent :=
  [.command (encodeWord .clear), .command (encodeWord .count), .rewind, .command (encodeWord .buildTree),
   .command (encodeWord .buildDict), .command (encodeWord .encMeta), .command (encodeWord .pack)]

/-- DECOMPRESS (R227). -/
def decompressMoves : List HostEvent :=
  [.command (encodeWord .clear), .command (encodeWord .decMeta), .command (encodeWord .buildTree),
   .command (encodeWord .decode)]

end Sys2Proof.Machine
end

