-- ==== Sys2Proof/Certificates/Slice0/Obligations.lean ====
section
/-! DEFINITION. The statements for the provers. Each one's docstring says which rule of spec/ it formalises, or which choice of the
model it is about. -/

open Sys2Proof Sys2Proof.Machine

/-! ### Command words (spec/30_encoding.md) -/

/-- R91: the nine words of the opcode map, each with its command. -/
def Obligations.CommandWordsDecode : Prop :=
  Sys2Proof.decode [0b00000001#8] = .ok (.clear, []) ∧
  Sys2Proof.decode [0b00000010#8] = .ok (.count, []) ∧
  Sys2Proof.decode [0b00000011#8] = .ok (.buildTree, []) ∧
  Sys2Proof.decode [0b00000100#8] = .ok (.buildDict, []) ∧
  Sys2Proof.decode [0b00000101#8] = .ok (.encMeta, []) ∧
  Sys2Proof.decode [0b00000110#8] = .ok (.decMeta, []) ∧
  Sys2Proof.decode [0b00000111#8] = .ok (.pack, []) ∧
  Sys2Proof.decode [0b00001000#8] = .ok (.decode, []) ∧
  Sys2Proof.decode [0b00001001#8] = .ok (.nop, [])

/-- R90, R92: a word is a command exactly when its bits 7:4 are 0 and its operation number is 1 to 9; the others are reserved,
refused by the name of the reason. -/
def Obligations.ReservedWordsRefused : Prop :=
  ∀ w : Byte,
    (w.extractLsb' 4 4 ≠ 0#4 → decodeWord w = .error (.zeroField w)) ∧
    (w = 0x00#8 ∨ (0x0A#8 ≤ w ∧ w ≤ 0x0F#8) → decodeWord w = .error (.reservedOp w)) ∧
    ((∃ i, decodeWord w = .ok i) ↔ 0x01#8 ≤ w ∧ w ≤ 0x09#8)

/-- R90, R91, R101: every command is one word, and the word's encoding decodes to it, whatever follows. -/
def Obligations.DecodeInvertsEncode : Prop :=
  ∀ (i : Instr) (rest : List Byte), i.wellFormed = true →
    (Sys2Proof.encode i).length = 1 ∧ Sys2Proof.decode (Sys2Proof.encode i ++ rest) = .ok (i, rest)

/-- R90, R91, R94: a sequence of command words is read back as the sequence of commands it was written from, and no other
sequence of words is read as it. -/
def Obligations.CommandSequencesRoundTrip : Prop :=
  ∀ (ws : List Byte) (is : List Instr), decodeAll ws = .ok is ↔ ws = encodeAll is

/-! ### Issue, the host port, reset (spec/46_system.md, spec/20_memory.md, spec/70_reset_and_hazards.md) -/

/-- A STEP RUNS THE DECODED COMMAND: when the host's next move writes a word to CMD that decodes to a command, the step is that
command's meaning, at the state without that move (R222, R228; the pending moves are the model's, log entry 1). -/
def Obligations.StepRunsDecodedCommand : Prop :=
  ∀ (s : State) (w : Byte) (es : List HostEvent) (i : Instr),
    s.pending = .command w :: es → Sys2Proof.decode [w] = .ok (i, []) → i.wellFormed = true →
    step s = exec i { s with pending := es }

/-- R92, R248: a reserved word written in IDLE raises BadCommand with the word, and changes nothing else. -/
def Obligations.ReservedWordRaisesBadCommand : Prop :=
  ∀ (s : State) (w : Byte) (es : List HostEvent) (r : Reject),
    s.pending = .command w :: es → s.phase = .idle → decodeWord w = .error r →
    step s = .next { s with
      pending := es
      phase := .fault
      err := 8#4
      errinfo := w }

/-- R222 (c): in FAULT every word but 0x01, reserved or not, is accepted and discarded with no change to any state. -/
def Obligations.FaultPhaseDiscardsWords : Prop :=
  ∀ (s : State) (w : Byte) (es : List HostEvent),
    s.pending = .command w :: es → s.phase = .fault → w ≠ 0x01#8 →
    step s = .next { s with pending := es }

/-- R222 (b), R62 (log entry 10): the model has no move for a command or a stream action while PHASE is BUSY, a phase that is
never the one between two steps. -/
def Obligations.BusyRefuses : Prop :=
  ∀ s : State, s.phase = .busy →
    (∀ i, exec i s = .refused .cmdNotReady) ∧
    (∀ w, issue w s = .refused .cmdNotReady) ∧
    (∀ f, streamAction f s = .refused .streamsNotReady)

/-- R62: the host's three actions on the streams while PHASE is not BUSY; while it is BUSY none of them happens; and the block
itself never rewinds. -/
def Obligations.HostStreamActions : Prop :=
  (∀ (s : State) (es : List HostEvent), s.phase ≠ .busy →
    (∀ bytes, s.pending = .setInput bytes :: es →
      step s = .next { s with pending := es, inp := ⟨bytes, 0⟩ }) ∧
    (s.pending = .rewind :: es →
      step s = .next { s with pending := es, inp := ⟨s.inp.data, 0⟩ }) ∧
    (s.pending = .takeOutput :: es →
      step s = .next { s with pending := es, out := [], replies := s.replies ++ [.taken s.out] })) ∧
  (∀ (s t : State) (es : List HostEvent), s.phase = .busy →
    (∃ bytes, s.pending = .setInput bytes :: es) ∨ s.pending = .rewind :: es ∨ s.pending = .takeOutput :: es →
    step s ≠ .next t) ∧
  (∀ (i : Instr) (s t : State), exec i s = .next t → t.inp.data = s.inp.data ∧ s.inp.pos ≤ t.inp.pos)

/-- R34 (log entry 15): the host truncates OUT to its first `n` bytes while PHASE is not BUSY. The reading of "truncate" is the
model's. -/
def Obligations.HostTruncatesOutput : Prop :=
  ∀ (s : State) (n : Nat) (es : List HostEvent), s.phase ≠ .busy → s.pending = .truncateOutput n :: es →
    step s = .next { s with pending := es, out := s.out.take n }

/-- R21, R31, R33, R38, R221: a read of HR1 to HR6 returns the register's value, in every phase, and changes nothing. A state with
TV = 1 and no root, which no run reaches, has no TOTAL. -/
def Obligations.HostRegisterReads : Prop :=
  ∀ (s : State) (r : HostReg) (es : List HostEvent), s.pending = .readReg r :: es →
    (s.tv = true → s.root ≠ Config.nil) →
    ∃ v : BitVec 64, step s = .next { s with pending := es, replies := s.replies ++ [.reg r v] } ∧
      (r = .status → v = (statusReg s).setWidth 64) ∧
      (r = .header → v.toNat = s.hdrN.toNat + 256 * s.hdrW.toNat) ∧
      (r = .nleaf → v.toNat = s.nleaf.toNat) ∧
      (r = .total → v = if s.tv then (nodeAt s.node s.root).freq else 0#64) ∧
      (r = .remain → v = s.remain) ∧
      (r = .errinfo → v.toNat = s.errinfo.toNat)

/-- R37: the fields of STATUS, and its value right after reset. -/
def Obligations.StatusFields : Prop :=
  statusReg State.reset = 0#16 ∧ ∀ s : State,
    (s.phase = .idle → (statusReg s).extractLsb' 0 2 = 0#2) ∧
    (s.phase = .busy → (statusReg s).extractLsb' 0 2 = 1#2) ∧
    (s.phase = .fault → (statusReg s).extractLsb' 0 2 = 2#2) ∧
    (statusReg s).getLsbD 2 = s.fv ∧
    (statusReg s).getLsbD 3 = s.tv ∧
    (statusReg s).getLsbD 4 = s.dv ∧
    (statusReg s).extractLsb' 5 3 = 0#3 ∧
    (statusReg s).extractLsb' 8 4 = s.err ∧
    (statusReg s).extractLsb' 12 4 = 0#4

/-- R40, R280: what reset leaves, in every phase: every value of the table of R40; IN, OUT and the host's side are unchanged. The
machine right after reset has the same block state. -/
def Obligations.ResetLeavesResetValues : Prop :=
  BlockAtReset State.reset ∧
  ∀ (s : State) (es : List HostEvent), s.pending = .reset :: es →
    ∃ t, step s = .next t ∧ BlockAtReset t ∧ t.inp = s.inp ∧ t.out = s.out ∧
      t.accesses = s.accesses ∧ t.pending = es ∧ t.replies = s.replies

/-- R280 (log entry 11, the model's grain): a command abandoned by reset after `k` of its stream accesses leaves in IN and OUT what
those accesses did, and the block at its reset values. -/
def Obligations.AbandonedCommandKeepsItsAccesses : Prop :=
  ∀ (s t : State) (w : Byte) (k : Nat) (es : List HostEvent), s.pending = .commandThenReset w k :: es →
    issue w { s with pending := es } = .next t →
    ∃ u, step s = .next u ∧ BlockAtReset u ∧ u.pending = es ∧ u.replies = s.replies ∧
      StreamsMovedBy ((t.accesses.drop s.accesses.length).take k) s u

/-- With no move of the host the block waits and nothing changes (R280; log entry 1). -/
def Obligations.WaitsForHost : Prop :=
  ∀ s : State, s.pending = [] → step s = .next s

/-! ### CLEAR and NOP (spec/46_system.md) -/

/-- R220: the word 0x01 is CLEAR, and CLEAR, in IDLE and in FAULT, gives every piece of block state its reset value. -/
def Obligations.ClearResets : Prop :=
  Sys2Proof.decode [0x01#8] = .ok (.clear, []) ∧ ∀ s : State, s.phase = .idle ∨ s.phase = .fault →
    ∃ t, exec .clear s = .next t ∧ BlockAtReset t ∧ t.inp = s.inp ∧ t.out = s.out ∧
      t.accesses = s.accesses ∧ t.pending = s.pending ∧ t.replies = s.replies

/-- R224: the word 0x09 is NOP, which changes no state and raises nothing, in IDLE and in FAULT. -/
def Obligations.NopChangesNothing : Prop :=
  Sys2Proof.decode [0x09#8] = .ok (.nop, []) ∧ ∀ s : State, s.phase = .idle ∨ s.phase = .fault → exec .nop s = .next s

/-! ### COUNT (spec/40_histogram.md) -/

/-- R121, R123: one byte changes exactly one bin, and a bin that is full raises and never wraps. -/
def Obligations.BinStep : Prop :=
  ∀ (s : State) (b : Byte) (r : List Byte), s.inp.rest = b :: r →
    ((freqAt s b).toNat < 2 ^ 64 - 1 →
      ∃ t, countStep s = .again t ∧ (freqAt t b).toNat = (freqAt s b).toNat + 1 ∧
        (∀ c, c ≠ b → freqAt t c = freqAt s c) ∧ t.inp.rest = r) ∧
    ((freqAt s b).toNat = 2 ^ 64 - 1 →
      ∃ t, countStep s = .raised t ∧ t.err = 6#4 ∧ t.errinfo = 0x02#8 ∧ t.freq = s.freq ∧ t.inp.rest = r)

/-- R120, R122: COUNT reads IN from its position to its end, once; FREQ is the histogram of those bytes; nothing else changes. -/
def Obligations.CountResult : Prop :=
  ∀ s : State, s.phase = .idle → (∀ b, s.inp.rest.count b < 2 ^ 64) →
    exec .count s = .next { s with
      fv := true
      tv := false
      dv := false
      freq := histogram s.inp.rest
      inp := ⟨s.inp.data, s.inp.pos + s.inp.rest.length⟩
      accesses := s.accesses ++ s.inp.rest.map .read }

/-- R120, R123, R246: the byte that would take a full bin further raises CountOverflow with 0x02, after the bytes before it were
counted. -/
def Obligations.CountOverflowFaults : Prop :=
  ∀ (s : State) (a r : List Byte) (b : Byte), s.phase = .idle → s.inp.rest = a ++ b :: r →
    (∀ c, a.count c < 2 ^ 64) → a.count b = 2 ^ 64 - 1 →
    exec .count s = .next { s with
      phase := .fault
      err := 6#4
      errinfo := 0x02#8
      fv := false
      tv := false
      dv := false
      freq := histogram a
      inp := ⟨s.inp.data, s.inp.pos + a.length + 1⟩
      accesses := s.accesses ++ a.map .read ++ [.read b] }

/-! ### Preconditions (spec/46_system.md R223) -/

/-- R223, R248, R252 (b): a command whose flag is clear raises BadCommand with its word before anything changes; a command whose
requirement holds never raises BadCommand. -/
def Obligations.PreconditionFaults : Prop :=
  ∀ (i : Instr) (s : State), s.phase = .idle →
    (requiredFlag i s = false → exec i s = .next { s with
      phase := .fault
      err := 8#4
      errinfo := encodeWord i }) ∧
    (requiredFlag i s = true → s.err ≠ 8#4 → ∀ t, exec i s = .next t → t.err ≠ 8#4)

/-! ### BUILD_TREE (spec/41_tree_builder.md) -/

/-- R131: `Insert` puts the new index before the first element of strictly smaller frequency, else at the end, so after every
element of the same frequency; a list sorted by descending frequency stays sorted. -/
def Obligations.InsertPlacesAfterEquals : Prop :=
  ∀ (nodes : Vector Node 511) (i : NodeIx) (l : List NodeIx),
    ∃ p, p ≤ l.length ∧
      (∀ j ∈ l.take p, (nodeAt nodes i).freq ≤ (nodeAt nodes j).freq) ∧
      (∀ j, l[p]? = some j → (nodeAt nodes j).freq < (nodeAt nodes i).freq) ∧
      insertWork nodes i l = l.take p ++ i :: l.drop p ∧
      (l.Pairwise (fun j k => (nodeAt nodes k).freq ≤ (nodeAt nodes j).freq) →
        (insertWork nodes i l).Pairwise (fun j k => (nodeAt nodes k).freq ≤ (nodeAt nodes j).freq))

/-- R130, R132: a merge takes the last two of WORK; the last becomes the left child, the second to last the right, and the new
node's frequency is their sum; it stands at index NCOUNT and is put into WORK by `Insert`. A sum of 2^64 or more raises
CountOverflow with 0x03 and is not stored. With NIL for one of the two the merge raises MalformedTree with 0x03 (R133, R241); only a
WORK that names NIL gets there, which no run reaches, and what the model reads for NODE[NIL] there is log entry 7. -/
def Obligations.MergeStepMakesParent : Prop :=
  ∀ (s : State) (l : List NodeIx) (a b : NodeIx), s.work = l ++ [b, a] →
    (a ≠ Config.nil → b ≠ Config.nil → s.ncount.toNat < 511 →
      (nodeAt s.node a).freq.toNat + (nodeAt s.node b).freq.toNat < 2 ^ 64 →
      ∃ t n, mergeStep s = .again t ∧ t.ncount.toNat = s.ncount.toNat + 1 ∧
        nodeN t s.ncount.toNat = n ∧ n.kind = .internal ∧ n.sym = 0#8 ∧ n.left = a ∧ n.right = b ∧
        n.freq.toNat = (nodeAt s.node a).freq.toNat + (nodeAt s.node b).freq.toNat ∧
        (∀ k, k < 511 → k ≠ s.ncount.toNat → nodeN t k = nodeN s k) ∧
        t.work = insertWork t.node (s.ncount.setWidth 9) l ∧
        t = { s with node := t.node, ncount := t.ncount, work := t.work }) ∧
    (2 ^ 64 ≤ (nodeAt s.node a).freq.toNat + (nodeAt s.node b).freq.toNat →
      mergeStep s = .raised { s with
        work := l
        phase := .fault
        err := 6#4
        errinfo := 0x03#8 }) ∧
    (a = Config.nil ∨ b = Config.nil → (nodeAt s.node a).freq.toNat + (nodeAt s.node b).freq.toNat < 2 ^ 64 →
      mergeStep s = .raised { s with
        work := l
        phase := .fault
        err := 1#4
        errinfo := 0x03#8 })

/-- R130, R135 (a), R242: with every bin 0 no tree is built: EmptyInput, and no node, leaf or root. What it says of DICT is the
model's: that BUILD_TREE clears the `valid` bits although R93 and R30 do not list DICT (log entry 5, DEDUCED from R130's pseudocode),
and that an entry keeps its `len` and `code`, which R30 leaves unspecified (log entry 3, DESIGN CHOICE). -/
def Obligations.EmptyInputFaults : Prop :=
  ∀ s : State, s.phase = .idle → s.fv = true → (∀ b, freqAt s b = 0#64) →
    exec .buildTree s = .next { s with
      phase := .fault
      err := 2#4
      errinfo := 0#8
      tv := false
      dv := false
      ncount := 0#10
      nleaf := 0#9
      root := Config.nil
      work := []
      dict := (invalidateEntries s).dict }

/-- R130, R134, R41: with a nonzero bin and a total below 2^64, BUILD_TREE builds a valid tree of FREQ: every clause of R41 and the
order of R134; NLEAF is the number of nonzero bins and the root's frequency their sum; nothing else changes. What it says of DICT
is the model's: that BUILD_TREE clears the `valid` bits although R93 and R30 do not list DICT (log entry 5, DEDUCED from R130's
pseudocode), and that an entry keeps its `len` and `code`, which R30 leaves unspecified (log entry 3, DESIGN CHOICE). -/
def Obligations.BuildTreeResult : Prop :=
  ∀ s : State, s.phase = .idle → s.fv = true → (∃ b, freqAt s b ≠ 0#64) → freqTotal s < 2 ^ 64 →
    ∃ t, exec .buildTree s = .next t ∧ TreeOk t ∧ LeavesOk t ∧
      t.nleaf.toNat = (presentSymbols s).length ∧
      (nodeAt t.node t.root).freq.toNat = freqTotal s ∧
      t.work = [t.root] ∧
      t = { s with
        tv := true
        dv := false
        node := t.node
        ncount := t.ncount
        nleaf := t.nleaf
        root := t.root
        leaflist := t.leaflist
        work := t.work
        dict := (invalidateEntries s).dict }

/-- R130, R246: with a total of 2^64 or more some merge does not fit: CountOverflow with 0x03, and no tree. -/
def Obligations.BuildTreeOverflowFaults : Prop :=
  ∀ s : State, s.phase = .idle → s.fv = true → 2 ^ 64 ≤ freqTotal s →
    ∃ t, exec .buildTree s = .next t ∧ t.phase = .fault ∧ t.err = 6#4 ∧ t.errinfo = 0x03#8 ∧
      t.tv = false ∧ t.dv = false ∧ t.root = Config.nil ∧ t.freq = s.freq ∧ t.inp = s.inp ∧ t.out = s.out

/-- R134 (determinism): BUILD_TREE reads nothing but FREQ: from two states with the same table it makes the same nodes, the same
leaf list and the same root. -/
def Obligations.BuildTreeReadsOnlyFreq : Prop :=
  ∀ s s' t t' : State, s.phase = .idle → s'.phase = .idle → s.fv = true → s'.fv = true → s'.freq = s.freq →
    exec .buildTree s = .next t → exec .buildTree s' = .next t' →
    t'.phase = t.phase ∧ (t.phase = .fault → t'.err = t.err ∧ t'.errinfo = t.errinfo) ∧ t'.ncount = t.ncount ∧ t'.nleaf = t.nleaf ∧ t'.root = t.root ∧
      leafList t' = leafList t ∧ ∀ k, k < t.ncount.toNat → nodeN t' k = nodeN t k

/-! ### BUILD_DICT (spec/42_dictionary_builder.md) -/

/-- R150, R151: on a valid tree of FREQ, BUILD_DICT writes one entry per leaf, its code the path from the root to the leaf; the
number of valid entries is NLEAF; with two leaves or more a code has 1 to NLEAF - 1 bits; nothing else changes. That an entry that
is not valid keeps its `len` and `code` is the model's choice (log entry 3, DESIGN CHOICE): R30 leaves them unspecified. -/
def Obligations.BuildDictResult : Prop :=
  ∀ s : State, s.phase = .idle → s.tv = true → TreeOk s → LeavesOk s →
    ∃ t, exec .buildDict s = .next t ∧ DictOk t ∧
      (symbols.filter fun b => (dictAt t b).valid).length = s.nleaf.toNat ∧
      (2 ≤ s.nleaf.toNat → ∀ b, (dictAt t b).valid = true →
        1 ≤ (dictAt t b).len.toNat ∧ (dictAt t b).len.toNat ≤ s.nleaf.toNat - 1) ∧
      (∀ b, (dictAt t b).valid = false → dictAt t b = { dictAt s b with valid := false }) ∧
      t = { s with
        dv := true
        dict := t.dict }

/-- R151 (a law to prove): the codes of two distinct symbols are no prefixes of each other. -/
def Obligations.CodesArePrefixFree : Prop :=
  ∀ (s : State) (b c : Byte), DictOk s → (dictAt s b).valid = true → (dictAt s c).valid = true → b ≠ c →
    ¬ (dictAt s b).code <+: (dictAt s c).code

/-- R152: when the root is a leaf, the one symbol gets length 0 and the empty code, and every other entry is invalid. -/
def Obligations.SingleLeafDictionary : Prop :=
  ∀ s : State, s.phase = .idle → s.tv = true → s.root ≠ Config.nil → (nodeAt s.node s.root).kind = .leaf →
    ∃ t, exec .buildDict s = .next t ∧
      (dictAt t (nodeAt s.node s.root).sym).valid = true ∧
      (dictAt t (nodeAt s.node s.root).sym).len = 0#8 ∧
      (dictAt t (nodeAt s.node s.root).sym).code = [] ∧
      (∀ b, b ≠ (nodeAt s.node s.root).sym → (dictAt t b).valid = false) ∧
      t = { s with
        dv := true
        dict := t.dict }

/-- R150, R241: an Internal node that lacks a child, at the root or at any node the walk meets, raises MalformedTree with 0x04 and
leaves DV clear; the entries stored before it are codes of their symbols, and nothing else changes. The walk goes left first, so it
meets the node at `q` when neither `q` nor a node to the left of `q` is deeper than a code of 255 bits allows (log entry 8). That
the entries of a root that lacks a child keep their `len` and `code` is the model's choice (log entry 3, DESIGN CHOICE): R30 leaves
them unspecified. -/
def Obligations.BuildDictMalformedTree : Prop :=
  (∀ s : State, s.phase = .idle → s.tv = true → s.root ≠ Config.nil → (nodeAt s.node s.root).kind = .internal →
    (nodeAt s.node s.root).left = Config.nil ∨ (nodeAt s.node s.root).right = Config.nil →
    exec .buildDict s = .next { s with
      phase := .fault
      err := 1#4
      errinfo := 0x04#8
      dv := false
      dict := (invalidateEntries s).dict }) ∧
  (∀ (s : State) (q : List Bool), s.phase = .idle → s.tv = true → s.root ≠ Config.nil →
    innerPath s.node s.root q = true → lacksChild (nodeAt s.node (reach s.node s.root q)) = true → q.length ≤ 255 →
    (∀ p x r, q = p ++ true :: x → innerPath s.node s.root (p ++ false :: r) = true →
      lacksChild (nodeAt s.node (reach s.node s.root (p ++ false :: r))) = false → (p ++ false :: r).length < 255) →
    ∃ t, exec .buildDict s = .next t ∧
      (∀ b, (dictAt t b).valid = true → leafPath s.node s.root (dictAt t b).code = some b) ∧
      t = { s with
        phase := .fault
        err := 1#4
        errinfo := 0x04#8
        dv := false
        dict := t.dict })

/-! ### ENC_META and DEC_META (spec/43_metadata_codec.md) -/

/-- R160, R96, R97: with at most 255 leaves, ENC_META records N and W and writes the header of the leaf list, `2 + NLEAF * (W + 1)`
bytes, and nothing else changes. Every entry of the leaf list must name a node, as it does in every run. -/
def Obligations.EncMetaResult : Prop :=
  ∀ s : State, s.phase = .idle → s.tv = true → s.nleaf.toNat ≤ 255 →
    s.leaflist[0] ≠ Config.nil → (∀ i ∈ leafList s, i ≠ Config.nil) →
    ∃ w h, w = max 1 (ceil8 (bitlen (nodeAt s.node s.leaflist[0]).freq.toNat)) ∧
      h = headerBytes s.node (leafList s) w ∧ h.length = 2 + s.nleaf.toNat * (w + 1) ∧
      exec .encMeta s = .next { s with
        hdrN := BitVec.ofNat 8 s.nleaf.toNat
        hdrW := BitVec.ofNat 8 w
        out := s.out ++ h
        accesses := s.accesses ++ h.map .write }

/-- R165, R244: with more than 255 leaves ENC_META raises SymbolCountOverflow and writes nothing. -/
def Obligations.EncMetaTooManySymbols : Prop :=
  ∀ s : State, s.phase = .idle → s.tv = true → 255 < s.nleaf.toNat →
    exec .encMeta s = .next { s with
      phase := .fault
      err := 4#4
      errinfo := 0#8 }

/-- R161, R97: on a tree of FREQ, the W that ENC_META records is 1 to 8, holds every leaf's frequency, and is the least such. -/
def Obligations.HeaderWidthIsLeast : Prop :=
  ∀ s t : State, s.phase = .idle → s.tv = true → TreeOk s → LeavesOk s → s.nleaf.toNat ≤ 255 →
    exec .encMeta s = .next t →
    1 ≤ t.hdrW.toNat ∧ t.hdrW.toNat ≤ 8 ∧
      (∀ i ∈ leafList s, (nodeAt s.node i).freq.toNat < 256 ^ t.hdrW.toNat) ∧
      ∀ w, 1 ≤ w → (∀ i ∈ leafList s, (nodeAt s.node i).freq.toNat < 256 ^ w) → t.hdrW.toNat ≤ w

/-- R162: a header of `rs.length` good records is read; FREQ is the table of the records, in whatever order they came; IN stands on
the byte after the header; nothing else changes. -/
def Obligations.DecMetaResult : Prop :=
  ∀ (s : State) (n w : Byte) (rs : List (Byte × Nat)) (r : List Byte), s.phase = .idle →
    s.inp.rest = n :: w :: (recordsImage w.toNat rs ++ r) → rs.length = n.toNat →
    1 ≤ w.toNat → w.toNat ≤ 8 → RecordsOk w.toNat rs →
    exec .decMeta s = .next { s with
      fv := true
      tv := false
      dv := false
      freq := recordsTable rs
      hdrN := n
      hdrW := w
      inp := ⟨s.inp.data, s.inp.pos + 2 + n.toNat * (w.toNat + 1)⟩
      accesses := s.accesses ++ (n :: w :: recordsImage w.toNat rs).map .read }

/-- R163 (a) to (c), R245, R252 (c): a width outside 1 to 8 raises BadHeader 1 as soon as it is read; after good records, a record of
frequency 0 raises BadHeader 3, and a record of a symbol that has one already raises BadHeader 2. FREQ keeps the records stored
so far, no flag is set. -/
def Obligations.DecMetaBadHeaders : Prop :=
  ∀ (s : State) (n w : Byte) (x : List Byte), s.phase = .idle → s.inp.rest = n :: w :: x →
    (w.toNat = 0 ∨ 8 < w.toNat →
      ∃ t, exec .decMeta s = .next t ∧ t.phase = .fault ∧ t.err = 5#4 ∧ t.errinfo = 1#8 ∧ t.fv = false ∧
        t.freq = recordsTable [] ∧ t.hdrN = n ∧ t.hdrW = w ∧ t.inp.pos = s.inp.pos + 2) ∧
    (∀ (rs : List (Byte × Nat)) (y : Byte) (f : Nat) (r : List Byte), 1 ≤ w.toNat → w.toNat ≤ 8 →
      RecordsOk w.toNat rs → rs.length < n.toNat → f < 256 ^ w.toNat →
      x = recordsImage w.toNat (rs ++ [(y, f)]) ++ r → f = 0 ∨ y ∈ rs.map Prod.fst →
      ∃ t, exec .decMeta s = .next t ∧ t.phase = .fault ∧ t.err = 5#4 ∧
        t.errinfo = (if f = 0 then 3#8 else 2#8) ∧ t.fv = false ∧ t.freq = recordsTable rs ∧
        t.hdrN = n ∧ t.hdrW = w ∧ t.inp.pos = s.inp.pos + 2 + (rs.length + 1) * (w.toNat + 1))

/-- R163 (d), R243: a stream that ends inside the header raises TruncatedStream with 0x06: before the two header bytes are there, or
inside the record after `rs.length` good ones. Everything there was is read. -/
def Obligations.DecMetaTruncated : Prop :=
  ∀ s : State, s.phase = .idle →
    (s.inp.rest.length < 2 →
      ∃ t, exec .decMeta s = .next t ∧ t.phase = .fault ∧ t.err = 3#4 ∧ t.errinfo = 0x06#8 ∧ t.fv = false ∧
        t.freq = recordsTable [] ∧ t.hdrN = s.hdrN ∧ t.hdrW = s.hdrW ∧
        t.inp.pos = s.inp.pos + s.inp.rest.length) ∧
    (∀ (n w : Byte) (rs : List (Byte × Nat)) (p : List Byte), 1 ≤ w.toNat → w.toNat ≤ 8 → RecordsOk w.toNat rs →
      rs.length < n.toNat → p.length ≤ w.toNat → s.inp.rest = n :: w :: (recordsImage w.toNat rs ++ p) →
      ∃ t, exec .decMeta s = .next t ∧ t.phase = .fault ∧ t.err = 3#4 ∧ t.errinfo = 0x06#8 ∧ t.fv = false ∧
        t.freq = recordsTable rs ∧ t.hdrN = n ∧ t.hdrW = w ∧ t.inp.pos = s.inp.pos + s.inp.rest.length)

/-- R164: the header ENC_META writes from a tree, read back by DEC_META with any bytes behind it, gives the table the tree was built
from, and stops right behind the header. -/
def Obligations.MetadataRoundTrip : Prop :=
  ∀ (s t u : State) (h x : List Byte), s.phase = .idle → s.tv = true → TreeOk s → LeavesOk s → s.nleaf.toNat ≤ 255 →
    exec .encMeta s = .next t → t.out = s.out ++ h →
    u.phase = .idle → u.inp = ⟨h ++ x, 0⟩ →
    ∃ v, exec .decMeta u = .next v ∧ v.phase = .idle ∧ v.fv = true ∧ v.freq = s.freq ∧
      v.hdrN = t.hdrN ∧ v.hdrW = t.hdrW ∧ v.inp = ⟨h ++ x, h.length⟩

/-! ### PACK (spec/44_packer.md) -/

/-- R181, R182: the byte-level append puts the code behind the buffer's valid bits. -/
def Obligations.AppendLaw : Prop :=
  ∀ (s : State) (c : List Bool), BufOk s →
    ∃ t, appendCode c s = t ∧ t.bitlen = s.bitlen + c.length ∧ t.buf = pack (validBits s ++ c) ∧
      t.buf.length = ceil8 t.bitlen ∧ validBits t = validBits s ++ c ∧
      t = { s with buf := t.buf, bitlen := t.bitlen }

/-- R183: the flush at a chunk's end writes every complete byte and keeps the trailing partial byte. -/
def Obligations.FlushCompleteKeepsCarry : Prop :=
  ∀ s : State, BufOk s →
    ∃ t, flushComplete s = t ∧ t.out = s.out ++ s.buf.take (s.bitlen / 8) ∧ t.buf = s.buf.drop (s.bitlen / 8) ∧
      t.bitlen = s.bitlen % 8 ∧ t.bitlen ≤ 7 ∧ t.buf.length = (if t.bitlen = 0 then 0 else 1) ∧
      validBits s = bits (s.buf.take (s.bitlen / 8)) ++ validBits t ∧ BufOk t

/-- R184: the final flush writes the partial byte as it stands, its pad bits 0, or nothing when there is none. -/
def Obligations.FlushFinalPadsWithZeros : Prop :=
  ∀ s : State, BufOk s → s.bitlen ≤ 7 →
    ∃ t, flushFinal s = t ∧ t.buf = [] ∧ t.bitlen = 0 ∧ t.out = s.out ++ pack (validBits s) ∧
      (s.bitlen = 0 → t.out = s.out) ∧ (0 < s.bitlen → t.out = s.out ++ s.buf.take 1)

/-- R180, R186, R99: for every CHUNK of at least 1, PACK of symbols that all have codes appends exactly the packed concatenation of
their codes; IN stands at its end, BUF is empty, nothing else changes. The command is the case of the configuration's CHUNK. -/
def Obligations.PackResult : Prop :=
  1 ≤ Config.chunk ∧ ∀ (chunk : Nat) (s : State), 1 ≤ chunk → s.phase = .idle → s.dv = true →
    (∀ b ∈ s.inp.rest, (dictAt s b).valid = true) →
    ∃ t, accept (packBody chunk) s = .next t ∧ (chunk = Config.chunk → exec .pack s = .next t) ∧
      readBytes (t.accesses.drop s.accesses.length) = s.inp.rest ∧
      t = { s with
        buf := []
        bitlen := 0
        inp := ⟨s.inp.data, s.inp.pos + s.inp.rest.length⟩
        out := s.out ++ pack (codesOf s s.inp.rest)
        accesses := t.accesses }

/-- R187, R247: the first symbol without a code raises DictMiss with the symbol; OUT has the complete bytes of the chunks before, and
nothing of this one. -/
def Obligations.PackDictMissFaults : Prop :=
  ∀ (chunk : Nat) (s : State) (a r : List Byte) (b : Byte), 1 ≤ chunk → s.phase = .idle → s.dv = true →
    s.inp.rest = a ++ b :: r → (∀ c ∈ a, (dictAt s c).valid = true) → (dictAt s b).valid = false →
    ∃ t, accept (packBody chunk) s = .next t ∧ (chunk = Config.chunk → exec .pack s = .next t) ∧ t.phase = .fault ∧ t.err = 7#4 ∧ t.errinfo = b ∧
      t.inp = ⟨s.inp.data, s.inp.pos + a.length + 1⟩ ∧
      t.out = s.out ++ (pack (codesOf s (a.take (a.length / chunk * chunk)))).take
        ((codesOf s (a.take (a.length / chunk * chunk))).length / 8) ∧
      t.fv = s.fv ∧ t.tv = s.tv ∧ t.dv = s.dv ∧ t.dict = s.dict

/-- R188: while the symbols of a chunk are taken, the buffer never holds more than a carry of 7 bits and 255 bits per symbol. -/
def Obligations.PackBufferIsBounded : Prop :=
  ∀ (k : Nat) (s t : State), BufOk s → s.bitlen ≤ 7 →
    packChunk k s = .again t ∨ packChunk k s = .exit t ∨ packChunk k s = .raised t →
    BufOk t ∧ t.bitlen ≤ 7 + 255 * k ∧ t.buf.length ≤ ceil8 (7 + 255 * k)

/-! ### DECODE (spec/45_decoder.md) -/

/-- R205: a root that is a leaf is emitted as often as its frequency says, and nothing is read. -/
def Obligations.DecodeSingleLeaf : Prop :=
  ∀ (s : State) (run : List Byte), s.phase = .idle → s.tv = true → s.root ≠ Config.nil →
    (nodeAt s.node s.root).kind = .leaf →
    run = List.replicate (nodeAt s.node s.root).freq.toNat (nodeAt s.node s.root).sym →
    exec .decode s = .next { s with
      cur := s.root
      remain := 0#64
      shift := 0#8
      bitpos := 0#4
      out := s.out ++ run
      accesses := s.accesses ++ run.map .write }

/-- R200 to R203: when the bits of IN begin with the paths of as many symbols as the root's frequency counts, DECODE emits those
symbols and stops: IN stands behind the byte of the last bit used, and BITPOS counts that byte's unread bits, whatever follows. -/
def Obligations.DecodeResult : Prop :=
  ∀ (s : State) (ps : List (List Bool × Byte)) (r : List Bool), s.phase = .idle → s.tv = true →
    s.root ≠ Config.nil → (nodeAt s.node s.root).kind = .internal →
    (∀ p ∈ ps, leafPath s.node s.root p.1 = some p.2) → ps.length = (nodeAt s.node s.root).freq.toNat →
    bits s.inp.rest = ps.flatMap Prod.fst ++ r →
    ∃ t, exec .decode s = .next t ∧
      t.bitpos.toNat = 8 * ceil8 (ps.flatMap Prod.fst).length - (ps.flatMap Prod.fst).length ∧
      t = { s with
        cur := s.root
        remain := 0#64
        shift := t.shift
        bitpos := t.bitpos
        inp := ⟨s.inp.data, s.inp.pos + ceil8 (ps.flatMap Prod.fst).length⟩
        out := s.out ++ ps.map Prod.snd
        accesses := t.accesses }

/-- R204, R243: when the bits of IN end before as many symbols are recovered, between two codes or inside one, DECODE raises
TruncatedStream with 0x08; the symbols before stay in OUT and REMAIN tells how many were owed. -/
def Obligations.DecodeTruncatedFaults : Prop :=
  ∀ (s : State) (ps : List (List Bool × Byte)) (q : List Bool), s.phase = .idle → s.tv = true →
    s.root ≠ Config.nil → (∀ p ∈ ps, leafPath s.node s.root p.1 = some p.2) →
    innerPath s.node s.root q = true → ps.length < (nodeAt s.node s.root).freq.toNat →
    bits s.inp.rest = ps.flatMap Prod.fst ++ q →
    ∃ t, exec .decode s = .next t ∧ t.phase = .fault ∧ t.err = 3#4 ∧ t.errinfo = 0x08#8 ∧
      t.out = s.out ++ ps.map Prod.snd ∧
      t.remain.toNat = (nodeAt s.node s.root).freq.toNat - ps.length ∧
      t.inp = ⟨s.inp.data, s.inp.pos + s.inp.rest.length⟩ ∧
      t.fv = s.fv ∧ t.tv = s.tv ∧ t.dv = s.dv ∧ t.node = s.node

/-- R206, R241: a bit that selects a missing child raises MalformedTree with 0x08; the symbols before it stay in OUT. -/
def Obligations.DecodeMalformedTree : Prop :=
  ∀ (s : State) (ps : List (List Bool × Byte)) (q r : List Bool) (b : Bool), s.phase = .idle → s.tv = true →
    s.root ≠ Config.nil → (∀ p ∈ ps, leafPath s.node s.root p.1 = some p.2) →
    innerPath s.node s.root q = true → childOf (nodeAt s.node (q.foldl (fun i x => childOf (nodeAt s.node i) x) s.root)) b =
      Config.nil →
    ps.length < (nodeAt s.node s.root).freq.toNat → bits s.inp.rest = ps.flatMap Prod.fst ++ q ++ b :: r →
    ∃ t, exec .decode s = .next t ∧ t.phase = .fault ∧ t.err = 1#4 ∧ t.errinfo = 0x08#8 ∧
      t.out = s.out ++ ps.map Prod.snd ∧
      t.remain.toNat = (nodeAt s.node s.root).freq.toNat - ps.length

/-! ### The two sequences (spec/46_system.md R226, R227; spec/45_decoder.md R207) -/

/-- R226: COMPRESS of a nonempty input of at most 255 distinct values ends without fault and leaves the header and the packed body
in OUT. The input is shorter than 2^64 bytes, which R123 needs and which every stream of a machine is. -/
def Obligations.CompressWritesHeaderAndBody : Prop :=
  ∀ (s : State) (x : List Byte), s.phase = .idle → x ≠ [] → x.dedup.length ≤ 255 → x.length < 2 ^ 64 →
    ∃ t w, Host.Core.run Sys2Proof.core 7 { s with pending := compressMoves, inp := ⟨x, 0⟩, out := [] } = .next t ∧
      t.phase = .idle ∧ t.err = 0#4 ∧ t.fv = true ∧ t.tv = true ∧ t.dv = true ∧
      t.freq = histogram x ∧ TreeOk t ∧ LeavesOk t ∧ DictOk t ∧ t.inp = ⟨x, x.length⟩ ∧
      t.hdrW.toNat = w ∧ t.out = headerBytes t.node (leafList t) w ++ pack (codesOf t x)

/-- R226, R290: COMPRESS of the empty input ends with EmptyInput, and of an input with all 256 values with SymbolCountOverflow; OUT
is empty both times. -/
def Obligations.CompressRejectsUnfitInputs : Prop :=
  ∀ (s : State) (x : List Byte), s.phase = .idle →
    (x = [] → ∃ t, Host.Core.run Sys2Proof.core 7 { s with pending := compressMoves, inp := ⟨x, 0⟩, out := [] } =
      .next t ∧ t.phase = .fault ∧ t.err = 2#4 ∧ t.out = []) ∧
    ((∀ b, b ∈ x) → x.length < 2 ^ 64 →
      ∃ t, Host.Core.run Sys2Proof.core 7 { s with pending := compressMoves, inp := ⟨x, 0⟩, out := [] } =
        .next t ∧ t.phase = .fault ∧ t.err = 4#4 ∧ t.out = [])

/-- R207: what COMPRESS leaves, DECOMPRESS turns back into the input, whatever bytes follow, on any idle instance, for every CHUNK
of at least 1 (nothing is known of Config.chunk but that). The input is shorter than 2^64 bytes, which R123 needs. -/
def Obligations.CompressDecompressRoundTrip : Prop :=
  ∀ (s u : State) (x y : List Byte), s.phase = .idle → u.phase = .idle → x ≠ [] → x.dedup.length ≤ 255 →
    x.length < 2 ^ 64 →
    ∃ t v, Host.Core.run Sys2Proof.core 7 { s with pending := compressMoves, inp := ⟨x, 0⟩, out := [] } = .next t ∧
      t.phase = .idle ∧ t.err = 0#4 ∧
      Host.Core.run Sys2Proof.core 4 { u with pending := decompressMoves, inp := ⟨t.out ++ y, 0⟩, out := [] } = .next v ∧
      v.phase = .idle ∧ v.err = 0#4 ∧ v.out = x

/-! ### All commands -/

/-- R93, R250: every command leaves everything outside its row of the operand table as it was; and PHASE, ERR and ERRINFO, which no
row lists but CLEAR's, are as they were too unless the command raised: when it ends outside FAULT, and when it is discarded in FAULT.
That BUILD_TREE may clear the `valid` bits of DICT, which its row does not list, is the model's reading of R130's pseudocode (log
entry 5, DEDUCED), and that it keeps `len` and `code` is log entry 3 (DESIGN CHOICE). -/
def Obligations.CommandsWriteOnlyTheirOperands : Prop :=
  ∀ (i : Instr) (s t : State), exec i s = .next t →
    WritesOnly i s t ∧
    (i ≠ .clear → s.phase = .fault ∨ t.phase ≠ .fault → t.phase = s.phase ∧ t.err = s.err ∧ t.errinfo = s.errinfo)

/-- R24: the flags change only as the table of R24 says: by the commands it names, at their start and on success at their end; by
no command discarded in FAULT, and by no other move of the host but reset. -/
def Obligations.FlagsChangeOnlyAsListed : Prop :=
  (∀ (i : Instr) (s t : State), s.phase = .idle → exec i s = .next t → FlagsFollow i s t) ∧
  (∀ (i : Instr) (s t : State), s.phase = .fault → i ≠ .clear → exec i s = .next t →
    t.fv = s.fv ∧ t.tv = s.tv ∧ t.dv = s.dv) ∧
  (∀ (e : HostEvent) (s t : State), (∀ w, e ≠ .command w) → (∀ w k, e ≠ .commandThenReset w k) → e ≠ .reset →
    hostStep e s = .next t → t.fv = s.fv ∧ t.tv = s.tv ∧ t.dv = s.dv) ∧
  (∀ s t : State, hostStep .reset s = .next t → t.fv = false ∧ t.tv = false ∧ t.dv = false)

/-- R34, R61, R63: every command moves IN only by reading its next bytes and OUT only by appending, in the order of its accesses. -/
def Obligations.StreamsMoveOnlyByAccesses : Prop :=
  ∀ (i : Instr) (s t : State), exec i s = .next t → ∃ as, StreamsMovedBy as s t

/-- R253: only CLEAR and reset leave FAULT, and both leave the block at its reset values. -/
def Obligations.OnlyClearAndResetLeaveFault : Prop :=
  ∀ s t : State, s.phase = .fault → step s = .next t → t.phase ≠ .fault →
    BlockAtReset t ∧ ∃ es, s.pending = .command 0x01#8 :: es ∨ s.pending = .reset :: es ∨
      ∃ w k, s.pending = .commandThenReset w k :: es

/-- R240, R250: the code of each fault kind; a raise writes ERR, ERRINFO and PHASE and nothing else. -/
def Obligations.RaiseWritesThreeFields : Prop :=
  (∀ (k : ErrKind) (info : Byte) (s : State), raise k info s = { s with
    err := k.code
    errinfo := info
    phase := .fault }) ∧
  ErrKind.malformedTree.code = 1#4 ∧ ErrKind.emptyInput.code = 2#4 ∧ ErrKind.truncatedStream.code = 3#4 ∧
  ErrKind.symbolCountOverflow.code = 4#4 ∧ ErrKind.badHeader.code = 5#4 ∧ ErrKind.countOverflow.code = 6#4 ∧
  ErrKind.dictMiss.code = 7#4 ∧ ErrKind.badCommand.code = 8#4

/-! ### The invariant -/

/-- The machine right after reset satisfies the invariant (R22, R23, R24, R32, R34, R40, R41). -/
def Obligations.InvariantAtReset : Prop := Inv State.reset

/-- R22, R23, R24, R27, R32, R34, R41, R134, R151: every step keeps the invariant, from every state that has it. -/
def Obligations.StepKeepsInvariant : Prop :=
  ∀ s t : State, Inv s → step s = .next t → Inv t

/-- R222, R225: from every state of the invariant every step answers a next state: no run of the machine stops. -/
def Obligations.StepAlwaysAnswers : Prop :=
  ∀ s : State, Inv s → ∃ t, step s = .next t
end

