-- ==== Sys2Proof/Laws/Bits.lean ====
section
/-! SUPPORT. What the bit and byte helpers of spec/00_scope.md R13 and R16 do: `bits` and `pack` are inverse up to padding,
`be` and `unbe` are inverse, and the 32-byte code field of spec/30_encoding.md R98 gives its code back. -/

namespace Sys2Proof.Machine

/-! ### One byte -/

theorem bitsOf_byteOf (b7 b6 b5 b4 b3 b2 b1 b0 : Bool) :
    bitsOf (byteOf b7 b6 b5 b4 b3 b2 b1 b0) = [b7, b6, b5, b4, b3, b2, b1, b0] := by
  revert b7 b6 b5 b4 b3 b2 b1 b0; decide

theorem byteOf_bitsOf (x : Byte) :
    byteOf (x.getLsbD 7) (x.getLsbD 6) (x.getLsbD 5) (x.getLsbD 4) (x.getLsbD 3) (x.getLsbD 2)
      (x.getLsbD 1) (x.getLsbD 0) = x := by
  revert x; decide

@[simp] theorem length_bitsOf (x : Byte) : (bitsOf x).length = 8 := rfl

theorem bitsOf_zero : bitsOf 0#8 = List.replicate 8 false := by decide

theorem bitsOf_ne_nil (x : Byte) : bitsOf x ≠ [] := by simp [bitsOf]

/-! ### bits -/

@[simp] theorem bits_nil : bits [] = [] := rfl

@[simp] theorem bits_cons (x : Byte) (l : List Byte) : bits (x :: l) = bitsOf x ++ bits l := by
  simp [bits]

@[simp] theorem bits_append (a b : List Byte) : bits (a ++ b) = bits a ++ bits b := by
  simp [bits]

@[simp] theorem length_bits (l : List Byte) : (bits l).length = 8 * l.length := by
  induction l with
  | nil => rfl
  | cons x l ih => simp [ih]; omega

theorem bits_replicate_zero (n : Nat) : bits (List.replicate n 0#8) = List.replicate (8 * n) false := by
  induction n with
  | zero => rfl
  | succ n ih =>
    rw [List.replicate_succ, bits_cons, ih, bitsOf_zero, List.replicate_append_replicate]
    congr 1; omega

theorem bits_injective : Function.Injective bits := by
  intro a
  induction a with
  | nil =>
    intro b h
    cases b with
    | nil => rfl
    | cons y b => simp [bitsOf] at h
  | cons x a ih =>
    intro b h
    cases b with
    | nil => simp [bitsOf] at h
    | cons y b =>
      rw [bits_cons, bits_cons] at h
      obtain ⟨h1, h2⟩ := List.append_inj h (by simp)
      rw [ih h2]
      have : x = y := by
        rw [← byteOf_bitsOf x, ← byteOf_bitsOf y]
        simp only [bitsOf, List.cons.injEq] at h1
        obtain ⟨h7, h6, h5, h4, h3, h2, h1, h0, -⟩ := h1
        rw [h7, h6, h5, h4, h3, h2, h1, h0]
      rw [this]

/-! ### pack -/

@[simp] theorem pack_nil : pack [] = [] := rfl

theorem pack_eight (b7 b6 b5 b4 b3 b2 b1 b0 : Bool) (t : List Bool) :
    pack (b7 :: b6 :: b5 :: b4 :: b3 :: b2 :: b1 :: b0 :: t) = byteOf b7 b6 b5 b4 b3 b2 b1 b0 :: pack t := by
  rw [pack]

theorem pack_bitsOf_append (x : Byte) (t : List Bool) : pack (bitsOf x ++ t) = x :: pack t := by
  simp only [bitsOf, List.cons_append, List.nil_append, pack_eight, byteOf_bitsOf]

theorem pack_bits_append (l : List Byte) (t : List Bool) : pack (bits l ++ t) = l ++ pack t := by
  induction l with
  | nil => rfl
  | cons x l ih => rw [bits_cons, List.append_assoc, pack_bitsOf_append, ih]; rfl

@[simp] theorem pack_bits (l : List Byte) : pack (bits l) = l := by
  have := pack_bits_append l []
  simpa using this

/-- `bits(pack(b))` is `b` and then the zero pad (R16). -/
theorem bits_pack : ∀ b : List Bool, bits (pack b) = b ++ List.replicate (8 * ceil8 b.length - b.length) false
  | b7 :: b6 :: b5 :: b4 :: b3 :: b2 :: b1 :: b0 :: t => by
    rw [pack_eight, bits_cons, bitsOf_byteOf, bits_pack t]
    simp only [List.cons_append, List.nil_append, List.length_cons, ceil8]
    congr 10
    omega
  | [b7, b6, b5, b4, b3, b2, b1] => by simp [pack, bitsOf_byteOf, ceil8]
  | [b7, b6, b5, b4, b3, b2] => by simp [pack, bitsOf_byteOf, ceil8, List.replicate]
  | [b7, b6, b5, b4, b3] => by simp [pack, bitsOf_byteOf, ceil8, List.replicate]
  | [b7, b6, b5, b4] => by simp [pack, bitsOf_byteOf, ceil8, List.replicate]
  | [b7, b6, b5] => by simp [pack, bitsOf_byteOf, ceil8, List.replicate]
  | [b7, b6] => by simp [pack, bitsOf_byteOf, ceil8, List.replicate]
  | [b7] => by simp [pack, bitsOf_byteOf, ceil8, List.replicate]
  | [] => rfl

@[simp] theorem length_pack (b : List Bool) : (pack b).length = ceil8 b.length := by
  have h := congrArg List.length (bits_pack b)
  rw [length_bits, List.length_append, List.length_replicate] at h
  simp only [ceil8] at *
  omega

theorem take_bits_pack (b : List Bool) : (bits (pack b)).take b.length = b := by
  rw [bits_pack, List.take_left']; rfl

/-- Packing whole bytes' worth of bits first splits (R181's aligned case). -/
theorem pack_append_aligned (a b : List Bool) (h : a.length % 8 = 0) : pack (a ++ b) = pack a ++ pack b := by
  have ha : a = bits (pack a) := by
    rw [bits_pack]
    have : 8 * ceil8 a.length - a.length = 0 := by simp only [ceil8]; omega
    rw [this]; simp
  conv => lhs; rw [ha, pack_bits_append]

/-- The zero pad of a packed sequence may be made explicit. -/
theorem pack_append_pad (b : List Bool) (n : Nat) (h : b.length + n ≤ 8 * ceil8 b.length) :
    pack (b ++ List.replicate n false) = pack b := by
  apply bits_injective
  rw [bits_pack, bits_pack, List.append_assoc, List.replicate_append_replicate]
  congr 2
  simp only [List.length_append, List.length_replicate, ceil8] at *
  omega

/-- Two sequences with the same bits and the same number of bytes pack alike. -/
theorem eq_pack_of_bits (l : List Byte) (b : List Bool)
    (h : bits l = b ++ List.replicate (8 * ceil8 b.length - b.length) false) : l = pack b :=
  bits_injective (h.trans (bits_pack b).symm)

/-! ### The 32-byte code field (R98) -/

theorem toList_ofCode (c : List Bool) (h : c.length ≤ 255) :
    (DictEntry.ofCode c).bytes.toList = pack c ++ List.replicate (32 - ceil8 c.length) 0#8 := by
  have hc : ceil8 c.length ≤ 32 := by simp only [ceil8]; omega
  apply List.ext_getElem
  · simp; omega
  · intro i h1 h2
    simp only [Vector.length_toList] at h1
    simp only [DictEntry.ofCode, Vector.getElem_toList, Vector.getElem_ofFn]
    by_cases hi : i < (pack c).length
    · rw [List.getElem_append_left hi, List.getD_eq_getElem _ _ hi]
    · rw [List.getElem_append_right (by omega)]
      simp [List.getD_eq_getElem?_getD, List.getElem?_eq_none (Nat.le_of_not_lt hi)]

/-- A code of at most 255 bits is what its dictionary entry holds (R98, R150). -/
theorem code_ofCode (c : List Bool) (h : c.length ≤ 255) : (DictEntry.ofCode c).code = c := by
  have hlen : (DictEntry.ofCode c).len.toNat = c.length := by
    simp only [DictEntry.ofCode, BitVec.toNat_ofNat]; omega
  rw [DictEntry.code, hlen, toList_ofCode c h, bits_append, List.take_append_of_le_length, take_bits_pack]
  rw [length_bits, length_pack]; simp only [ceil8]; omega

@[simp] theorem valid_ofCode (c : List Bool) : (DictEntry.ofCode c).valid = true := rfl

theorem len_ofCode (c : List Bool) (h : c.length ≤ 255) : (DictEntry.ofCode c).len.toNat = c.length := by
  simp only [DictEntry.ofCode, BitVec.toNat_ofNat]; omega

/-- The code of an entry has `len` bits, whatever the entry holds. -/
@[simp] theorem length_code (e : DictEntry) : e.code.length = e.len.toNat := by
  have := e.len.isLt
  simp only [DictEntry.code, List.length_take, length_bits, Vector.length_toList]
  omega

/-! ### be, unbe, bitlen -/

@[simp] theorem length_be (v W : Nat) : (be v W).length = W := by simp [be]

@[simp] theorem be_zero_width (v : Nat) : be v 0 = [] := rfl

/-- The bytes of a big-endian image, least significant last. -/
theorem be_succ (v W : Nat) : be v (W + 1) = be (v / 256) W ++ [BitVec.ofNat 8 v] := by
  simp only [be, List.range_succ, List.map_append, List.map_cons, List.map_nil]
  congr 1
  · apply List.map_congr_left
    intro j hj
    have hj := List.mem_range.1 hj
    rw [show W + 1 - 1 - j = (W - 1 - j) + 1 by omega, Nat.pow_succ, Nat.mul_comm, Nat.div_div_eq_div_mul]
  · simp

theorem unbe_append_singleton (l : List Byte) (b : Byte) : unbe (l ++ [b]) = unbe l * 256 + b.toNat := by
  simp [unbe]

/-- `unbe` of `be` is the number, when it fits (R16). -/
theorem unbe_be (W : Nat) : ∀ v : Nat, v < 256 ^ W → unbe (be v W) = v := by
  induction W with
  | zero => intro v h; simp at h; simp [h, unbe]
  | succ W ih =>
    intro v h
    rw [be_succ, unbe_append_singleton, ih (v / 256) (by rw [Nat.pow_succ] at h; omega)]
    simp only [BitVec.toNat_ofNat]
    omega

theorem unbe_lt (l : List Byte) : unbe l < 256 ^ l.length := by
  induction l using List.reverseRecOn with
  | nil => simp [unbe]
  | append_singleton l b ih =>
    rw [unbe_append_singleton, List.length_append, List.length_singleton, Nat.pow_succ]
    have := b.isLt
    omega

/-- `bitlen(v)` is the least number of bits `v` fits in (R13). -/
theorem bitlen_le_iff (v n : Nat) : bitlen v ≤ n ↔ v < 2 ^ n := by
  unfold bitlen
  split
  · next h => subst h; simp
  · next h => rw [Nat.add_one_le_iff, Nat.log2_lt h]

end Sys2Proof.Machine
end

