-- ==== Sys2Proof/Laws/State.lean ====
section
/-! SUPPORT. One lemma per field of State per update of the shared operations, each true by rfl, so that no later proof unfolds a
record update. -/

namespace Sys2Proof.Machine

/-! ### raise -/

@[simp] theorem raise_phase (k : ErrKind) (info : Byte) (s : State) : (raise k info s).phase = .fault := rfl
@[simp] theorem raise_err (k : ErrKind) (info : Byte) (s : State) : (raise k info s).err = k.code := rfl
@[simp] theorem raise_errinfo (k : ErrKind) (info : Byte) (s : State) : (raise k info s).errinfo = info := rfl
@[simp] theorem raise_fv (k : ErrKind) (info : Byte) (s : State) : (raise k info s).fv = s.fv := rfl
@[simp] theorem raise_tv (k : ErrKind) (info : Byte) (s : State) : (raise k info s).tv = s.tv := rfl
@[simp] theorem raise_dv (k : ErrKind) (info : Byte) (s : State) : (raise k info s).dv = s.dv := rfl
@[simp] theorem raise_freq (k : ErrKind) (info : Byte) (s : State) : (raise k info s).freq = s.freq := rfl
@[simp] theorem raise_node (k : ErrKind) (info : Byte) (s : State) : (raise k info s).node = s.node := rfl
@[simp] theorem raise_ncount (k : ErrKind) (info : Byte) (s : State) : (raise k info s).ncount = s.ncount := rfl
@[simp] theorem raise_nleaf (k : ErrKind) (info : Byte) (s : State) : (raise k info s).nleaf = s.nleaf := rfl
@[simp] theorem raise_root (k : ErrKind) (info : Byte) (s : State) : (raise k info s).root = s.root := rfl
@[simp] theorem raise_leaflist (k : ErrKind) (info : Byte) (s : State) : (raise k info s).leaflist = s.leaflist := rfl
@[simp] theorem raise_work (k : ErrKind) (info : Byte) (s : State) : (raise k info s).work = s.work := rfl
@[simp] theorem raise_dict (k : ErrKind) (info : Byte) (s : State) : (raise k info s).dict = s.dict := rfl
@[simp] theorem raise_hdrN (k : ErrKind) (info : Byte) (s : State) : (raise k info s).hdrN = s.hdrN := rfl
@[simp] theorem raise_hdrW (k : ErrKind) (info : Byte) (s : State) : (raise k info s).hdrW = s.hdrW := rfl
@[simp] theorem raise_buf (k : ErrKind) (info : Byte) (s : State) : (raise k info s).buf = s.buf := rfl
@[simp] theorem raise_bitlen (k : ErrKind) (info : Byte) (s : State) : (raise k info s).bitlen = s.bitlen := rfl
@[simp] theorem raise_cur (k : ErrKind) (info : Byte) (s : State) : (raise k info s).cur = s.cur := rfl
@[simp] theorem raise_remain (k : ErrKind) (info : Byte) (s : State) : (raise k info s).remain = s.remain := rfl
@[simp] theorem raise_shift (k : ErrKind) (info : Byte) (s : State) : (raise k info s).shift = s.shift := rfl
@[simp] theorem raise_bitpos (k : ErrKind) (info : Byte) (s : State) : (raise k info s).bitpos = s.bitpos := rfl
@[simp] theorem raise_inp (k : ErrKind) (info : Byte) (s : State) : (raise k info s).inp = s.inp := rfl
@[simp] theorem raise_out (k : ErrKind) (info : Byte) (s : State) : (raise k info s).out = s.out := rfl
@[simp] theorem raise_accesses (k : ErrKind) (info : Byte) (s : State) : (raise k info s).accesses = s.accesses := rfl
@[simp] theorem raise_pending (k : ErrKind) (info : Byte) (s : State) : (raise k info s).pending = s.pending := rfl
@[simp] theorem raise_replies (k : ErrKind) (info : Byte) (s : State) : (raise k info s).replies = s.replies := rfl

/-! ### resetBlock -/

@[simp] theorem resetBlock_phase (s : State) : (resetBlock s).phase = .idle := rfl
@[simp] theorem resetBlock_err (s : State) : (resetBlock s).err = 0#4 := rfl
@[simp] theorem resetBlock_errinfo (s : State) : (resetBlock s).errinfo = 0#8 := rfl
@[simp] theorem resetBlock_fv (s : State) : (resetBlock s).fv = false := rfl
@[simp] theorem resetBlock_tv (s : State) : (resetBlock s).tv = false := rfl
@[simp] theorem resetBlock_dv (s : State) : (resetBlock s).dv = false := rfl
@[simp] theorem resetBlock_freq (s : State) : (resetBlock s).freq = Vector.replicate 256 0#64 := rfl
@[simp] theorem resetBlock_node (s : State) : (resetBlock s).node = Vector.replicate 511 Node.blank := rfl
@[simp] theorem resetBlock_ncount (s : State) : (resetBlock s).ncount = 0#10 := rfl
@[simp] theorem resetBlock_nleaf (s : State) : (resetBlock s).nleaf = 0#9 := rfl
@[simp] theorem resetBlock_root (s : State) : (resetBlock s).root = Config.nil := rfl
@[simp] theorem resetBlock_leaflist (s : State) : (resetBlock s).leaflist = Vector.replicate 256 0#9 := rfl
@[simp] theorem resetBlock_work (s : State) : (resetBlock s).work = [] := rfl
@[simp] theorem resetBlock_dict (s : State) : (resetBlock s).dict = Vector.replicate 256 DictEntry.blank := rfl
@[simp] theorem resetBlock_hdrN (s : State) : (resetBlock s).hdrN = 0#8 := rfl
@[simp] theorem resetBlock_hdrW (s : State) : (resetBlock s).hdrW = 0#8 := rfl
@[simp] theorem resetBlock_buf (s : State) : (resetBlock s).buf = [] := rfl
@[simp] theorem resetBlock_bitlen (s : State) : (resetBlock s).bitlen = 0 := rfl
@[simp] theorem resetBlock_cur (s : State) : (resetBlock s).cur = Config.nil := rfl
@[simp] theorem resetBlock_remain (s : State) : (resetBlock s).remain = 0#64 := rfl
@[simp] theorem resetBlock_shift (s : State) : (resetBlock s).shift = 0#8 := rfl
@[simp] theorem resetBlock_bitpos (s : State) : (resetBlock s).bitpos = 0#4 := rfl
@[simp] theorem resetBlock_inp (s : State) : (resetBlock s).inp = s.inp := rfl
@[simp] theorem resetBlock_out (s : State) : (resetBlock s).out = s.out := rfl
@[simp] theorem resetBlock_accesses (s : State) : (resetBlock s).accesses = s.accesses := rfl
@[simp] theorem resetBlock_pending (s : State) : (resetBlock s).pending = s.pending := rfl
@[simp] theorem resetBlock_replies (s : State) : (resetBlock s).replies = s.replies := rfl

/-! ### outWrite -/

@[simp] theorem outWrite_phase (b : Byte) (s : State) : (outWrite b s).phase = s.phase := rfl
@[simp] theorem outWrite_err (b : Byte) (s : State) : (outWrite b s).err = s.err := rfl
@[simp] theorem outWrite_errinfo (b : Byte) (s : State) : (outWrite b s).errinfo = s.errinfo := rfl
@[simp] theorem outWrite_fv (b : Byte) (s : State) : (outWrite b s).fv = s.fv := rfl
@[simp] theorem outWrite_tv (b : Byte) (s : State) : (outWrite b s).tv = s.tv := rfl
@[simp] theorem outWrite_dv (b : Byte) (s : State) : (outWrite b s).dv = s.dv := rfl
@[simp] theorem outWrite_freq (b : Byte) (s : State) : (outWrite b s).freq = s.freq := rfl
@[simp] theorem outWrite_node (b : Byte) (s : State) : (outWrite b s).node = s.node := rfl
@[simp] theorem outWrite_ncount (b : Byte) (s : State) : (outWrite b s).ncount = s.ncount := rfl
@[simp] theorem outWrite_nleaf (b : Byte) (s : State) : (outWrite b s).nleaf = s.nleaf := rfl
@[simp] theorem outWrite_root (b : Byte) (s : State) : (outWrite b s).root = s.root := rfl
@[simp] theorem outWrite_leaflist (b : Byte) (s : State) : (outWrite b s).leaflist = s.leaflist := rfl
@[simp] theorem outWrite_work (b : Byte) (s : State) : (outWrite b s).work = s.work := rfl
@[simp] theorem outWrite_dict (b : Byte) (s : State) : (outWrite b s).dict = s.dict := rfl
@[simp] theorem outWrite_hdrN (b : Byte) (s : State) : (outWrite b s).hdrN = s.hdrN := rfl
@[simp] theorem outWrite_hdrW (b : Byte) (s : State) : (outWrite b s).hdrW = s.hdrW := rfl
@[simp] theorem outWrite_buf (b : Byte) (s : State) : (outWrite b s).buf = s.buf := rfl
@[simp] theorem outWrite_bitlen (b : Byte) (s : State) : (outWrite b s).bitlen = s.bitlen := rfl
@[simp] theorem outWrite_cur (b : Byte) (s : State) : (outWrite b s).cur = s.cur := rfl
@[simp] theorem outWrite_remain (b : Byte) (s : State) : (outWrite b s).remain = s.remain := rfl
@[simp] theorem outWrite_shift (b : Byte) (s : State) : (outWrite b s).shift = s.shift := rfl
@[simp] theorem outWrite_bitpos (b : Byte) (s : State) : (outWrite b s).bitpos = s.bitpos := rfl
@[simp] theorem outWrite_inp (b : Byte) (s : State) : (outWrite b s).inp = s.inp := rfl
@[simp] theorem outWrite_out (b : Byte) (s : State) : (outWrite b s).out = s.out ++ [b] := rfl
@[simp] theorem outWrite_accesses (b : Byte) (s : State) : (outWrite b s).accesses = s.accesses ++ [.write b] := rfl
@[simp] theorem outWrite_pending (b : Byte) (s : State) : (outWrite b s).pending = s.pending := rfl
@[simp] theorem outWrite_replies (b : Byte) (s : State) : (outWrite b s).replies = s.replies := rfl

/-! ### tookByte -/

@[simp] theorem tookByte_phase (b : Byte) (s : State) : (tookByte b s).phase = s.phase := rfl
@[simp] theorem tookByte_err (b : Byte) (s : State) : (tookByte b s).err = s.err := rfl
@[simp] theorem tookByte_errinfo (b : Byte) (s : State) : (tookByte b s).errinfo = s.errinfo := rfl
@[simp] theorem tookByte_fv (b : Byte) (s : State) : (tookByte b s).fv = s.fv := rfl
@[simp] theorem tookByte_tv (b : Byte) (s : State) : (tookByte b s).tv = s.tv := rfl
@[simp] theorem tookByte_dv (b : Byte) (s : State) : (tookByte b s).dv = s.dv := rfl
@[simp] theorem tookByte_freq (b : Byte) (s : State) : (tookByte b s).freq = s.freq := rfl
@[simp] theorem tookByte_node (b : Byte) (s : State) : (tookByte b s).node = s.node := rfl
@[simp] theorem tookByte_ncount (b : Byte) (s : State) : (tookByte b s).ncount = s.ncount := rfl
@[simp] theorem tookByte_nleaf (b : Byte) (s : State) : (tookByte b s).nleaf = s.nleaf := rfl
@[simp] theorem tookByte_root (b : Byte) (s : State) : (tookByte b s).root = s.root := rfl
@[simp] theorem tookByte_leaflist (b : Byte) (s : State) : (tookByte b s).leaflist = s.leaflist := rfl
@[simp] theorem tookByte_work (b : Byte) (s : State) : (tookByte b s).work = s.work := rfl
@[simp] theorem tookByte_dict (b : Byte) (s : State) : (tookByte b s).dict = s.dict := rfl
@[simp] theorem tookByte_hdrN (b : Byte) (s : State) : (tookByte b s).hdrN = s.hdrN := rfl
@[simp] theorem tookByte_hdrW (b : Byte) (s : State) : (tookByte b s).hdrW = s.hdrW := rfl
@[simp] theorem tookByte_buf (b : Byte) (s : State) : (tookByte b s).buf = s.buf := rfl
@[simp] theorem tookByte_bitlen (b : Byte) (s : State) : (tookByte b s).bitlen = s.bitlen := rfl
@[simp] theorem tookByte_cur (b : Byte) (s : State) : (tookByte b s).cur = s.cur := rfl
@[simp] theorem tookByte_remain (b : Byte) (s : State) : (tookByte b s).remain = s.remain := rfl
@[simp] theorem tookByte_shift (b : Byte) (s : State) : (tookByte b s).shift = s.shift := rfl
@[simp] theorem tookByte_bitpos (b : Byte) (s : State) : (tookByte b s).bitpos = s.bitpos := rfl
@[simp] theorem tookByte_inp (b : Byte) (s : State) : (tookByte b s).inp = ⟨s.inp.data, s.inp.pos + 1⟩ := rfl
@[simp] theorem tookByte_out (b : Byte) (s : State) : (tookByte b s).out = s.out := rfl
@[simp] theorem tookByte_accesses (b : Byte) (s : State) : (tookByte b s).accesses = s.accesses ++ [.read b] := rfl
@[simp] theorem tookByte_pending (b : Byte) (s : State) : (tookByte b s).pending = s.pending := rfl
@[simp] theorem tookByte_replies (b : Byte) (s : State) : (tookByte b s).replies = s.replies := rfl

/-! ### setFreq -/

@[simp] theorem setFreq_phase (s : State) (b : Byte) (v : Count) : (setFreq s b v).phase = s.phase := rfl
@[simp] theorem setFreq_err (s : State) (b : Byte) (v : Count) : (setFreq s b v).err = s.err := rfl
@[simp] theorem setFreq_errinfo (s : State) (b : Byte) (v : Count) : (setFreq s b v).errinfo = s.errinfo := rfl
@[simp] theorem setFreq_fv (s : State) (b : Byte) (v : Count) : (setFreq s b v).fv = s.fv := rfl
@[simp] theorem setFreq_tv (s : State) (b : Byte) (v : Count) : (setFreq s b v).tv = s.tv := rfl
@[simp] theorem setFreq_dv (s : State) (b : Byte) (v : Count) : (setFreq s b v).dv = s.dv := rfl
@[simp] theorem setFreq_freq (s : State) (b : Byte) (v : Count) : (setFreq s b v).freq = s.freq.set b.toNat v b.isLt := rfl
@[simp] theorem setFreq_node (s : State) (b : Byte) (v : Count) : (setFreq s b v).node = s.node := rfl
@[simp] theorem setFreq_ncount (s : State) (b : Byte) (v : Count) : (setFreq s b v).ncount = s.ncount := rfl
@[simp] theorem setFreq_nleaf (s : State) (b : Byte) (v : Count) : (setFreq s b v).nleaf = s.nleaf := rfl
@[simp] theorem setFreq_root (s : State) (b : Byte) (v : Count) : (setFreq s b v).root = s.root := rfl
@[simp] theorem setFreq_leaflist (s : State) (b : Byte) (v : Count) : (setFreq s b v).leaflist = s.leaflist := rfl
@[simp] theorem setFreq_work (s : State) (b : Byte) (v : Count) : (setFreq s b v).work = s.work := rfl
@[simp] theorem setFreq_dict (s : State) (b : Byte) (v : Count) : (setFreq s b v).dict = s.dict := rfl
@[simp] theorem setFreq_hdrN (s : State) (b : Byte) (v : Count) : (setFreq s b v).hdrN = s.hdrN := rfl
@[simp] theorem setFreq_hdrW (s : State) (b : Byte) (v : Count) : (setFreq s b v).hdrW = s.hdrW := rfl
@[simp] theorem setFreq_buf (s : State) (b : Byte) (v : Count) : (setFreq s b v).buf = s.buf := rfl
@[simp] theorem setFreq_bitlen (s : State) (b : Byte) (v : Count) : (setFreq s b v).bitlen = s.bitlen := rfl
@[simp] theorem setFreq_cur (s : State) (b : Byte) (v : Count) : (setFreq s b v).cur = s.cur := rfl
@[simp] theorem setFreq_remain (s : State) (b : Byte) (v : Count) : (setFreq s b v).remain = s.remain := rfl
@[simp] theorem setFreq_shift (s : State) (b : Byte) (v : Count) : (setFreq s b v).shift = s.shift := rfl
@[simp] theorem setFreq_bitpos (s : State) (b : Byte) (v : Count) : (setFreq s b v).bitpos = s.bitpos := rfl
@[simp] theorem setFreq_inp (s : State) (b : Byte) (v : Count) : (setFreq s b v).inp = s.inp := rfl
@[simp] theorem setFreq_out (s : State) (b : Byte) (v : Count) : (setFreq s b v).out = s.out := rfl
@[simp] theorem setFreq_accesses (s : State) (b : Byte) (v : Count) : (setFreq s b v).accesses = s.accesses := rfl
@[simp] theorem setFreq_pending (s : State) (b : Byte) (v : Count) : (setFreq s b v).pending = s.pending := rfl
@[simp] theorem setFreq_replies (s : State) (b : Byte) (v : Count) : (setFreq s b v).replies = s.replies := rfl

/-! ### clearFreq -/

@[simp] theorem clearFreq_phase (s : State) : (clearFreq s).phase = s.phase := rfl
@[simp] theorem clearFreq_err (s : State) : (clearFreq s).err = s.err := rfl
@[simp] theorem clearFreq_errinfo (s : State) : (clearFreq s).errinfo = s.errinfo := rfl
@[simp] theorem clearFreq_fv (s : State) : (clearFreq s).fv = s.fv := rfl
@[simp] theorem clearFreq_tv (s : State) : (clearFreq s).tv = s.tv := rfl
@[simp] theorem clearFreq_dv (s : State) : (clearFreq s).dv = s.dv := rfl
@[simp] theorem clearFreq_freq (s : State) : (clearFreq s).freq = Vector.replicate 256 0#64 := rfl
@[simp] theorem clearFreq_node (s : State) : (clearFreq s).node = s.node := rfl
@[simp] theorem clearFreq_ncount (s : State) : (clearFreq s).ncount = s.ncount := rfl
@[simp] theorem clearFreq_nleaf (s : State) : (clearFreq s).nleaf = s.nleaf := rfl
@[simp] theorem clearFreq_root (s : State) : (clearFreq s).root = s.root := rfl
@[simp] theorem clearFreq_leaflist (s : State) : (clearFreq s).leaflist = s.leaflist := rfl
@[simp] theorem clearFreq_work (s : State) : (clearFreq s).work = s.work := rfl
@[simp] theorem clearFreq_dict (s : State) : (clearFreq s).dict = s.dict := rfl
@[simp] theorem clearFreq_hdrN (s : State) : (clearFreq s).hdrN = s.hdrN := rfl
@[simp] theorem clearFreq_hdrW (s : State) : (clearFreq s).hdrW = s.hdrW := rfl
@[simp] theorem clearFreq_buf (s : State) : (clearFreq s).buf = s.buf := rfl
@[simp] theorem clearFreq_bitlen (s : State) : (clearFreq s).bitlen = s.bitlen := rfl
@[simp] theorem clearFreq_cur (s : State) : (clearFreq s).cur = s.cur := rfl
@[simp] theorem clearFreq_remain (s : State) : (clearFreq s).remain = s.remain := rfl
@[simp] theorem clearFreq_shift (s : State) : (clearFreq s).shift = s.shift := rfl
@[simp] theorem clearFreq_bitpos (s : State) : (clearFreq s).bitpos = s.bitpos := rfl
@[simp] theorem clearFreq_inp (s : State) : (clearFreq s).inp = s.inp := rfl
@[simp] theorem clearFreq_out (s : State) : (clearFreq s).out = s.out := rfl
@[simp] theorem clearFreq_accesses (s : State) : (clearFreq s).accesses = s.accesses := rfl
@[simp] theorem clearFreq_pending (s : State) : (clearFreq s).pending = s.pending := rfl
@[simp] theorem clearFreq_replies (s : State) : (clearFreq s).replies = s.replies := rfl

/-! ### addNode -/

@[simp] theorem addNode_phase (n : Node) (s : State) : (addNode n s).phase = s.phase := rfl
@[simp] theorem addNode_err (n : Node) (s : State) : (addNode n s).err = s.err := rfl
@[simp] theorem addNode_errinfo (n : Node) (s : State) : (addNode n s).errinfo = s.errinfo := rfl
@[simp] theorem addNode_fv (n : Node) (s : State) : (addNode n s).fv = s.fv := rfl
@[simp] theorem addNode_tv (n : Node) (s : State) : (addNode n s).tv = s.tv := rfl
@[simp] theorem addNode_dv (n : Node) (s : State) : (addNode n s).dv = s.dv := rfl
@[simp] theorem addNode_freq (n : Node) (s : State) : (addNode n s).freq = s.freq := rfl
@[simp] theorem addNode_node (n : Node) (s : State) : (addNode n s).node = s.node.setIfInBounds s.ncount.toNat n := rfl
@[simp] theorem addNode_ncount (n : Node) (s : State) : (addNode n s).ncount = s.ncount + 1#10 := rfl
@[simp] theorem addNode_nleaf (n : Node) (s : State) : (addNode n s).nleaf = s.nleaf := rfl
@[simp] theorem addNode_root (n : Node) (s : State) : (addNode n s).root = s.root := rfl
@[simp] theorem addNode_leaflist (n : Node) (s : State) : (addNode n s).leaflist = s.leaflist := rfl
@[simp] theorem addNode_work (n : Node) (s : State) : (addNode n s).work = insertWork (s.node.setIfInBounds s.ncount.toNat n) (s.ncount.setWidth 9) s.work := rfl
@[simp] theorem addNode_dict (n : Node) (s : State) : (addNode n s).dict = s.dict := rfl
@[simp] theorem addNode_hdrN (n : Node) (s : State) : (addNode n s).hdrN = s.hdrN := rfl
@[simp] theorem addNode_hdrW (n : Node) (s : State) : (addNode n s).hdrW = s.hdrW := rfl
@[simp] theorem addNode_buf (n : Node) (s : State) : (addNode n s).buf = s.buf := rfl
@[simp] theorem addNode_bitlen (n : Node) (s : State) : (addNode n s).bitlen = s.bitlen := rfl
@[simp] theorem addNode_cur (n : Node) (s : State) : (addNode n s).cur = s.cur := rfl
@[simp] theorem addNode_remain (n : Node) (s : State) : (addNode n s).remain = s.remain := rfl
@[simp] theorem addNode_shift (n : Node) (s : State) : (addNode n s).shift = s.shift := rfl
@[simp] theorem addNode_bitpos (n : Node) (s : State) : (addNode n s).bitpos = s.bitpos := rfl
@[simp] theorem addNode_inp (n : Node) (s : State) : (addNode n s).inp = s.inp := rfl
@[simp] theorem addNode_out (n : Node) (s : State) : (addNode n s).out = s.out := rfl
@[simp] theorem addNode_accesses (n : Node) (s : State) : (addNode n s).accesses = s.accesses := rfl
@[simp] theorem addNode_pending (n : Node) (s : State) : (addNode n s).pending = s.pending := rfl
@[simp] theorem addNode_replies (n : Node) (s : State) : (addNode n s).replies = s.replies := rfl

/-! ### setDict -/

@[simp] theorem setDict_phase (s : State) (b : Byte) (e : DictEntry) : (setDict s b e).phase = s.phase := rfl
@[simp] theorem setDict_err (s : State) (b : Byte) (e : DictEntry) : (setDict s b e).err = s.err := rfl
@[simp] theorem setDict_errinfo (s : State) (b : Byte) (e : DictEntry) : (setDict s b e).errinfo = s.errinfo := rfl
@[simp] theorem setDict_fv (s : State) (b : Byte) (e : DictEntry) : (setDict s b e).fv = s.fv := rfl
@[simp] theorem setDict_tv (s : State) (b : Byte) (e : DictEntry) : (setDict s b e).tv = s.tv := rfl
@[simp] theorem setDict_dv (s : State) (b : Byte) (e : DictEntry) : (setDict s b e).dv = s.dv := rfl
@[simp] theorem setDict_freq (s : State) (b : Byte) (e : DictEntry) : (setDict s b e).freq = s.freq := rfl
@[simp] theorem setDict_node (s : State) (b : Byte) (e : DictEntry) : (setDict s b e).node = s.node := rfl
@[simp] theorem setDict_ncount (s : State) (b : Byte) (e : DictEntry) : (setDict s b e).ncount = s.ncount := rfl
@[simp] theorem setDict_nleaf (s : State) (b : Byte) (e : DictEntry) : (setDict s b e).nleaf = s.nleaf := rfl
@[simp] theorem setDict_root (s : State) (b : Byte) (e : DictEntry) : (setDict s b e).root = s.root := rfl
@[simp] theorem setDict_leaflist (s : State) (b : Byte) (e : DictEntry) : (setDict s b e).leaflist = s.leaflist := rfl
@[simp] theorem setDict_work (s : State) (b : Byte) (e : DictEntry) : (setDict s b e).work = s.work := rfl
@[simp] theorem setDict_dict (s : State) (b : Byte) (e : DictEntry) : (setDict s b e).dict = s.dict.set b.toNat e b.isLt := rfl
@[simp] theorem setDict_hdrN (s : State) (b : Byte) (e : DictEntry) : (setDict s b e).hdrN = s.hdrN := rfl
@[simp] theorem setDict_hdrW (s : State) (b : Byte) (e : DictEntry) : (setDict s b e).hdrW = s.hdrW := rfl
@[simp] theorem setDict_buf (s : State) (b : Byte) (e : DictEntry) : (setDict s b e).buf = s.buf := rfl
@[simp] theorem setDict_bitlen (s : State) (b : Byte) (e : DictEntry) : (setDict s b e).bitlen = s.bitlen := rfl
@[simp] theorem setDict_cur (s : State) (b : Byte) (e : DictEntry) : (setDict s b e).cur = s.cur := rfl
@[simp] theorem setDict_remain (s : State) (b : Byte) (e : DictEntry) : (setDict s b e).remain = s.remain := rfl
@[simp] theorem setDict_shift (s : State) (b : Byte) (e : DictEntry) : (setDict s b e).shift = s.shift := rfl
@[simp] theorem setDict_bitpos (s : State) (b : Byte) (e : DictEntry) : (setDict s b e).bitpos = s.bitpos := rfl
@[simp] theorem setDict_inp (s : State) (b : Byte) (e : DictEntry) : (setDict s b e).inp = s.inp := rfl
@[simp] theorem setDict_out (s : State) (b : Byte) (e : DictEntry) : (setDict s b e).out = s.out := rfl
@[simp] theorem setDict_accesses (s : State) (b : Byte) (e : DictEntry) : (setDict s b e).accesses = s.accesses := rfl
@[simp] theorem setDict_pending (s : State) (b : Byte) (e : DictEntry) : (setDict s b e).pending = s.pending := rfl
@[simp] theorem setDict_replies (s : State) (b : Byte) (e : DictEntry) : (setDict s b e).replies = s.replies := rfl

/-! ### invalidateEntries -/

@[simp] theorem invalidateEntries_phase (s : State) : (invalidateEntries s).phase = s.phase := rfl
@[simp] theorem invalidateEntries_err (s : State) : (invalidateEntries s).err = s.err := rfl
@[simp] theorem invalidateEntries_errinfo (s : State) : (invalidateEntries s).errinfo = s.errinfo := rfl
@[simp] theorem invalidateEntries_fv (s : State) : (invalidateEntries s).fv = s.fv := rfl
@[simp] theorem invalidateEntries_tv (s : State) : (invalidateEntries s).tv = s.tv := rfl
@[simp] theorem invalidateEntries_dv (s : State) : (invalidateEntries s).dv = s.dv := rfl
@[simp] theorem invalidateEntries_freq (s : State) : (invalidateEntries s).freq = s.freq := rfl
@[simp] theorem invalidateEntries_node (s : State) : (invalidateEntries s).node = s.node := rfl
@[simp] theorem invalidateEntries_ncount (s : State) : (invalidateEntries s).ncount = s.ncount := rfl
@[simp] theorem invalidateEntries_nleaf (s : State) : (invalidateEntries s).nleaf = s.nleaf := rfl
@[simp] theorem invalidateEntries_root (s : State) : (invalidateEntries s).root = s.root := rfl
@[simp] theorem invalidateEntries_leaflist (s : State) : (invalidateEntries s).leaflist = s.leaflist := rfl
@[simp] theorem invalidateEntries_work (s : State) : (invalidateEntries s).work = s.work := rfl
@[simp] theorem invalidateEntries_dict (s : State) : (invalidateEntries s).dict = invalidated s.dict := rfl
@[simp] theorem invalidateEntries_hdrN (s : State) : (invalidateEntries s).hdrN = s.hdrN := rfl
@[simp] theorem invalidateEntries_hdrW (s : State) : (invalidateEntries s).hdrW = s.hdrW := rfl
@[simp] theorem invalidateEntries_buf (s : State) : (invalidateEntries s).buf = s.buf := rfl
@[simp] theorem invalidateEntries_bitlen (s : State) : (invalidateEntries s).bitlen = s.bitlen := rfl
@[simp] theorem invalidateEntries_cur (s : State) : (invalidateEntries s).cur = s.cur := rfl
@[simp] theorem invalidateEntries_remain (s : State) : (invalidateEntries s).remain = s.remain := rfl
@[simp] theorem invalidateEntries_shift (s : State) : (invalidateEntries s).shift = s.shift := rfl
@[simp] theorem invalidateEntries_bitpos (s : State) : (invalidateEntries s).bitpos = s.bitpos := rfl
@[simp] theorem invalidateEntries_inp (s : State) : (invalidateEntries s).inp = s.inp := rfl
@[simp] theorem invalidateEntries_out (s : State) : (invalidateEntries s).out = s.out := rfl
@[simp] theorem invalidateEntries_accesses (s : State) : (invalidateEntries s).accesses = s.accesses := rfl
@[simp] theorem invalidateEntries_pending (s : State) : (invalidateEntries s).pending = s.pending := rfl
@[simp] theorem invalidateEntries_replies (s : State) : (invalidateEntries s).replies = s.replies := rfl

/-! ### clearFlags -/

@[simp] theorem clearFlags_phase (s : State) : (clearFlags s).phase = s.phase := rfl
@[simp] theorem clearFlags_err (s : State) : (clearFlags s).err = s.err := rfl
@[simp] theorem clearFlags_errinfo (s : State) : (clearFlags s).errinfo = s.errinfo := rfl
@[simp] theorem clearFlags_fv (s : State) : (clearFlags s).fv = false := rfl
@[simp] theorem clearFlags_tv (s : State) : (clearFlags s).tv = false := rfl
@[simp] theorem clearFlags_dv (s : State) : (clearFlags s).dv = false := rfl
@[simp] theorem clearFlags_freq (s : State) : (clearFlags s).freq = s.freq := rfl
@[simp] theorem clearFlags_node (s : State) : (clearFlags s).node = s.node := rfl
@[simp] theorem clearFlags_ncount (s : State) : (clearFlags s).ncount = s.ncount := rfl
@[simp] theorem clearFlags_nleaf (s : State) : (clearFlags s).nleaf = s.nleaf := rfl
@[simp] theorem clearFlags_root (s : State) : (clearFlags s).root = s.root := rfl
@[simp] theorem clearFlags_leaflist (s : State) : (clearFlags s).leaflist = s.leaflist := rfl
@[simp] theorem clearFlags_work (s : State) : (clearFlags s).work = s.work := rfl
@[simp] theorem clearFlags_dict (s : State) : (clearFlags s).dict = s.dict := rfl
@[simp] theorem clearFlags_hdrN (s : State) : (clearFlags s).hdrN = s.hdrN := rfl
@[simp] theorem clearFlags_hdrW (s : State) : (clearFlags s).hdrW = s.hdrW := rfl
@[simp] theorem clearFlags_buf (s : State) : (clearFlags s).buf = s.buf := rfl
@[simp] theorem clearFlags_bitlen (s : State) : (clearFlags s).bitlen = s.bitlen := rfl
@[simp] theorem clearFlags_cur (s : State) : (clearFlags s).cur = s.cur := rfl
@[simp] theorem clearFlags_remain (s : State) : (clearFlags s).remain = s.remain := rfl
@[simp] theorem clearFlags_shift (s : State) : (clearFlags s).shift = s.shift := rfl
@[simp] theorem clearFlags_bitpos (s : State) : (clearFlags s).bitpos = s.bitpos := rfl
@[simp] theorem clearFlags_inp (s : State) : (clearFlags s).inp = s.inp := rfl
@[simp] theorem clearFlags_out (s : State) : (clearFlags s).out = s.out := rfl
@[simp] theorem clearFlags_accesses (s : State) : (clearFlags s).accesses = s.accesses := rfl
@[simp] theorem clearFlags_pending (s : State) : (clearFlags s).pending = s.pending := rfl
@[simp] theorem clearFlags_replies (s : State) : (clearFlags s).replies = s.replies := rfl

/-! ### clearTreeFlags -/

@[simp] theorem clearTreeFlags_phase (s : State) : (clearTreeFlags s).phase = s.phase := rfl
@[simp] theorem clearTreeFlags_err (s : State) : (clearTreeFlags s).err = s.err := rfl
@[simp] theorem clearTreeFlags_errinfo (s : State) : (clearTreeFlags s).errinfo = s.errinfo := rfl
@[simp] theorem clearTreeFlags_fv (s : State) : (clearTreeFlags s).fv = s.fv := rfl
@[simp] theorem clearTreeFlags_tv (s : State) : (clearTreeFlags s).tv = false := rfl
@[simp] theorem clearTreeFlags_dv (s : State) : (clearTreeFlags s).dv = false := rfl
@[simp] theorem clearTreeFlags_freq (s : State) : (clearTreeFlags s).freq = s.freq := rfl
@[simp] theorem clearTreeFlags_node (s : State) : (clearTreeFlags s).node = s.node := rfl
@[simp] theorem clearTreeFlags_ncount (s : State) : (clearTreeFlags s).ncount = s.ncount := rfl
@[simp] theorem clearTreeFlags_nleaf (s : State) : (clearTreeFlags s).nleaf = s.nleaf := rfl
@[simp] theorem clearTreeFlags_root (s : State) : (clearTreeFlags s).root = s.root := rfl
@[simp] theorem clearTreeFlags_leaflist (s : State) : (clearTreeFlags s).leaflist = s.leaflist := rfl
@[simp] theorem clearTreeFlags_work (s : State) : (clearTreeFlags s).work = s.work := rfl
@[simp] theorem clearTreeFlags_dict (s : State) : (clearTreeFlags s).dict = s.dict := rfl
@[simp] theorem clearTreeFlags_hdrN (s : State) : (clearTreeFlags s).hdrN = s.hdrN := rfl
@[simp] theorem clearTreeFlags_hdrW (s : State) : (clearTreeFlags s).hdrW = s.hdrW := rfl
@[simp] theorem clearTreeFlags_buf (s : State) : (clearTreeFlags s).buf = s.buf := rfl
@[simp] theorem clearTreeFlags_bitlen (s : State) : (clearTreeFlags s).bitlen = s.bitlen := rfl
@[simp] theorem clearTreeFlags_cur (s : State) : (clearTreeFlags s).cur = s.cur := rfl
@[simp] theorem clearTreeFlags_remain (s : State) : (clearTreeFlags s).remain = s.remain := rfl
@[simp] theorem clearTreeFlags_shift (s : State) : (clearTreeFlags s).shift = s.shift := rfl
@[simp] theorem clearTreeFlags_bitpos (s : State) : (clearTreeFlags s).bitpos = s.bitpos := rfl
@[simp] theorem clearTreeFlags_inp (s : State) : (clearTreeFlags s).inp = s.inp := rfl
@[simp] theorem clearTreeFlags_out (s : State) : (clearTreeFlags s).out = s.out := rfl
@[simp] theorem clearTreeFlags_accesses (s : State) : (clearTreeFlags s).accesses = s.accesses := rfl
@[simp] theorem clearTreeFlags_pending (s : State) : (clearTreeFlags s).pending = s.pending := rfl
@[simp] theorem clearTreeFlags_replies (s : State) : (clearTreeFlags s).replies = s.replies := rfl

/-! ### clearDictFlag -/

@[simp] theorem clearDictFlag_phase (s : State) : (clearDictFlag s).phase = s.phase := rfl
@[simp] theorem clearDictFlag_err (s : State) : (clearDictFlag s).err = s.err := rfl
@[simp] theorem clearDictFlag_errinfo (s : State) : (clearDictFlag s).errinfo = s.errinfo := rfl
@[simp] theorem clearDictFlag_fv (s : State) : (clearDictFlag s).fv = s.fv := rfl
@[simp] theorem clearDictFlag_tv (s : State) : (clearDictFlag s).tv = s.tv := rfl
@[simp] theorem clearDictFlag_dv (s : State) : (clearDictFlag s).dv = false := rfl
@[simp] theorem clearDictFlag_freq (s : State) : (clearDictFlag s).freq = s.freq := rfl
@[simp] theorem clearDictFlag_node (s : State) : (clearDictFlag s).node = s.node := rfl
@[simp] theorem clearDictFlag_ncount (s : State) : (clearDictFlag s).ncount = s.ncount := rfl
@[simp] theorem clearDictFlag_nleaf (s : State) : (clearDictFlag s).nleaf = s.nleaf := rfl
@[simp] theorem clearDictFlag_root (s : State) : (clearDictFlag s).root = s.root := rfl
@[simp] theorem clearDictFlag_leaflist (s : State) : (clearDictFlag s).leaflist = s.leaflist := rfl
@[simp] theorem clearDictFlag_work (s : State) : (clearDictFlag s).work = s.work := rfl
@[simp] theorem clearDictFlag_dict (s : State) : (clearDictFlag s).dict = s.dict := rfl
@[simp] theorem clearDictFlag_hdrN (s : State) : (clearDictFlag s).hdrN = s.hdrN := rfl
@[simp] theorem clearDictFlag_hdrW (s : State) : (clearDictFlag s).hdrW = s.hdrW := rfl
@[simp] theorem clearDictFlag_buf (s : State) : (clearDictFlag s).buf = s.buf := rfl
@[simp] theorem clearDictFlag_bitlen (s : State) : (clearDictFlag s).bitlen = s.bitlen := rfl
@[simp] theorem clearDictFlag_cur (s : State) : (clearDictFlag s).cur = s.cur := rfl
@[simp] theorem clearDictFlag_remain (s : State) : (clearDictFlag s).remain = s.remain := rfl
@[simp] theorem clearDictFlag_shift (s : State) : (clearDictFlag s).shift = s.shift := rfl
@[simp] theorem clearDictFlag_bitpos (s : State) : (clearDictFlag s).bitpos = s.bitpos := rfl
@[simp] theorem clearDictFlag_inp (s : State) : (clearDictFlag s).inp = s.inp := rfl
@[simp] theorem clearDictFlag_out (s : State) : (clearDictFlag s).out = s.out := rfl
@[simp] theorem clearDictFlag_accesses (s : State) : (clearDictFlag s).accesses = s.accesses := rfl
@[simp] theorem clearDictFlag_pending (s : State) : (clearDictFlag s).pending = s.pending := rfl
@[simp] theorem clearDictFlag_replies (s : State) : (clearDictFlag s).replies = s.replies := rfl

/-! ### setFV -/

@[simp] theorem setFV_phase (s : State) : (setFV s).phase = s.phase := rfl
@[simp] theorem setFV_err (s : State) : (setFV s).err = s.err := rfl
@[simp] theorem setFV_errinfo (s : State) : (setFV s).errinfo = s.errinfo := rfl
@[simp] theorem setFV_fv (s : State) : (setFV s).fv = true := rfl
@[simp] theorem setFV_tv (s : State) : (setFV s).tv = s.tv := rfl
@[simp] theorem setFV_dv (s : State) : (setFV s).dv = s.dv := rfl
@[simp] theorem setFV_freq (s : State) : (setFV s).freq = s.freq := rfl
@[simp] theorem setFV_node (s : State) : (setFV s).node = s.node := rfl
@[simp] theorem setFV_ncount (s : State) : (setFV s).ncount = s.ncount := rfl
@[simp] theorem setFV_nleaf (s : State) : (setFV s).nleaf = s.nleaf := rfl
@[simp] theorem setFV_root (s : State) : (setFV s).root = s.root := rfl
@[simp] theorem setFV_leaflist (s : State) : (setFV s).leaflist = s.leaflist := rfl
@[simp] theorem setFV_work (s : State) : (setFV s).work = s.work := rfl
@[simp] theorem setFV_dict (s : State) : (setFV s).dict = s.dict := rfl
@[simp] theorem setFV_hdrN (s : State) : (setFV s).hdrN = s.hdrN := rfl
@[simp] theorem setFV_hdrW (s : State) : (setFV s).hdrW = s.hdrW := rfl
@[simp] theorem setFV_buf (s : State) : (setFV s).buf = s.buf := rfl
@[simp] theorem setFV_bitlen (s : State) : (setFV s).bitlen = s.bitlen := rfl
@[simp] theorem setFV_cur (s : State) : (setFV s).cur = s.cur := rfl
@[simp] theorem setFV_remain (s : State) : (setFV s).remain = s.remain := rfl
@[simp] theorem setFV_shift (s : State) : (setFV s).shift = s.shift := rfl
@[simp] theorem setFV_bitpos (s : State) : (setFV s).bitpos = s.bitpos := rfl
@[simp] theorem setFV_inp (s : State) : (setFV s).inp = s.inp := rfl
@[simp] theorem setFV_out (s : State) : (setFV s).out = s.out := rfl
@[simp] theorem setFV_accesses (s : State) : (setFV s).accesses = s.accesses := rfl
@[simp] theorem setFV_pending (s : State) : (setFV s).pending = s.pending := rfl
@[simp] theorem setFV_replies (s : State) : (setFV s).replies = s.replies := rfl

/-! ### setTV -/

@[simp] theorem setTV_phase (s : State) : (setTV s).phase = s.phase := rfl
@[simp] theorem setTV_err (s : State) : (setTV s).err = s.err := rfl
@[simp] theorem setTV_errinfo (s : State) : (setTV s).errinfo = s.errinfo := rfl
@[simp] theorem setTV_fv (s : State) : (setTV s).fv = s.fv := rfl
@[simp] theorem setTV_tv (s : State) : (setTV s).tv = true := rfl
@[simp] theorem setTV_dv (s : State) : (setTV s).dv = s.dv := rfl
@[simp] theorem setTV_freq (s : State) : (setTV s).freq = s.freq := rfl
@[simp] theorem setTV_node (s : State) : (setTV s).node = s.node := rfl
@[simp] theorem setTV_ncount (s : State) : (setTV s).ncount = s.ncount := rfl
@[simp] theorem setTV_nleaf (s : State) : (setTV s).nleaf = s.nleaf := rfl
@[simp] theorem setTV_root (s : State) : (setTV s).root = s.root := rfl
@[simp] theorem setTV_leaflist (s : State) : (setTV s).leaflist = s.leaflist := rfl
@[simp] theorem setTV_work (s : State) : (setTV s).work = s.work := rfl
@[simp] theorem setTV_dict (s : State) : (setTV s).dict = s.dict := rfl
@[simp] theorem setTV_hdrN (s : State) : (setTV s).hdrN = s.hdrN := rfl
@[simp] theorem setTV_hdrW (s : State) : (setTV s).hdrW = s.hdrW := rfl
@[simp] theorem setTV_buf (s : State) : (setTV s).buf = s.buf := rfl
@[simp] theorem setTV_bitlen (s : State) : (setTV s).bitlen = s.bitlen := rfl
@[simp] theorem setTV_cur (s : State) : (setTV s).cur = s.cur := rfl
@[simp] theorem setTV_remain (s : State) : (setTV s).remain = s.remain := rfl
@[simp] theorem setTV_shift (s : State) : (setTV s).shift = s.shift := rfl
@[simp] theorem setTV_bitpos (s : State) : (setTV s).bitpos = s.bitpos := rfl
@[simp] theorem setTV_inp (s : State) : (setTV s).inp = s.inp := rfl
@[simp] theorem setTV_out (s : State) : (setTV s).out = s.out := rfl
@[simp] theorem setTV_accesses (s : State) : (setTV s).accesses = s.accesses := rfl
@[simp] theorem setTV_pending (s : State) : (setTV s).pending = s.pending := rfl
@[simp] theorem setTV_replies (s : State) : (setTV s).replies = s.replies := rfl

/-! ### setDV -/

@[simp] theorem setDV_phase (s : State) : (setDV s).phase = s.phase := rfl
@[simp] theorem setDV_err (s : State) : (setDV s).err = s.err := rfl
@[simp] theorem setDV_errinfo (s : State) : (setDV s).errinfo = s.errinfo := rfl
@[simp] theorem setDV_fv (s : State) : (setDV s).fv = s.fv := rfl
@[simp] theorem setDV_tv (s : State) : (setDV s).tv = s.tv := rfl
@[simp] theorem setDV_dv (s : State) : (setDV s).dv = true := rfl
@[simp] theorem setDV_freq (s : State) : (setDV s).freq = s.freq := rfl
@[simp] theorem setDV_node (s : State) : (setDV s).node = s.node := rfl
@[simp] theorem setDV_ncount (s : State) : (setDV s).ncount = s.ncount := rfl
@[simp] theorem setDV_nleaf (s : State) : (setDV s).nleaf = s.nleaf := rfl
@[simp] theorem setDV_root (s : State) : (setDV s).root = s.root := rfl
@[simp] theorem setDV_leaflist (s : State) : (setDV s).leaflist = s.leaflist := rfl
@[simp] theorem setDV_work (s : State) : (setDV s).work = s.work := rfl
@[simp] theorem setDV_dict (s : State) : (setDV s).dict = s.dict := rfl
@[simp] theorem setDV_hdrN (s : State) : (setDV s).hdrN = s.hdrN := rfl
@[simp] theorem setDV_hdrW (s : State) : (setDV s).hdrW = s.hdrW := rfl
@[simp] theorem setDV_buf (s : State) : (setDV s).buf = s.buf := rfl
@[simp] theorem setDV_bitlen (s : State) : (setDV s).bitlen = s.bitlen := rfl
@[simp] theorem setDV_cur (s : State) : (setDV s).cur = s.cur := rfl
@[simp] theorem setDV_remain (s : State) : (setDV s).remain = s.remain := rfl
@[simp] theorem setDV_shift (s : State) : (setDV s).shift = s.shift := rfl
@[simp] theorem setDV_bitpos (s : State) : (setDV s).bitpos = s.bitpos := rfl
@[simp] theorem setDV_inp (s : State) : (setDV s).inp = s.inp := rfl
@[simp] theorem setDV_out (s : State) : (setDV s).out = s.out := rfl
@[simp] theorem setDV_accesses (s : State) : (setDV s).accesses = s.accesses := rfl
@[simp] theorem setDV_pending (s : State) : (setDV s).pending = s.pending := rfl
@[simp] theorem setDV_replies (s : State) : (setDV s).replies = s.replies := rfl

/-! ### startTree -/

@[simp] theorem startTree_phase (s : State) : (startTree s).phase = s.phase := rfl
@[simp] theorem startTree_err (s : State) : (startTree s).err = s.err := rfl
@[simp] theorem startTree_errinfo (s : State) : (startTree s).errinfo = s.errinfo := rfl
@[simp] theorem startTree_fv (s : State) : (startTree s).fv = s.fv := rfl
@[simp] theorem startTree_tv (s : State) : (startTree s).tv = false := rfl
@[simp] theorem startTree_dv (s : State) : (startTree s).dv = false := rfl
@[simp] theorem startTree_freq (s : State) : (startTree s).freq = s.freq := rfl
@[simp] theorem startTree_node (s : State) : (startTree s).node = s.node := rfl
@[simp] theorem startTree_ncount (s : State) : (startTree s).ncount = 0#10 := rfl
@[simp] theorem startTree_nleaf (s : State) : (startTree s).nleaf = 0#9 := rfl
@[simp] theorem startTree_root (s : State) : (startTree s).root = Config.nil := rfl
@[simp] theorem startTree_leaflist (s : State) : (startTree s).leaflist = s.leaflist := rfl
@[simp] theorem startTree_work (s : State) : (startTree s).work = [] := rfl
@[simp] theorem startTree_dict (s : State) : (startTree s).dict = invalidated s.dict := rfl
@[simp] theorem startTree_hdrN (s : State) : (startTree s).hdrN = s.hdrN := rfl
@[simp] theorem startTree_hdrW (s : State) : (startTree s).hdrW = s.hdrW := rfl
@[simp] theorem startTree_buf (s : State) : (startTree s).buf = s.buf := rfl
@[simp] theorem startTree_bitlen (s : State) : (startTree s).bitlen = s.bitlen := rfl
@[simp] theorem startTree_cur (s : State) : (startTree s).cur = s.cur := rfl
@[simp] theorem startTree_remain (s : State) : (startTree s).remain = s.remain := rfl
@[simp] theorem startTree_shift (s : State) : (startTree s).shift = s.shift := rfl
@[simp] theorem startTree_bitpos (s : State) : (startTree s).bitpos = s.bitpos := rfl
@[simp] theorem startTree_inp (s : State) : (startTree s).inp = s.inp := rfl
@[simp] theorem startTree_out (s : State) : (startTree s).out = s.out := rfl
@[simp] theorem startTree_accesses (s : State) : (startTree s).accesses = s.accesses := rfl
@[simp] theorem startTree_pending (s : State) : (startTree s).pending = s.pending := rfl
@[simp] theorem startTree_replies (s : State) : (startTree s).replies = s.replies := rfl

/-! ### recordLeaves -/

@[simp] theorem recordLeaves_phase (s : State) : (recordLeaves s).phase = s.phase := rfl
@[simp] theorem recordLeaves_err (s : State) : (recordLeaves s).err = s.err := rfl
@[simp] theorem recordLeaves_errinfo (s : State) : (recordLeaves s).errinfo = s.errinfo := rfl
@[simp] theorem recordLeaves_fv (s : State) : (recordLeaves s).fv = s.fv := rfl
@[simp] theorem recordLeaves_tv (s : State) : (recordLeaves s).tv = s.tv := rfl
@[simp] theorem recordLeaves_dv (s : State) : (recordLeaves s).dv = s.dv := rfl
@[simp] theorem recordLeaves_freq (s : State) : (recordLeaves s).freq = s.freq := rfl
@[simp] theorem recordLeaves_node (s : State) : (recordLeaves s).node = s.node := rfl
@[simp] theorem recordLeaves_ncount (s : State) : (recordLeaves s).ncount = s.ncount := rfl
@[simp] theorem recordLeaves_nleaf (s : State) : (recordLeaves s).nleaf = BitVec.ofNat 9 s.work.length := rfl
@[simp] theorem recordLeaves_root (s : State) : (recordLeaves s).root = s.root := rfl
@[simp] theorem recordLeaves_leaflist (s : State) : (recordLeaves s).leaflist = writeLeafList s.work 0 s.leaflist := rfl
@[simp] theorem recordLeaves_work (s : State) : (recordLeaves s).work = s.work := rfl
@[simp] theorem recordLeaves_dict (s : State) : (recordLeaves s).dict = s.dict := rfl
@[simp] theorem recordLeaves_hdrN (s : State) : (recordLeaves s).hdrN = s.hdrN := rfl
@[simp] theorem recordLeaves_hdrW (s : State) : (recordLeaves s).hdrW = s.hdrW := rfl
@[simp] theorem recordLeaves_buf (s : State) : (recordLeaves s).buf = s.buf := rfl
@[simp] theorem recordLeaves_bitlen (s : State) : (recordLeaves s).bitlen = s.bitlen := rfl
@[simp] theorem recordLeaves_cur (s : State) : (recordLeaves s).cur = s.cur := rfl
@[simp] theorem recordLeaves_remain (s : State) : (recordLeaves s).remain = s.remain := rfl
@[simp] theorem recordLeaves_shift (s : State) : (recordLeaves s).shift = s.shift := rfl
@[simp] theorem recordLeaves_bitpos (s : State) : (recordLeaves s).bitpos = s.bitpos := rfl
@[simp] theorem recordLeaves_inp (s : State) : (recordLeaves s).inp = s.inp := rfl
@[simp] theorem recordLeaves_out (s : State) : (recordLeaves s).out = s.out := rfl
@[simp] theorem recordLeaves_accesses (s : State) : (recordLeaves s).accesses = s.accesses := rfl
@[simp] theorem recordLeaves_pending (s : State) : (recordLeaves s).pending = s.pending := rfl
@[simp] theorem recordLeaves_replies (s : State) : (recordLeaves s).replies = s.replies := rfl

/-! ### finishTree -/

@[simp] theorem finishTree_phase (s : State) : (finishTree s).phase = s.phase := rfl
@[simp] theorem finishTree_err (s : State) : (finishTree s).err = s.err := rfl
@[simp] theorem finishTree_errinfo (s : State) : (finishTree s).errinfo = s.errinfo := rfl
@[simp] theorem finishTree_fv (s : State) : (finishTree s).fv = s.fv := rfl
@[simp] theorem finishTree_tv (s : State) : (finishTree s).tv = true := rfl
@[simp] theorem finishTree_dv (s : State) : (finishTree s).dv = s.dv := rfl
@[simp] theorem finishTree_freq (s : State) : (finishTree s).freq = s.freq := rfl
@[simp] theorem finishTree_node (s : State) : (finishTree s).node = s.node := rfl
@[simp] theorem finishTree_ncount (s : State) : (finishTree s).ncount = s.ncount := rfl
@[simp] theorem finishTree_nleaf (s : State) : (finishTree s).nleaf = s.nleaf := rfl
@[simp] theorem finishTree_root (s : State) : (finishTree s).root = s.work.headD Config.nil := rfl
@[simp] theorem finishTree_leaflist (s : State) : (finishTree s).leaflist = s.leaflist := rfl
@[simp] theorem finishTree_work (s : State) : (finishTree s).work = s.work := rfl
@[simp] theorem finishTree_dict (s : State) : (finishTree s).dict = s.dict := rfl
@[simp] theorem finishTree_hdrN (s : State) : (finishTree s).hdrN = s.hdrN := rfl
@[simp] theorem finishTree_hdrW (s : State) : (finishTree s).hdrW = s.hdrW := rfl
@[simp] theorem finishTree_buf (s : State) : (finishTree s).buf = s.buf := rfl
@[simp] theorem finishTree_bitlen (s : State) : (finishTree s).bitlen = s.bitlen := rfl
@[simp] theorem finishTree_cur (s : State) : (finishTree s).cur = s.cur := rfl
@[simp] theorem finishTree_remain (s : State) : (finishTree s).remain = s.remain := rfl
@[simp] theorem finishTree_shift (s : State) : (finishTree s).shift = s.shift := rfl
@[simp] theorem finishTree_bitpos (s : State) : (finishTree s).bitpos = s.bitpos := rfl
@[simp] theorem finishTree_inp (s : State) : (finishTree s).inp = s.inp := rfl
@[simp] theorem finishTree_out (s : State) : (finishTree s).out = s.out := rfl
@[simp] theorem finishTree_accesses (s : State) : (finishTree s).accesses = s.accesses := rfl
@[simp] theorem finishTree_pending (s : State) : (finishTree s).pending = s.pending := rfl
@[simp] theorem finishTree_replies (s : State) : (finishTree s).replies = s.replies := rfl

/-! ### emitSymbol -/

@[simp] theorem emitSymbol_phase (s : State) : (emitSymbol s).phase = s.phase := rfl
@[simp] theorem emitSymbol_err (s : State) : (emitSymbol s).err = s.err := rfl
@[simp] theorem emitSymbol_errinfo (s : State) : (emitSymbol s).errinfo = s.errinfo := rfl
@[simp] theorem emitSymbol_fv (s : State) : (emitSymbol s).fv = s.fv := rfl
@[simp] theorem emitSymbol_tv (s : State) : (emitSymbol s).tv = s.tv := rfl
@[simp] theorem emitSymbol_dv (s : State) : (emitSymbol s).dv = s.dv := rfl
@[simp] theorem emitSymbol_freq (s : State) : (emitSymbol s).freq = s.freq := rfl
@[simp] theorem emitSymbol_node (s : State) : (emitSymbol s).node = s.node := rfl
@[simp] theorem emitSymbol_ncount (s : State) : (emitSymbol s).ncount = s.ncount := rfl
@[simp] theorem emitSymbol_nleaf (s : State) : (emitSymbol s).nleaf = s.nleaf := rfl
@[simp] theorem emitSymbol_root (s : State) : (emitSymbol s).root = s.root := rfl
@[simp] theorem emitSymbol_leaflist (s : State) : (emitSymbol s).leaflist = s.leaflist := rfl
@[simp] theorem emitSymbol_work (s : State) : (emitSymbol s).work = s.work := rfl
@[simp] theorem emitSymbol_dict (s : State) : (emitSymbol s).dict = s.dict := rfl
@[simp] theorem emitSymbol_hdrN (s : State) : (emitSymbol s).hdrN = s.hdrN := rfl
@[simp] theorem emitSymbol_hdrW (s : State) : (emitSymbol s).hdrW = s.hdrW := rfl
@[simp] theorem emitSymbol_buf (s : State) : (emitSymbol s).buf = s.buf := rfl
@[simp] theorem emitSymbol_bitlen (s : State) : (emitSymbol s).bitlen = s.bitlen := rfl
@[simp] theorem emitSymbol_cur (s : State) : (emitSymbol s).cur = s.root := rfl
@[simp] theorem emitSymbol_remain (s : State) : (emitSymbol s).remain = s.remain - 1#64 := rfl
@[simp] theorem emitSymbol_shift (s : State) : (emitSymbol s).shift = s.shift := rfl
@[simp] theorem emitSymbol_bitpos (s : State) : (emitSymbol s).bitpos = s.bitpos := rfl
@[simp] theorem emitSymbol_inp (s : State) : (emitSymbol s).inp = s.inp := rfl
@[simp] theorem emitSymbol_out (s : State) : (emitSymbol s).out = s.out ++ [(nodeAt s.node s.cur).sym] := rfl
@[simp] theorem emitSymbol_accesses (s : State) : (emitSymbol s).accesses = s.accesses ++ [.write (nodeAt s.node s.cur).sym] := rfl
@[simp] theorem emitSymbol_pending (s : State) : (emitSymbol s).pending = s.pending := rfl
@[simp] theorem emitSymbol_replies (s : State) : (emitSymbol s).replies = s.replies := rfl

/-! ### hostSetInput -/

@[simp] theorem hostSetInput_phase (l : List Byte) (s : State) : (hostSetInput l s).phase = s.phase := rfl
@[simp] theorem hostSetInput_err (l : List Byte) (s : State) : (hostSetInput l s).err = s.err := rfl
@[simp] theorem hostSetInput_errinfo (l : List Byte) (s : State) : (hostSetInput l s).errinfo = s.errinfo := rfl
@[simp] theorem hostSetInput_fv (l : List Byte) (s : State) : (hostSetInput l s).fv = s.fv := rfl
@[simp] theorem hostSetInput_tv (l : List Byte) (s : State) : (hostSetInput l s).tv = s.tv := rfl
@[simp] theorem hostSetInput_dv (l : List Byte) (s : State) : (hostSetInput l s).dv = s.dv := rfl
@[simp] theorem hostSetInput_freq (l : List Byte) (s : State) : (hostSetInput l s).freq = s.freq := rfl
@[simp] theorem hostSetInput_node (l : List Byte) (s : State) : (hostSetInput l s).node = s.node := rfl
@[simp] theorem hostSetInput_ncount (l : List Byte) (s : State) : (hostSetInput l s).ncount = s.ncount := rfl
@[simp] theorem hostSetInput_nleaf (l : List Byte) (s : State) : (hostSetInput l s).nleaf = s.nleaf := rfl
@[simp] theorem hostSetInput_root (l : List Byte) (s : State) : (hostSetInput l s).root = s.root := rfl
@[simp] theorem hostSetInput_leaflist (l : List Byte) (s : State) : (hostSetInput l s).leaflist = s.leaflist := rfl
@[simp] theorem hostSetInput_work (l : List Byte) (s : State) : (hostSetInput l s).work = s.work := rfl
@[simp] theorem hostSetInput_dict (l : List Byte) (s : State) : (hostSetInput l s).dict = s.dict := rfl
@[simp] theorem hostSetInput_hdrN (l : List Byte) (s : State) : (hostSetInput l s).hdrN = s.hdrN := rfl
@[simp] theorem hostSetInput_hdrW (l : List Byte) (s : State) : (hostSetInput l s).hdrW = s.hdrW := rfl
@[simp] theorem hostSetInput_buf (l : List Byte) (s : State) : (hostSetInput l s).buf = s.buf := rfl
@[simp] theorem hostSetInput_bitlen (l : List Byte) (s : State) : (hostSetInput l s).bitlen = s.bitlen := rfl
@[simp] theorem hostSetInput_cur (l : List Byte) (s : State) : (hostSetInput l s).cur = s.cur := rfl
@[simp] theorem hostSetInput_remain (l : List Byte) (s : State) : (hostSetInput l s).remain = s.remain := rfl
@[simp] theorem hostSetInput_shift (l : List Byte) (s : State) : (hostSetInput l s).shift = s.shift := rfl
@[simp] theorem hostSetInput_bitpos (l : List Byte) (s : State) : (hostSetInput l s).bitpos = s.bitpos := rfl
@[simp] theorem hostSetInput_inp (l : List Byte) (s : State) : (hostSetInput l s).inp = ⟨l, 0⟩ := rfl
@[simp] theorem hostSetInput_out (l : List Byte) (s : State) : (hostSetInput l s).out = s.out := rfl
@[simp] theorem hostSetInput_accesses (l : List Byte) (s : State) : (hostSetInput l s).accesses = s.accesses := rfl
@[simp] theorem hostSetInput_pending (l : List Byte) (s : State) : (hostSetInput l s).pending = s.pending := rfl
@[simp] theorem hostSetInput_replies (l : List Byte) (s : State) : (hostSetInput l s).replies = s.replies := rfl

/-! ### hostRewind -/

@[simp] theorem hostRewind_phase (s : State) : (hostRewind s).phase = s.phase := rfl
@[simp] theorem hostRewind_err (s : State) : (hostRewind s).err = s.err := rfl
@[simp] theorem hostRewind_errinfo (s : State) : (hostRewind s).errinfo = s.errinfo := rfl
@[simp] theorem hostRewind_fv (s : State) : (hostRewind s).fv = s.fv := rfl
@[simp] theorem hostRewind_tv (s : State) : (hostRewind s).tv = s.tv := rfl
@[simp] theorem hostRewind_dv (s : State) : (hostRewind s).dv = s.dv := rfl
@[simp] theorem hostRewind_freq (s : State) : (hostRewind s).freq = s.freq := rfl
@[simp] theorem hostRewind_node (s : State) : (hostRewind s).node = s.node := rfl
@[simp] theorem hostRewind_ncount (s : State) : (hostRewind s).ncount = s.ncount := rfl
@[simp] theorem hostRewind_nleaf (s : State) : (hostRewind s).nleaf = s.nleaf := rfl
@[simp] theorem hostRewind_root (s : State) : (hostRewind s).root = s.root := rfl
@[simp] theorem hostRewind_leaflist (s : State) : (hostRewind s).leaflist = s.leaflist := rfl
@[simp] theorem hostRewind_work (s : State) : (hostRewind s).work = s.work := rfl
@[simp] theorem hostRewind_dict (s : State) : (hostRewind s).dict = s.dict := rfl
@[simp] theorem hostRewind_hdrN (s : State) : (hostRewind s).hdrN = s.hdrN := rfl
@[simp] theorem hostRewind_hdrW (s : State) : (hostRewind s).hdrW = s.hdrW := rfl
@[simp] theorem hostRewind_buf (s : State) : (hostRewind s).buf = s.buf := rfl
@[simp] theorem hostRewind_bitlen (s : State) : (hostRewind s).bitlen = s.bitlen := rfl
@[simp] theorem hostRewind_cur (s : State) : (hostRewind s).cur = s.cur := rfl
@[simp] theorem hostRewind_remain (s : State) : (hostRewind s).remain = s.remain := rfl
@[simp] theorem hostRewind_shift (s : State) : (hostRewind s).shift = s.shift := rfl
@[simp] theorem hostRewind_bitpos (s : State) : (hostRewind s).bitpos = s.bitpos := rfl
@[simp] theorem hostRewind_inp (s : State) : (hostRewind s).inp = ⟨s.inp.data, 0⟩ := rfl
@[simp] theorem hostRewind_out (s : State) : (hostRewind s).out = s.out := rfl
@[simp] theorem hostRewind_accesses (s : State) : (hostRewind s).accesses = s.accesses := rfl
@[simp] theorem hostRewind_pending (s : State) : (hostRewind s).pending = s.pending := rfl
@[simp] theorem hostRewind_replies (s : State) : (hostRewind s).replies = s.replies := rfl

/-! ### hostTakeOutput -/

@[simp] theorem hostTakeOutput_phase (s : State) : (hostTakeOutput s).phase = s.phase := rfl
@[simp] theorem hostTakeOutput_err (s : State) : (hostTakeOutput s).err = s.err := rfl
@[simp] theorem hostTakeOutput_errinfo (s : State) : (hostTakeOutput s).errinfo = s.errinfo := rfl
@[simp] theorem hostTakeOutput_fv (s : State) : (hostTakeOutput s).fv = s.fv := rfl
@[simp] theorem hostTakeOutput_tv (s : State) : (hostTakeOutput s).tv = s.tv := rfl
@[simp] theorem hostTakeOutput_dv (s : State) : (hostTakeOutput s).dv = s.dv := rfl
@[simp] theorem hostTakeOutput_freq (s : State) : (hostTakeOutput s).freq = s.freq := rfl
@[simp] theorem hostTakeOutput_node (s : State) : (hostTakeOutput s).node = s.node := rfl
@[simp] theorem hostTakeOutput_ncount (s : State) : (hostTakeOutput s).ncount = s.ncount := rfl
@[simp] theorem hostTakeOutput_nleaf (s : State) : (hostTakeOutput s).nleaf = s.nleaf := rfl
@[simp] theorem hostTakeOutput_root (s : State) : (hostTakeOutput s).root = s.root := rfl
@[simp] theorem hostTakeOutput_leaflist (s : State) : (hostTakeOutput s).leaflist = s.leaflist := rfl
@[simp] theorem hostTakeOutput_work (s : State) : (hostTakeOutput s).work = s.work := rfl
@[simp] theorem hostTakeOutput_dict (s : State) : (hostTakeOutput s).dict = s.dict := rfl
@[simp] theorem hostTakeOutput_hdrN (s : State) : (hostTakeOutput s).hdrN = s.hdrN := rfl
@[simp] theorem hostTakeOutput_hdrW (s : State) : (hostTakeOutput s).hdrW = s.hdrW := rfl
@[simp] theorem hostTakeOutput_buf (s : State) : (hostTakeOutput s).buf = s.buf := rfl
@[simp] theorem hostTakeOutput_bitlen (s : State) : (hostTakeOutput s).bitlen = s.bitlen := rfl
@[simp] theorem hostTakeOutput_cur (s : State) : (hostTakeOutput s).cur = s.cur := rfl
@[simp] theorem hostTakeOutput_remain (s : State) : (hostTakeOutput s).remain = s.remain := rfl
@[simp] theorem hostTakeOutput_shift (s : State) : (hostTakeOutput s).shift = s.shift := rfl
@[simp] theorem hostTakeOutput_bitpos (s : State) : (hostTakeOutput s).bitpos = s.bitpos := rfl
@[simp] theorem hostTakeOutput_inp (s : State) : (hostTakeOutput s).inp = s.inp := rfl
@[simp] theorem hostTakeOutput_out (s : State) : (hostTakeOutput s).out = [] := rfl
@[simp] theorem hostTakeOutput_accesses (s : State) : (hostTakeOutput s).accesses = s.accesses := rfl
@[simp] theorem hostTakeOutput_pending (s : State) : (hostTakeOutput s).pending = s.pending := rfl
@[simp] theorem hostTakeOutput_replies (s : State) : (hostTakeOutput s).replies = s.replies ++ [.taken s.out] := rfl

/-! ### hostTruncateOutput -/

@[simp] theorem hostTruncateOutput_phase (n : Nat) (s : State) : (hostTruncateOutput n s).phase = s.phase := rfl
@[simp] theorem hostTruncateOutput_err (n : Nat) (s : State) : (hostTruncateOutput n s).err = s.err := rfl
@[simp] theorem hostTruncateOutput_errinfo (n : Nat) (s : State) : (hostTruncateOutput n s).errinfo = s.errinfo := rfl
@[simp] theorem hostTruncateOutput_fv (n : Nat) (s : State) : (hostTruncateOutput n s).fv = s.fv := rfl
@[simp] theorem hostTruncateOutput_tv (n : Nat) (s : State) : (hostTruncateOutput n s).tv = s.tv := rfl
@[simp] theorem hostTruncateOutput_dv (n : Nat) (s : State) : (hostTruncateOutput n s).dv = s.dv := rfl
@[simp] theorem hostTruncateOutput_freq (n : Nat) (s : State) : (hostTruncateOutput n s).freq = s.freq := rfl
@[simp] theorem hostTruncateOutput_node (n : Nat) (s : State) : (hostTruncateOutput n s).node = s.node := rfl
@[simp] theorem hostTruncateOutput_ncount (n : Nat) (s : State) : (hostTruncateOutput n s).ncount = s.ncount := rfl
@[simp] theorem hostTruncateOutput_nleaf (n : Nat) (s : State) : (hostTruncateOutput n s).nleaf = s.nleaf := rfl
@[simp] theorem hostTruncateOutput_root (n : Nat) (s : State) : (hostTruncateOutput n s).root = s.root := rfl
@[simp] theorem hostTruncateOutput_leaflist (n : Nat) (s : State) : (hostTruncateOutput n s).leaflist = s.leaflist := rfl
@[simp] theorem hostTruncateOutput_work (n : Nat) (s : State) : (hostTruncateOutput n s).work = s.work := rfl
@[simp] theorem hostTruncateOutput_dict (n : Nat) (s : State) : (hostTruncateOutput n s).dict = s.dict := rfl
@[simp] theorem hostTruncateOutput_hdrN (n : Nat) (s : State) : (hostTruncateOutput n s).hdrN = s.hdrN := rfl
@[simp] theorem hostTruncateOutput_hdrW (n : Nat) (s : State) : (hostTruncateOutput n s).hdrW = s.hdrW := rfl
@[simp] theorem hostTruncateOutput_buf (n : Nat) (s : State) : (hostTruncateOutput n s).buf = s.buf := rfl
@[simp] theorem hostTruncateOutput_bitlen (n : Nat) (s : State) : (hostTruncateOutput n s).bitlen = s.bitlen := rfl
@[simp] theorem hostTruncateOutput_cur (n : Nat) (s : State) : (hostTruncateOutput n s).cur = s.cur := rfl
@[simp] theorem hostTruncateOutput_remain (n : Nat) (s : State) : (hostTruncateOutput n s).remain = s.remain := rfl
@[simp] theorem hostTruncateOutput_shift (n : Nat) (s : State) : (hostTruncateOutput n s).shift = s.shift := rfl
@[simp] theorem hostTruncateOutput_bitpos (n : Nat) (s : State) : (hostTruncateOutput n s).bitpos = s.bitpos := rfl
@[simp] theorem hostTruncateOutput_inp (n : Nat) (s : State) : (hostTruncateOutput n s).inp = s.inp := rfl
@[simp] theorem hostTruncateOutput_out (n : Nat) (s : State) : (hostTruncateOutput n s).out = s.out.take n := rfl
@[simp] theorem hostTruncateOutput_accesses (n : Nat) (s : State) : (hostTruncateOutput n s).accesses = s.accesses := rfl
@[simp] theorem hostTruncateOutput_pending (n : Nat) (s : State) : (hostTruncateOutput n s).pending = s.pending := rfl
@[simp] theorem hostTruncateOutput_replies (n : Nat) (s : State) : (hostTruncateOutput n s).replies = s.replies := rfl

/-! ### placeWord -/

@[simp] theorem placeWord_phase (w : Byte) (s : State) : (placeWord w s).phase = s.phase := rfl
@[simp] theorem placeWord_err (w : Byte) (s : State) : (placeWord w s).err = s.err := rfl
@[simp] theorem placeWord_errinfo (w : Byte) (s : State) : (placeWord w s).errinfo = s.errinfo := rfl
@[simp] theorem placeWord_fv (w : Byte) (s : State) : (placeWord w s).fv = s.fv := rfl
@[simp] theorem placeWord_tv (w : Byte) (s : State) : (placeWord w s).tv = s.tv := rfl
@[simp] theorem placeWord_dv (w : Byte) (s : State) : (placeWord w s).dv = s.dv := rfl
@[simp] theorem placeWord_freq (w : Byte) (s : State) : (placeWord w s).freq = s.freq := rfl
@[simp] theorem placeWord_node (w : Byte) (s : State) : (placeWord w s).node = s.node := rfl
@[simp] theorem placeWord_ncount (w : Byte) (s : State) : (placeWord w s).ncount = s.ncount := rfl
@[simp] theorem placeWord_nleaf (w : Byte) (s : State) : (placeWord w s).nleaf = s.nleaf := rfl
@[simp] theorem placeWord_root (w : Byte) (s : State) : (placeWord w s).root = s.root := rfl
@[simp] theorem placeWord_leaflist (w : Byte) (s : State) : (placeWord w s).leaflist = s.leaflist := rfl
@[simp] theorem placeWord_work (w : Byte) (s : State) : (placeWord w s).work = s.work := rfl
@[simp] theorem placeWord_dict (w : Byte) (s : State) : (placeWord w s).dict = s.dict := rfl
@[simp] theorem placeWord_hdrN (w : Byte) (s : State) : (placeWord w s).hdrN = s.hdrN := rfl
@[simp] theorem placeWord_hdrW (w : Byte) (s : State) : (placeWord w s).hdrW = s.hdrW := rfl
@[simp] theorem placeWord_buf (w : Byte) (s : State) : (placeWord w s).buf = s.buf := rfl
@[simp] theorem placeWord_bitlen (w : Byte) (s : State) : (placeWord w s).bitlen = s.bitlen := rfl
@[simp] theorem placeWord_cur (w : Byte) (s : State) : (placeWord w s).cur = s.cur := rfl
@[simp] theorem placeWord_remain (w : Byte) (s : State) : (placeWord w s).remain = s.remain := rfl
@[simp] theorem placeWord_shift (w : Byte) (s : State) : (placeWord w s).shift = s.shift := rfl
@[simp] theorem placeWord_bitpos (w : Byte) (s : State) : (placeWord w s).bitpos = s.bitpos := rfl
@[simp] theorem placeWord_inp (w : Byte) (s : State) : (placeWord w s).inp = s.inp := rfl
@[simp] theorem placeWord_out (w : Byte) (s : State) : (placeWord w s).out = s.out := rfl
@[simp] theorem placeWord_accesses (w : Byte) (s : State) : (placeWord w s).accesses = s.accesses := rfl
@[simp] theorem placeWord_pending (w : Byte) (s : State) : (placeWord w s).pending = .command w :: s.pending := rfl
@[simp] theorem placeWord_replies (w : Byte) (s : State) : (placeWord w s).replies = s.replies := rfl

end Sys2Proof.Machine
end

