-- ==== Sys2Proof/Laws/Run.lean ====
section
/-! SUPPORT. What the shared operations of Machine/Ops.lean can answer: the loop (its invariant rule, once), a part that follows
another, the precondition check, the acceptance of a command. Later proofs cite these and unfold none of them. -/

namespace Sys2Proof.Machine

/-! ### andThen -/

@[simp] theorem andThen_done (s : State) (k : State → Run) : (Run.done s).andThen k = k s := rfl
@[simp] theorem andThen_raised (s : State) (k : State → Run) : (Run.raised s).andThen k = .raised s := rfl
@[simp] theorem andThen_stuck (f : Fault) (k : State → Run) : (Run.stuck f).andThen k = .stuck f := rfl

theorem andThen_eq_done {r : Run} {k : State → Run} {t : State} (h : r.andThen k = .done t) :
    ∃ s, r = .done s ∧ k s = .done t := by
  cases r with
  | done s => exact ⟨s, rfl, h⟩
  | raised s => simp at h
  | stuck f => simp at h

theorem andThen_eq_raised {r : Run} {k : State → Run} {t : State} (h : r.andThen k = .raised t) :
    r = .raised t ∨ ∃ s, r = .done s ∧ k s = .raised t := by
  cases r with
  | done s => exact .inr ⟨s, rfl, h⟩
  | raised s => simp at h; exact .inl (by rw [h])
  | stuck f => simp at h

theorem andThen_eq_stuck {r : Run} {k : State → Run} {f : Fault} (h : r.andThen k = .stuck f) :
    r = .stuck f ∨ ∃ s, r = .done s ∧ k s = .stuck f := by
  cases r with
  | done s => exact .inr ⟨s, rfl, h⟩
  | raised s => simp at h
  | stuck f' => simp at h; exact .inl (by rw [h])

theorem andThen_assoc (r : Run) (k l : State → Run) :
    (r.andThen k).andThen l = r.andThen fun s => (k s).andThen l := by
  cases r <;> rfl

/-! ### A property of every state a part may end in -/

/-- `r` ends, by its end or by a raise, in a state with `P`; a stop of the model says nothing. -/
def Run.All (P : State → Prop) : Run → Prop
  | .done s => P s
  | .raised s => P s
  | .stuck _ => True

/-- One pass goes on or ends in a state with `P`. -/
def Iter.All (P : State → Prop) : Iter → Prop
  | .again s => P s
  | .exit s => P s
  | .raised s => P s
  | .stuck _ => True

@[simp] theorem Run.All_done (P : State → Prop) (s : State) : (Run.done s).All P = P s := rfl
@[simp] theorem Run.All_raised (P : State → Prop) (s : State) : (Run.raised s).All P = P s := rfl
@[simp] theorem Run.All_stuck (P : State → Prop) (f : Fault) : (Run.stuck f).All P = True := rfl
@[simp] theorem Iter.All_again (P : State → Prop) (s : State) : (Iter.again s).All P = P s := rfl
@[simp] theorem Iter.All_exit (P : State → Prop) (s : State) : (Iter.exit s).All P = P s := rfl
@[simp] theorem Iter.All_raised (P : State → Prop) (s : State) : (Iter.raised s).All P = P s := rfl
@[simp] theorem Iter.All_stuck (P : State → Prop) (f : Fault) : (Iter.stuck f).All P = True := rfl

theorem Run.All.imp {P Q : State → Prop} {r : Run} (h : r.All P) (hPQ : ∀ s, P s → Q s) : r.All Q := by
  cases r
  · exact hPQ _ h
  · exact hPQ _ h
  · trivial

theorem Run.All.andThen {P Q : State → Prop} {r : Run} {k : State → Run} (h : r.All P) (hd : ∀ s, P s → (k s).All Q)
    (hr : ∀ s, P s → Q s) : (r.andThen k).All Q := by
  cases r
  · exact hd _ h
  · exact hr _ h
  · trivial

/-- What every pass keeps, every loop keeps. -/
theorem loop_all {P : State → Prop} {body : State → Iter} (h : ∀ s, P s → (body s).All P) :
    ∀ n s, P s → (loop body n s).All P := by
  intro n
  induction n with
  | zero => intro s _; trivial
  | succ n ih =>
    intro s hs
    have hb := h s hs
    rw [loop]
    cases hbs : body s with
    | again s' => rw [hbs] at hb; exact ih s' hb
    | exit s' => rw [hbs] at hb; exact hb
    | raised s' => rw [hbs] at hb; exact hb
    | stuck f => trivial

/-! ### The loop -/

/-- THE LOOP RULE: an invariant that every pass keeps, and a measure that every pass lowers and the bound exceeds. The loop then
ends where one pass of it, from a state of the invariant, ends; the bound is never passed. -/
theorem loop_rule {body : State → Iter} {I : State → Prop} {m : State → Nat}
    (hagain : ∀ s s', I s → body s = .again s' → I s' ∧ m s' < m s) :
    ∀ n s, I s → m s < n →
      (∃ u t, I u ∧ body u = .exit t ∧ loop body n s = .done t) ∨
      (∃ u t, I u ∧ body u = .raised t ∧ loop body n s = .raised t) ∨
      (∃ u f, I u ∧ body u = .stuck f ∧ loop body n s = .stuck f) := by
  intro n
  induction n with
  | zero => intro s _ h; omega
  | succ n ih =>
    intro s hs hm
    rw [loop]
    cases hb : body s with
    | again s' =>
      obtain ⟨hI, hlt⟩ := hagain s s' hs hb
      exact ih s' hI (by omega)
    | exit s' => exact .inl ⟨s, s', hs, hb, rfl⟩
    | raised s' => exact .inr (.inl ⟨s, s', hs, hb, rfl⟩)
    | stuck f => exact .inr (.inr ⟨s, f, hs, hb, rfl⟩)

theorem loop_of_again {body : State → Iter} {s s' : State} (h : body s = .again s') (n : Nat) :
    loop body (n + 1) s = loop body n s' := by rw [loop, h]

theorem loop_of_exit {body : State → Iter} {s s' : State} (h : body s = .exit s') (n : Nat) :
    loop body (n + 1) s = .done s' := by rw [loop, h]

theorem loop_of_raised {body : State → Iter} {s s' : State} (h : body s = .raised s') (n : Nat) :
    loop body (n + 1) s = .raised s' := by rw [loop, h]

/-! ### require, finish, accept -/

theorem require_true (w : Byte) (body : State → Run) (s : State) : require true w body s = body s := rfl

theorem require_false (w : Byte) (body : State → Run) (s : State) :
    require false w body s = .raised (raise .badCommand w s) := rfl

theorem accept_idle {s : State} (h : s.phase = .idle) (body : State → Run) :
    accept body s = finish (body { s with phase := .busy }) := by simp only [accept, h]

theorem accept_fault {s : State} (h : s.phase = .fault) (body : State → Run) : accept body s = .next s := by
  simp only [accept, h]

theorem accept_busy {s : State} (h : s.phase = .busy) (body : State → Run) :
    accept body s = .refused .cmdNotReady := by simp only [accept, h]

/-- What an accepted command can answer when it answers a next state. -/
theorem accept_next {body : State → Run} {s t : State} (h : accept body s = .next t) :
    (s.phase = .fault ∧ t = s) ∨
    (s.phase = .idle ∧ ∃ u, body { s with phase := .busy } = .done u ∧ t = { u with phase := .idle }) ∨
    (s.phase = .idle ∧ body { s with phase := .busy } = .raised t) := by
  cases hp : s.phase with
  | idle =>
    rw [accept_idle hp] at h
    cases hb : body { s with phase := .busy } with
    | done u => rw [hb] at h; simp only [finish, Host.Outcome.next.injEq] at h; exact .inr (.inl ⟨rfl, u, rfl, h.symm⟩)
    | raised u => rw [hb] at h; simp only [finish, Host.Outcome.next.injEq] at h; exact .inr (.inr ⟨rfl, by rw [h]⟩)
    | stuck f => rw [hb] at h; simp [finish] at h
  | busy => rw [accept_busy hp] at h; simp at h
  | fault => rw [accept_fault hp] at h; simp only [Host.Outcome.next.injEq] at h; exact .inl ⟨rfl, h.symm⟩

/-- A property that the body keeps and that does not look at PHASE holds of every next state an accepted command answers. -/
theorem accept_all {P : State → Prop} {body : State → Run} {s t : State} (h : accept body s = .next t) (hs : P s)
    (hphase : ∀ u p, P u → P { u with phase := p }) (hb : ∀ u, P u → (body u).All P) : P t := by
  rcases accept_next h with ⟨-, rfl⟩ | ⟨-, u, hu, rfl⟩ | ⟨-, hu⟩
  · exact hs
  · have := hb _ (hphase s .busy hs); rw [hu] at this; exact hphase u .idle this
  · have := hb _ (hphase s .busy hs); rw [hu] at this; exact this

end Sys2Proof.Machine
end

