-- ==== Sys2Proof/Laws/Streams.lean ====
section
/-! SUPPORT. What the stream primitives do (spec/20_memory.md R61, R63), in closed form, and that a history of accesses is what moved
the streams. -/

namespace Sys2Proof.Machine

/-! ### InRead -/

theorem left_eq_length_rest (i : InStream) : i.left = i.rest.length := by
  simp [InStream.left, InStream.rest]

/-- At the end of IN, EOF (R61). -/
theorem inRead_eof {s : State} (h : s.inp.rest = []) : inRead s = none := by
  have : s.inp.data.length ≤ s.inp.pos := by simpa [InStream.rest] using h
  simp [inRead, List.getElem?_eq_none this]

/-- Before the end, the next byte, and IN.pos one further (R61). -/
theorem inRead_byte {s : State} {b : Byte} {l : List Byte} (h : s.inp.rest = b :: l) :
    inRead s = some (b, tookByte b s) := by
  have hb : s.inp.data[s.inp.pos]? = some b := by
    have := congrArg (fun l => l[0]?) h
    simpa [InStream.rest] using this
  simp only [inRead, hb]

theorem rest_after {i : InStream} {b : Byte} {l : List Byte} (h : i.rest = b :: l) :
    InStream.rest ⟨i.data, i.pos + 1⟩ = l := by
  have : i.data.drop (i.pos + 1) = (i.data.drop i.pos).drop 1 := by rw [List.drop_drop]
  simp only [InStream.rest] at *
  rw [this, h, List.drop_one, List.tail_cons]

theorem rest_tookByte {s : State} {b : Byte} {l : List Byte} (h : s.inp.rest = b :: l) :
    (tookByte b s).inp.rest = l := by
  rw [tookByte_inp]; exact rest_after h

/-- What `InRead` can answer. -/
theorem inRead_cases (s : State) :
    (s.inp.rest = [] ∧ inRead s = none) ∨
    ∃ b l, s.inp.rest = b :: l ∧ inRead s = some (b, tookByte b s) := by
  cases h : s.inp.rest with
  | nil => exact .inl ⟨rfl, inRead_eof h⟩
  | cons b l => exact .inr ⟨b, l, rfl, inRead_byte h⟩

/-! ### OutWrite -/

/-- Writing a sequence of bytes appends it (R63). -/
theorem outWriteAll_eq (bs : List Byte) : ∀ s : State,
    outWriteAll bs s = { s with out := s.out ++ bs, accesses := s.accesses ++ bs.map .write } := by
  induction bs with
  | nil => intro s; simp [outWriteAll]
  | cons b bs ih => intro s; rw [outWriteAll, ih]; simp [outWrite]

theorem outWriteAll_append (a b : List Byte) (s : State) :
    outWriteAll (a ++ b) s = outWriteAll b (outWriteAll a s) := by
  rw [outWriteAll_eq, outWriteAll_eq, outWriteAll_eq]; simp

/-! ### Histories -/

@[simp] theorem readBytes_append (a b : List StreamAccess) : readBytes (a ++ b) = readBytes a ++ readBytes b := by
  induction a with
  | nil => rfl
  | cons x a ih => cases x <;> simp [readBytes, ih]

@[simp] theorem writtenBytes_append (a b : List StreamAccess) :
    writtenBytes (a ++ b) = writtenBytes a ++ writtenBytes b := by
  induction a with
  | nil => rfl
  | cons x a ih => cases x <;> simp [writtenBytes, ih]

@[simp] theorem readBytes_writes (l : List Byte) : readBytes (l.map .write) = [] := by
  induction l with
  | nil => rfl
  | cons x a ih => simp [readBytes, ih]

@[simp] theorem writtenBytes_writes (l : List Byte) : writtenBytes (l.map .write) = l := by
  induction l with
  | nil => rfl
  | cons x a ih => simp [writtenBytes, ih]

@[simp] theorem readBytes_reads (l : List Byte) : readBytes (l.map .read) = l := by
  induction l with
  | nil => rfl
  | cons x a ih => simp [readBytes, ih]

@[simp] theorem writtenBytes_reads (l : List Byte) : writtenBytes (l.map .read) = [] := by
  induction l with
  | nil => rfl
  | cons x a ih => simp [writtenBytes, ih]

/-- Replaying accesses moves the streams by them and changes nothing else. -/
theorem replay_eq (as : List StreamAccess) : ∀ s : State,
    replay as s = { s with
      inp := ⟨s.inp.data, s.inp.pos + (readBytes as).length⟩
      out := s.out ++ writtenBytes as
      accesses := s.accesses ++ as } := by
  induction as with
  | nil => intro s; simp [replay, readBytes, writtenBytes]
  | cons a as ih =>
    intro s
    cases a with
    | read b => rw [replay, ih]; simp [readBytes, writtenBytes, tookByte]; omega
    | write b => rw [replay, ih]; simp [readBytes, writtenBytes, outWrite]

/-! ### StreamsMovedBy -/

theorem StreamsMovedBy.refl (s : State) : StreamsMovedBy [] s s := by
  simp [StreamsMovedBy, readBytes, writtenBytes]

/-- Two states with the same streams are moved to alike. -/
theorem StreamsMovedBy.congr {as : List StreamAccess} {s t t' : State} (h : StreamsMovedBy as s t)
    (hi : t'.inp = t.inp) (ho : t'.out = t.out) (ha : t'.accesses = t.accesses) : StreamsMovedBy as s t' := by
  simpa only [StreamsMovedBy, hi, ho, ha] using h

theorem StreamsMovedBy.trans {as bs : List StreamAccess} {s t u : State} (h1 : StreamsMovedBy as s t)
    (h2 : StreamsMovedBy bs t u) : StreamsMovedBy (as ++ bs) s u := by
  obtain ⟨a1, d1, r1, p1, o1⟩ := h1
  obtain ⟨a2, d2, r2, p2, o2⟩ := h2
  refine ⟨by rw [a2, a1, List.append_assoc], by rw [d2, d1], ?_, ?_, ?_⟩
  · rw [readBytes_append]
    obtain ⟨x, hx⟩ := r1
    have : t.inp.rest = x := by
      simp only [InStream.rest] at *
      rw [d1, p1, ← List.drop_drop, ← hx, List.drop_left]
    rw [this] at r2
    obtain ⟨y, hy⟩ := r2
    exact ⟨y, by rw [← hx, ← hy, List.append_assoc]⟩
  · rw [p2, p1, readBytes_append, List.length_append]; omega
  · rw [o2, o1, writtenBytes_append, List.append_assoc]

theorem streamsMovedBy_inRead {s : State} {b : Byte} {s' : State} (h : inRead s = some (b, s')) :
    StreamsMovedBy [.read b] s s' := by
  rcases inRead_cases s with ⟨-, hn⟩ | ⟨b', l, hr, hs⟩
  · rw [hn] at h; simp at h
  · rw [hs] at h
    simp only [Option.some.injEq, Prod.mk.injEq] at h
    obtain ⟨rfl, rfl⟩ := h
    simp [StreamsMovedBy, readBytes, writtenBytes, hr]

theorem streamsMovedBy_outWrite (b : Byte) (s : State) : StreamsMovedBy [.write b] s (outWrite b s) := by
  simp [StreamsMovedBy, readBytes, writtenBytes]

theorem streamsMovedBy_outWriteAll (bs : List Byte) (s : State) :
    StreamsMovedBy (bs.map .write) s (outWriteAll bs s) := by
  simp [StreamsMovedBy, outWriteAll_eq]

/-- A history that moved IN leaves its position inside the data. -/
theorem StreamsMovedBy.pos_le {as : List StreamAccess} {s t : State} (h : StreamsMovedBy as s t)
    (hs : s.inp.pos ≤ s.inp.data.length) : t.inp.pos ≤ t.inp.data.length := by
  obtain ⟨-, d, r, p, -⟩ := h
  have := r.length_le
  rw [d, p]
  simp only [InStream.rest, List.length_drop] at this
  omega

end Sys2Proof.Machine
end

