-- ==== Sys2Proof/Laws/Tables.lean ====
section
/-! SUPPORT. What the reads and writes of the tables do (Machine/Operands.lean): a read after a write gives the value written, a
write leaves every other entry alone, and the sorted insertion of spec/41_tree_builder.md R131. -/

namespace Sys2Proof.Machine

/-! ### The symbols -/

@[simp] theorem length_symbols : symbols.length = 256 := by simp [symbols]

theorem mem_symbols (b : Byte) : b ∈ symbols := by
  simp only [symbols, List.mem_map, List.mem_range]
  exact ⟨b.toNat, b.isLt, by simp⟩

theorem symbols_sorted : symbols.Pairwise (· < ·) := by
  simp only [symbols, List.pairwise_map]
  refine List.pairwise_lt_range.imp_of_mem ?_
  intro a b ha hb h
  have ha := List.mem_range.1 ha
  have hb := List.mem_range.1 hb
  rw [BitVec.lt_def, BitVec.toNat_ofNat, BitVec.toNat_ofNat]
  omega

theorem symbols_nodup : symbols.Nodup := symbols_sorted.imp fun h => by
  intro he; rw [he] at h; exact absurd h (BitVec.lt_irrefl _)

/-! ### FREQ -/

theorem freqAt_setFreq (s : State) (b c : Byte) (v : Count) :
    freqAt (setFreq s b v) c = if c = b then v else freqAt s c := by
  simp only [freqAt, setFreq, Vector.getElem_set]
  by_cases h : c = b
  · simp [h]
  · have : b.toNat ≠ c.toNat := fun he => h (BitVec.eq_of_toNat_eq he.symm)
    simp [h, this]

@[simp] theorem freqAt_setFreq_same (s : State) (b : Byte) (v : Count) : freqAt (setFreq s b v) b = v := by
  simp [freqAt_setFreq]

theorem freqAt_setFreq_other (s : State) {b c : Byte} (v : Count) (h : c ≠ b) :
    freqAt (setFreq s b v) c = freqAt s c := by
  simp [freqAt_setFreq, h]

@[simp] theorem freqAt_clearFreq (s : State) (b : Byte) : freqAt (clearFreq s) b = 0#64 := by
  simp [freqAt]

/-- A table is its 256 bins. -/
theorem freq_ext {f g : Vector Count 256} (h : ∀ b : Byte, f[b.toNat]'(b.isLt) = g[b.toNat]'(b.isLt)) : f = g := by
  apply Vector.ext
  intro i hi
  have := h (BitVec.ofNat 8 i)
  simpa [Nat.mod_eq_of_lt hi] using this

theorem freqAt_congr {s t : State} (h : t.freq = s.freq) (b : Byte) : freqAt t b = freqAt s b := by
  simp only [freqAt, h]

/-! ### DICT -/

theorem dictAt_setDict (s : State) (b c : Byte) (e : DictEntry) :
    dictAt (setDict s b e) c = if c = b then e else dictAt s c := by
  simp only [dictAt, setDict, Vector.getElem_set]
  by_cases h : c = b
  · simp [h]
  · have : b.toNat ≠ c.toNat := fun he => h (BitVec.eq_of_toNat_eq he.symm)
    simp [h, this]

@[simp] theorem dictAt_setDict_same (s : State) (b : Byte) (e : DictEntry) : dictAt (setDict s b e) b = e := by
  simp [dictAt_setDict]

theorem invalidated_eq (d : Vector DictEntry 256) : invalidated d = d.map fun e => { e with valid := false } := by
  apply Vector.toArray_inj.1
  apply Array.toList_inj.1
  simp [invalidated]
  rfl

theorem invalidated_invalidated (d : Vector DictEntry 256) : invalidated (invalidated d) = invalidated d := by
  simp [invalidated_eq]

@[simp] theorem dictAt_invalidateEntries (s : State) (b : Byte) :
    dictAt (invalidateEntries s) b = { dictAt s b with valid := false } := by
  simp [dictAt, invalidated_eq]

theorem dictAt_congr {s t : State} (h : t.dict = s.dict) (b : Byte) : dictAt t b = dictAt s b := by
  simp only [dictAt, h]

/-! ### NODE -/

@[simp] theorem toNat_nil : Config.nil.toNat = 511 := rfl

/-- No node is at NIL. -/
@[simp] theorem nodeAt_nil (nodes : Vector Node 511) : nodeAt nodes Config.nil = Node.blank := by
  simp [nodeAt]

theorem ne_nil_of_lt {i : NodeIx} (h : i.toNat < 511) : i ≠ Config.nil := by
  intro he; rw [he] at h; simp at h

theorem toNat_lt_of_ne_nil {i : NodeIx} (h : i ≠ Config.nil) : i.toNat < 511 := by
  have := i.isLt
  have : i.toNat ≠ 511 := fun he => h (BitVec.eq_of_toNat_eq (by simpa using he))
  omega

theorem nodeAt_set (nodes : Vector Node 511) (k : Nat) (n : Node) (i : NodeIx) (hk : k < 511) :
    nodeAt (nodes.setIfInBounds k n) i = if i.toNat = k then n else nodeAt nodes i := by
  by_cases h : i.toNat = k
  · subst h; simp [nodeAt, hk]
  · have h' : k ≠ i.toNat := fun e => h e.symm
    simp [nodeAt, h, Vector.getElem?_setIfInBounds_ne, h']

theorem nodeAt_set_same (nodes : Vector Node 511) (i : NodeIx) (n : Node) (h : i.toNat < 511) :
    nodeAt (nodes.setIfInBounds i.toNat n) i = n := by
  rw [nodeAt_set _ _ _ _ h]; simp

theorem nodeAt_set_other (nodes : Vector Node 511) (k : Nat) (n : Node) {i : NodeIx} (h : i.toNat ≠ k) :
    nodeAt (nodes.setIfInBounds k n) i = nodeAt nodes i := by
  have h' : k ≠ i.toNat := fun e => h e.symm
  simp [nodeAt, Vector.getElem?_setIfInBounds_ne, h']

/-! ### WORK: Insert (R131) -/

/-- `Insert` puts the index before the first element with a strictly smaller frequency. -/
theorem insertWork_eq (nodes : Vector Node 511) (i : NodeIx) (l : List NodeIx) :
    insertWork nodes i l =
      l.takeWhile (fun j => !((nodeAt nodes j).freq < (nodeAt nodes i).freq)) ++
        i :: l.dropWhile (fun j => !((nodeAt nodes j).freq < (nodeAt nodes i).freq)) := by
  induction l with
  | nil => rfl
  | cons j l ih =>
    rw [insertWork]
    by_cases h : (nodeAt nodes j).freq < (nodeAt nodes i).freq
    · simp [h]
    · simp [h, ih]

theorem insertWork_perm (nodes : Vector Node 511) (i : NodeIx) (l : List NodeIx) :
    (insertWork nodes i l).Perm (i :: l) := by
  rw [insertWork_eq]
  refine List.perm_middle.trans ?_
  rw [List.takeWhile_append_dropWhile]

@[simp] theorem length_insertWork (nodes : Vector Node 511) (i : NodeIx) (l : List NodeIx) :
    (insertWork nodes i l).length = l.length + 1 := by
  simpa using (insertWork_perm nodes i l).length_eq

theorem mem_insertWork {nodes : Vector Node 511} {i j : NodeIx} {l : List NodeIx} :
    j ∈ insertWork nodes i l ↔ j = i ∨ j ∈ l := by
  rw [(insertWork_perm nodes i l).mem_iff, List.mem_cons]

/-- `Insert` looks at no node but those of the list and the new one. -/
theorem insertWork_congr {nodes nodes' : Vector Node 511} {i : NodeIx} {l : List NodeIx}
    (hi : nodeAt nodes' i = nodeAt nodes i) (h : ∀ j ∈ l, nodeAt nodes' j = nodeAt nodes j) :
    insertWork nodes' i l = insertWork nodes i l := by
  induction l with
  | nil => rfl
  | cons j l ih =>
    rw [insertWork, insertWork, hi, h j (by simp), ih fun k hk => h k (by simp [hk])]

/-! ### LEAFLIST -/

theorem toList_writeLeafList : ∀ (l : List NodeIx) (k : Nat) (v : Vector NodeIx 256), k + l.length ≤ 256 →
    (writeLeafList l k v).toList = v.toList.take k ++ l ++ v.toList.drop (k + l.length) := by
  intro l
  induction l with
  | nil => intro k v _; simp [writeLeafList]
  | cons i l ih =>
    intro k v h
    simp only [List.length_cons] at h
    rw [writeLeafList, ih (k + 1) _ (by omega)]
    have hk : k < v.toList.length := by simp; omega
    have e1 : (v.setIfInBounds k i).toList = v.toList.set k i := by
      simp
    have e2 : (v.toList.set k i).take (k + 1) = v.toList.take k ++ [i] := by
      rw [List.take_add_one, List.take_set_of_le (Nat.le_refl k), List.getElem?_set_self hk]; rfl
    rw [e1, e2, List.drop_set_of_lt (by omega)]
    simp only [List.append_assoc, List.cons_append, List.nil_append, List.length_cons]
    congr 4
    omega

theorem toNat_ofNat_length {l : List NodeIx} (h : l.length ≤ 256) : (BitVec.ofNat 9 l.length).toNat = l.length := by
  rw [BitVec.toNat_ofNat]; omega

/-- After the leaves are recorded, the leaf list is the work list (R130). -/
theorem leafList_recordLeaves {s : State} (h : s.work.length ≤ 256) : leafList (recordLeaves s) = s.work := by
  rw [leafList, recordLeaves_leaflist, recordLeaves_nleaf, toNat_ofNat_length h,
    toList_writeLeafList _ _ _ (by omega)]
  simp

end Sys2Proof.Machine
end

