-- ==== Sys2Proof/Laws/Decoder.lean ====
section
/-! SUPPORT. What the decoder's operations do (spec/45_decoder.md R200 to R206): the next bit, a walk along a code path, the run of a
one-leaf tree, in terms of the bits still unread. -/

namespace Sys2Proof.Machine

/-- The bits DECODE has not taken yet: BITPOS bits of SHIFT, then those of the rest of IN (R201). -/
def unreadBits (s : State) : List Bool := (bitsOf s.shift).take s.bitpos.toNat ++ bits s.inp.rest

/-- From `s` to `t` the decoder took `k` bits: SHIFT, BITPOS, IN.pos and the access history moved, and nothing else but what
`t` names. The position in bits, `8 * IN.pos - BITPOS`, went up by `k` (R203). -/
def BitsTaken (k : Nat) (s t : State) : Prop :=
  t.inp.data = s.inp.data ∧ t.bitpos.toNat ≤ 8 ∧ 8 * t.inp.pos + s.bitpos.toNat = 8 * s.inp.pos + k + t.bitpos.toNat

theorem toNat_sub_one {v : Count} (h : 1 ≤ v.toNat) : (v - 1#64).toNat + 1 = v.toNat := by
  have h1 : (1#64).toNat = 1 := rfl
  have h2 := v.isLt
  rw [BitVec.toNat_sub, h1]
  omega

theorem bitsOf_shiftLeft (x : Byte) : bitsOf (x <<< 1) = (bitsOf x).tail ++ [false] := by
  revert x; decide

theorem bitsOf_head (x : Byte) : bitsOf x = x.getLsbD 7 :: (bitsOf x).tail := rfl

/-- The next bit (R201): the first unread bit, and the others stay. -/
theorem nextBit_eq {s : State} {b : Bool} {r : List Bool} (h : unreadBits s = b :: r) (h8 : s.bitpos.toNat ≤ 8) :
    ∃ t, nextBit s = some (b, t) ∧ unreadBits t = r ∧ BitsTaken 1 s t ∧ t.bitpos.toNat ≤ 7 ∧
      t = { s with
        shift := t.shift
        bitpos := t.bitpos
        inp := t.inp
        accesses := t.accesses } := by
  have key : ∀ u : State, 1 ≤ u.bitpos.toNat → u.bitpos.toNat ≤ 8 → unreadBits u = b :: r →
      takeBit u = (b, (takeBit u).2) ∧ unreadBits (takeBit u).2 = r ∧
        (takeBit u).2.bitpos.toNat + 1 = u.bitpos.toNat := by
    intro u h1 h8 hu
    obtain ⟨k, hk⟩ : ∃ k, u.bitpos.toNat = k + 1 := ⟨u.bitpos.toNat - 1, by omega⟩
    have hbp : (u.bitpos - 1#4).toNat = k := by
      rw [BitVec.toNat_sub, hk]
      have : (1#4).toNat = 1 := rfl
      omega
    rw [unreadBits, hk, bitsOf_head, List.take_succ_cons, List.cons_append, List.cons.injEq] at hu
    refine ⟨by simp only [takeBit, hu.1], ?_, ?_⟩
    · simp only [takeBit, unreadBits, hbp, bitsOf_shiftLeft]
      rw [List.take_append_of_le_length (by simp [bitsOf]; omega)]
      exact hu.2
    · simp only [takeBit, hbp, hk]
  by_cases h0 : s.bitpos = 0#4
  · have hrest : bits s.inp.rest = b :: r := by simpa [unreadBits, h0] using h
    cases hr : s.inp.rest with
    | nil => rw [hr] at hrest; simp at hrest
    | cons x l =>
      have hu : unreadBits (loadShift x (tookByte x s)) = b :: r := by
        rw [hr, bits_cons] at hrest
        simpa [unreadBits, loadShift, rest_after hr, bitsOf] using hrest
      have e0 : (loadShift x (tookByte x s)).bitpos.toNat = 8 := rfl
      obtain ⟨e1, e2, e3⟩ := key _ (by rw [e0]; omega) (by rw [e0]) hu
      rw [e0] at e3
      refine ⟨_, by simp only [nextBit, if_pos h0, inRead_byte hr]; rw [e1], e2, ⟨rfl, ?_, ?_⟩, ?_, rfl⟩
      · omega
      · have e4 : (takeBit (loadShift x (tookByte x s))).2.inp.pos = s.inp.pos + 1 := rfl
        have e5 : s.bitpos.toNat = 0 := by rw [h0]; rfl
        omega
      · omega
  · have h1 : 1 ≤ s.bitpos.toNat := by
      have : s.bitpos.toNat ≠ 0 := fun he => h0 (BitVec.eq_of_toNat_eq (by simpa using he))
      omega
    obtain ⟨e1, e2, e3⟩ := key s h1 h8 h
    refine ⟨_, by simp only [nextBit, if_neg h0]; rw [e1], e2, ⟨rfl, by omega, ?_⟩, by omega, rfl⟩
    have e4 : (takeBit s).2.inp.pos = s.inp.pos := rfl
    rw [e4]
    omega

/-- No bit is left exactly at the end of IN with an empty SHIFT (R204). -/
theorem nextBit_none {s : State} (h : unreadBits s = []) : nextBit s = none := by
  simp only [unreadBits, List.append_eq_nil_iff] at h
  have h0 : s.bitpos = 0#4 := by
    have := congrArg List.length h.1
    simp at this
    exact BitVec.eq_of_toNat_eq (by simpa using this)
  have hr : s.inp.rest = [] := by
    have := congrArg List.length h.2
    simpa using this
  simp only [nextBit, if_pos h0, inRead_eof hr]

/-- What a walk leaves alone: all but OUT, CUR, REMAIN, SHIFT, BITPOS, IN.pos and the access history (R93). -/
def WalkFrame (s t : State) : Prop :=
  t = { s with
    out := t.out
    cur := t.cur
    remain := t.remain
    shift := t.shift
    bitpos := t.bitpos
    inp := t.inp
    accesses := t.accesses }

theorem WalkFrame.trans {s t u : State} (h1 : WalkFrame s t) (h2 : WalkFrame t u) : WalkFrame s u := by
  simp only [WalkFrame, State.ext_iff] at *
  simp_all

theorem BitsTaken.trans {j k : Nat} {s t u : State} (h1 : BitsTaken j s t) (h2 : BitsTaken k t u) :
    BitsTaken (j + k) s u := by
  obtain ⟨d1, b1, p1⟩ := h1
  obtain ⟨d2, b2, p2⟩ := h2
  exact ⟨d2.trans d1, b2, by omega⟩

/-- One pass of the walk at an Internal node with the selected child there (R202). -/
theorem decodeStep_move {s : State} {b : Bool} {r : List Bool} (h : unreadBits s = b :: r) (h8 : s.bitpos.toNat ≤ 8)
    (hrem : s.remain ≠ 0#64) (hc : childOf (nodeAt s.node s.cur) b ≠ Config.nil) :
    ∃ t, unreadBits t = r ∧ BitsTaken 1 s t ∧ t.bitpos.toNat ≤ 7 ∧ WalkFrame s t ∧
      t.out = s.out ∧ t.remain = s.remain ∧ t.cur = childOf (nodeAt s.node s.cur) b ∧
      decodeStep s = match (nodeAt s.node t.cur).kind with
        | .leaf => .again (emitSymbol t)
        | .internal => .again t := by
  obtain ⟨u, hu, hr, hb, h7, hf⟩ := nextBit_eq h h8
  have hn : u.node = s.node := by rw [hf]
  have hcur : u.cur = s.cur := by rw [hf]
  refine ⟨{ u with cur := childOf (nodeAt s.node s.cur) b }, hr, hb, h7, ?_, ?_, ?_, rfl, ?_⟩
  · simp only [WalkFrame]; rw [hf]
  · simp only; rw [hf]
  · simp only; rw [hf]
  · cases hk : (nodeAt s.node (childOf (nodeAt s.node s.cur) b)).kind <;>
      simp only [decodeStep, if_neg hrem, hu, walkStep, hn, hcur, if_neg hc, hk]

/-- A walk along a code path (R202): the path's bits are taken, its symbol goes out, one fewer is owed, the walk is at the root. -/
theorem loop_leafPath (c : List Bool) : ∀ (s : State) (y : Byte) (r : List Bool) (n : Nat), c ≠ [] →
    leafPath s.node s.cur c = some y → unreadBits s = c ++ r → s.bitpos.toNat ≤ 8 → s.remain ≠ 0#64 →
    ∃ t, unreadBits t = r ∧ BitsTaken c.length s t ∧ t.bitpos.toNat ≤ 7 ∧ WalkFrame s t ∧
      t.out = s.out ++ [y] ∧ t.remain = s.remain - 1#64 ∧ t.cur = s.root ∧
      loop decodeStep (c.length + n) s = loop decodeStep n t := by
  induction c with
  | nil => intro s y r n h; exact absurd rfl h
  | cons b c ih =>
    intro s y r n _ hp hu h8 hrem
    rw [leafPath] at hp
    cases hk : (nodeAt s.node s.cur).kind with
    | leaf => rw [hk] at hp; simp at hp
    | internal =>
      rw [hk] at hp
      simp only at hp
      split at hp
      · simp at hp
      · next hc =>
        obtain ⟨t1, hr1, hb1, h71, hf1, ho1, hrem1, hcur1, hst⟩ := decodeStep_move hu h8 hrem hc
        have hn1 : t1.node = s.node := by rw [hf1]
        have hroot1 : t1.root = s.root := by rw [hf1]
        rw [← hcur1] at hp
        cases c with
        | nil =>
          rw [leafPath] at hp
          cases hk1 : (nodeAt s.node t1.cur).kind with
          | internal => rw [hk1] at hp; simp at hp
          | leaf =>
            rw [hk1] at hp hst
            simp only [Option.some.injEq] at hp
            refine ⟨emitSymbol t1, hr1, hb1, h71, ?_, ?_, ?_, ?_, ?_⟩
            · refine hf1.trans ?_
              simp only [WalkFrame, emitSymbol, outWrite]
            · rw [emitSymbol_out, hn1, ho1, hp]
            · rw [emitSymbol_remain, hrem1]
            · rw [emitSymbol_cur, hroot1]
            · rw [List.length_singleton, Nat.add_comm, loop_of_again hst]
        | cons b2 c =>
          have hk1 : (nodeAt s.node t1.cur).kind = .internal := by
            cases hk1 : (nodeAt s.node t1.cur).kind with
            | internal => rfl
            | leaf => rw [leafPath, hk1] at hp; simp at hp
          rw [hk1] at hst
          obtain ⟨t, hr, hb, h7, hf, ho, hrem', hcur, hl⟩ := ih t1 y r n (by simp) (by rw [hn1]; exact hp) hr1
            (by omega) (by rw [hrem1]; exact hrem)
          refine ⟨t, hr, ?_, h7, hf1.trans hf, by rw [ho, ho1], by rw [hrem', hrem1], by rw [hcur, hroot1], ?_⟩
          · have := hb1.trans hb
            rwa [show 1 + (b2 :: c).length = (b :: b2 :: c).length by simp; omega] at this
          · rw [show (b :: b2 :: c).length + n = ((b2 :: c).length + n) + 1 by simp; omega, loop_of_again hst, hl]

/-- A walk along branch bits that end inside a code (R202, R204): they are taken and nothing goes out. -/
theorem loop_innerPath (c : List Bool) : ∀ (s : State) (r : List Bool) (n : Nat),
    innerPath s.node s.cur c = true → unreadBits s = c ++ r → s.bitpos.toNat ≤ 8 → s.remain ≠ 0#64 →
    ∃ t, unreadBits t = r ∧ BitsTaken c.length s t ∧ WalkFrame s t ∧
      t.out = s.out ∧ t.remain = s.remain ∧ loop decodeStep (c.length + n) s = loop decodeStep n t := by
  induction c with
  | nil =>
    intro s r n _ hu h8 _
    exact ⟨s, hu, ⟨rfl, h8, by simp⟩, by simp [WalkFrame], rfl, rfl, by simp⟩
  | cons b c ih =>
    intro s r n hp hu h8 hrem
    rw [innerPath, Bool.and_eq_true, Bool.and_eq_true] at hp
    obtain ⟨⟨-, hc⟩, hp⟩ := hp
    have hc : childOf (nodeAt s.node s.cur) b ≠ Config.nil := by simpa using hc
    obtain ⟨t1, hr1, hb1, h71, hf1, ho1, hrem1, hcur1, hst⟩ := decodeStep_move hu h8 hrem hc
    have hn1 : t1.node = s.node := by rw [hf1]
    rw [← hcur1] at hp
    have hk1 : (nodeAt s.node t1.cur).kind = .internal := by
      cases c with
      | nil => simpa [innerPath] using hp
      | cons b2 c => rw [innerPath, Bool.and_eq_true, Bool.and_eq_true] at hp; simpa using hp.1.1
    rw [hk1] at hst
    obtain ⟨t, hr, hb, hf, ho, hrem', hl⟩ := ih t1 r n (by rw [hn1]; exact hp) hr1 (by omega)
      (by rw [hrem1]; exact hrem)
    refine ⟨t, hr, ?_, hf1.trans hf, by rw [ho, ho1], by rw [hrem', hrem1], ?_⟩
    · have := hb1.trans hb
      rwa [show 1 + c.length = (b :: c).length by simp; omega] at this
    · rw [show (b :: c).length + n = (c.length + n) + 1 by simp; omega, loop_of_again hst, hl]

/-- A sequence of code paths (R200): each path's bits are taken and its symbol goes out, in order, while symbols are owed. -/
theorem loop_paths (ps : List (List Bool × Byte)) : ∀ (s : State) (r : List Bool) (n : Nat),
    (nodeAt s.node s.root).kind = .internal → s.cur = s.root →
    (∀ p ∈ ps, leafPath s.node s.root p.1 = some p.2) → unreadBits s = ps.flatMap Prod.fst ++ r →
    s.bitpos.toNat ≤ 8 → ps.length ≤ s.remain.toNat →
    ∃ t, unreadBits t = r ∧ BitsTaken (ps.flatMap Prod.fst).length s t ∧ (s.bitpos.toNat ≤ 7 → t.bitpos.toNat ≤ 7) ∧ WalkFrame s t ∧
      t.out = s.out ++ ps.map Prod.snd ∧ t.remain.toNat + ps.length = s.remain.toNat ∧ t.cur = s.root ∧
      loop decodeStep ((ps.flatMap Prod.fst).length + n) s = loop decodeStep n t := by
  induction ps with
  | nil =>
    intro s r n _ hcur _ hu h8 _
    exact ⟨s, hu, ⟨rfl, h8, by simp⟩, by simp, by simp [WalkFrame], by simp, by simp, hcur, by simp⟩
  | cons p ps ih =>
    intro s r n hk hcur hp hu h8 hrem
    have hne : p.1 ≠ [] := by
      intro he
      have := hp p (by simp)
      rw [he, leafPath, hk] at this
      simp at this
    have hrem0 : s.remain ≠ 0#64 := by
      intro he; rw [he] at hrem; simp at hrem
    simp only [List.flatMap_cons, List.append_assoc] at hu
    obtain ⟨t1, hr1, hb1, h71, hf1, ho1, hrem1, hcur1, hl1⟩ := loop_leafPath p.1 s p.2 (ps.flatMap Prod.fst ++ r)
      ((ps.flatMap Prod.fst).length + n) hne (by rw [hcur]; exact hp p (by simp)) hu h8 hrem0
    have hn1 : t1.node = s.node := by rw [hf1]
    have hroot1 : t1.root = s.root := by rw [hf1]
    have hrem1' : t1.remain.toNat + 1 = s.remain.toNat := by
      rw [hrem1]; exact toNat_sub_one (by simp only [List.length_cons] at hrem; omega)
    obtain ⟨t, hr, hb, h7, hf, ho, hrem', hcur', hl⟩ := ih t1 r n (by rw [hn1, hroot1]; exact hk)
      (by rw [hcur1, hroot1]) (by intro q hq; rw [hn1, hroot1]; exact hp q (by simp [hq])) hr1 (by omega)
      (by simp at hrem; omega)
    refine ⟨t, hr, ?_, ?_, hf1.trans hf, ?_, ?_, by rw [hcur', hroot1], ?_⟩
    · have := hb1.trans hb
      rwa [← List.length_append, ← List.flatMap_cons] at this
    · intro _; exact h7 h71
    · rw [ho, ho1]; simp
    · simp; omega
    · rw [List.flatMap_cons, List.length_append, Nat.add_assoc, hl1, hl]

/-- When nothing is owed the loop ends and reads nothing (R203). -/
theorem decodeStep_stop {s : State} (h : s.remain = 0#64) : decodeStep s = .exit s := by
  simp only [decodeStep, if_pos h]

/-- A missing bit raises TruncatedStream with the state as it stands (R204). -/
theorem decodeStep_truncated {s : State} (hrem : s.remain ≠ 0#64) (h : unreadBits s = []) :
    decodeStep s = .raised (raise .truncatedStream 0x08#8 s) := by
  simp only [decodeStep, if_neg hrem, nextBit_none h]
  rfl

/-- The one-leaf run (R205): the root's symbol as often as owed, nothing read. -/
theorem emitRun_eq (k : Nat) : ∀ s : State, s.remain.toNat = k →
    emitRun k s = { s with
      out := s.out ++ List.replicate k (nodeAt s.node s.root).sym
      remain := 0#64
      accesses := s.accesses ++ (List.replicate k (nodeAt s.node s.root).sym).map .write } := by
  induction k with
  | zero =>
    intro s h
    have : s.remain = 0#64 := BitVec.eq_of_toNat_eq (by simpa using h)
    simp only [emitRun, List.replicate_zero, List.append_nil, List.map_nil]
    rw [← this]
  | succ k ih =>
    intro s h
    have hk : (s.remain - 1#64).toNat = k := by
      have := toNat_sub_one (v := s.remain) (by omega)
      omega
    rw [emitRun, ih _ (by simpa using hk)]
    simp [outWrite, List.replicate_succ]

end Sys2Proof.Machine
end

