-- ==== Sys2Proof/Laws/Tree.lean ====
section
/-! SUPPORT. What BUILD_TREE's operations do (spec/41_tree_builder.md R130 to R134): adding a node, the leaf scan, one merge, and the
invariant of the merge loop. -/

namespace Sys2Proof.Machine

/-! ### Adding a node -/

theorem nodeN_eq (s : State) (i : NodeIx) : nodeN s i.toNat = nodeAt s.node i := by
  simp [nodeN]

theorem toNat_ofNat9 {k : Nat} (h : k < 512) : (BitVec.ofNat 9 k).toNat = k := by
  rw [BitVec.toNat_ofNat]; omega

/-- A new node is at NCOUNT, and every other node is as before. -/
theorem nodeN_addNode {n : Node} {s : State} (h : s.ncount.toNat < 511) {k : Nat} (hk : k < 512) :
    nodeN (addNode n s) k = if k = s.ncount.toNat then n else nodeN s k := by
  rw [nodeN, addNode_node, nodeAt_set _ _ _ _ h, toNat_ofNat9 hk]
  rfl

theorem nodeAt_addNode_old {n : Node} {s : State} {i : NodeIx} (h : i.toNat ≠ s.ncount.toNat) :
    nodeAt (addNode n s).node i = nodeAt s.node i := by
  rw [addNode_node, nodeAt_set_other _ _ _ h]

theorem ncount_addNode {n : Node} {s : State} (h : s.ncount.toNat < 511) :
    (addNode n s).ncount.toNat = s.ncount.toNat + 1 := by
  rw [addNode_ncount, BitVec.toNat_add]
  have : (1#10).toNat = 1 := rfl
  omega

theorem toNat_newIndex {s : State} (h : s.ncount.toNat < 511) : (s.ncount.setWidth 9).toNat = s.ncount.toNat := by
  rw [BitVec.toNat_setWidth]; omega

/-- WORK after a node is added: the old list and the new index. -/
theorem work_addNode_perm (n : Node) (s : State) :
    (addNode n s).work.Perm (s.ncount.setWidth 9 :: s.work) := by
  rw [addNode_work]; exact insertWork_perm _ _ _

/-- The order of the work list (R131): by descending frequency, equal frequencies by ascending index. -/
def Before (nodes : Vector Node 511) (i j : NodeIx) : Prop :=
  (nodeAt nodes j).freq < (nodeAt nodes i).freq ∨
    ((nodeAt nodes j).freq = (nodeAt nodes i).freq ∧ i.toNat < j.toNat)

/-- `Insert` keeps the order, for a new index above all of the list (R131). -/
theorem insertWork_pairwise {nodes : Vector Node 511} {i : NodeIx} {l : List NodeIx}
    (h : l.Pairwise (Before nodes)) (hi : ∀ j ∈ l, j.toNat < i.toNat) :
    (insertWork nodes i l).Pairwise (Before nodes) := by
  induction l with
  | nil => simp [insertWork]
  | cons j l ih =>
    obtain ⟨h1, h2⟩ := List.pairwise_cons.1 h
    rw [insertWork]
    split
    · next hlt =>
      refine List.pairwise_cons.2 ⟨?_, h⟩
      intro k hk
      rcases List.mem_cons.1 hk with rfl | hk
      · exact .inl hlt
      · rcases h1 k hk with hlt' | ⟨heq, -⟩
        · exact .inl (BitVec.lt_trans hlt' hlt)
        · exact .inl (by rw [heq]; exact hlt)
    · next hge =>
      refine List.pairwise_cons.2 ⟨?_, ih h2 fun k hk => hi k (by simp [hk])⟩
      intro k hk
      rcases mem_insertWork.1 hk with rfl | hk
      · by_cases he : (nodeAt nodes k).freq = (nodeAt nodes j).freq
        · exact .inr ⟨he, hi j (by simp)⟩
        · refine .inl ?_
          rw [BitVec.lt_def] at hge ⊢
          have : (nodeAt nodes k).freq.toNat ≠ (nodeAt nodes j).freq.toNat := fun e => he (BitVec.eq_of_toNat_eq e)
          omega
      · exact h1 k hk

theorem Before.congr {nodes nodes' : Vector Node 511} {i j : NodeIx} (h : Before nodes i j)
    (hi : nodeAt nodes' i = nodeAt nodes i) (hj : nodeAt nodes' j = nodeAt nodes j) : Before nodes' i j := by
  rw [Before, hi, hj]; exact h

/-! ### The leaf scan -/

/-- The state of the leaf scan after the symbols `ys` (R130, steps 1 and 2). -/
structure LeafScan (s0 : State) (ys : List Byte) (s : State) : Prop where
  frame  : s = { s0 with
    node := s.node
    ncount := s.ncount
    work := s.work }
  count  : s.ncount.toNat = (ys.filter fun b => freqAt s0 b ≠ 0#64).length
  nodes  : (List.range s.ncount.toNat).map (nodeN s) =
    (ys.filter fun b => freqAt s0 b ≠ 0#64).map fun b => mkLeaf b (freqAt s0 b)
  work   : (s.work.map BitVec.toNat).Perm (List.range s.ncount.toNat)
  sorted : s.work.Pairwise (Before s.node)

theorem mem_work_lt {s : State} {i : NodeIx} (h : (s.work.map BitVec.toNat).Perm (List.range s.ncount.toNat))
    (hi : i ∈ s.work) : i.toNat < s.ncount.toNat :=
  List.mem_range.1 (h.mem_iff.1 (List.mem_map_of_mem hi))

theorem range_map_nodeN_addNode {n : Node} {s : State} (h : s.ncount.toNat < 511) :
    (List.range (addNode n s).ncount.toNat).map (nodeN (addNode n s)) =
      (List.range s.ncount.toNat).map (nodeN s) ++ [n] := by
  rw [ncount_addNode h, List.range_succ, List.map_append, List.map_singleton, nodeN_addNode h (by omega), if_pos rfl]
  congr 1
  apply List.map_congr_left
  intro k hk
  have := List.mem_range.1 hk
  rw [nodeN_addNode h (by omega), if_neg (by omega)]

theorem addLeaf_scan {s0 s : State} {ys : List Byte} {b : Byte} (h : LeafScan s0 ys s) (hl : ys.length < 256) :
    LeafScan s0 (ys ++ [b]) (addLeaf s b) := by
  have hfreq : freqAt s b = freqAt s0 b := freqAt_congr (by rw [h.frame]) b
  rw [addLeaf, hfreq]
  split
  · next h0 =>
    have hf : (ys ++ [b]).filter (fun b => freqAt s0 b ≠ 0#64) = ys.filter fun b => freqAt s0 b ≠ 0#64 := by
      simp [List.filter_append, h0]
    exact ⟨h.frame, by rw [hf]; exact h.count, by rw [hf]; exact h.nodes, h.work, h.sorted⟩
  · next h0 =>
    have hf : (ys ++ [b]).filter (fun b => freqAt s0 b ≠ 0#64) = (ys.filter fun b => freqAt s0 b ≠ 0#64) ++ [b] := by
      simp [List.filter_append, h0]
    have hc : s.ncount.toNat < 511 := by
      have := List.length_filter_le (fun b => freqAt s0 b ≠ 0#64) ys
      rw [h.count]; omega
    have hold : ∀ j ∈ s.work, nodeAt (addNode (mkLeaf b (freqAt s0 b)) s).node j = nodeAt s.node j := by
      intro j hj
      have := mem_work_lt h.work hj
      exact nodeAt_addNode_old (by omega)
    refine ⟨?_, ?_, ?_, ?_, ?_⟩
    · conv_lhs => rw [h.frame]
      rfl
    · rw [ncount_addNode hc, hf, List.length_append, List.length_singleton, h.count]
    · rw [range_map_nodeN_addNode hc, h.nodes, hf, List.map_append, List.map_singleton]
    · rw [ncount_addNode hc, List.range_succ]
      refine ((work_addNode_perm _ s).map _).trans ?_
      rw [List.map_cons, toNat_newIndex hc]
      exact (List.Perm.cons _ h.work).trans (List.perm_append_singleton _ _).symm
    · rw [addNode_work, addNode_node]
      apply insertWork_pairwise
      · refine h.sorted.imp_of_mem ?_
        intro i j hi hj hij
        have h1 := hold i hi
        have h2 := hold j hj
        rw [addNode_node] at h1 h2
        exact hij.congr h1 h2
      · intro j hj
        rw [toNat_newIndex hc]
        exact mem_work_lt h.work hj

theorem foldl_addLeaf_scan {s0 : State} (zs : List Byte) : ∀ (ys : List Byte) (s : State), LeafScan s0 ys s →
    ys.length + zs.length ≤ 256 → LeafScan s0 (ys ++ zs) (zs.foldl addLeaf s) := by
  induction zs with
  | nil => intro ys s h _; simpa using h
  | cons z zs ih =>
    intro ys s h hl
    simp only [List.length_cons] at hl
    have := ih (ys ++ [z]) (addLeaf s z) (addLeaf_scan h (by omega)) (by simp; omega)
    simpa using this

/-- After the scan of all symbols (R130). -/
theorem addLeaves_scan (s : State) : LeafScan (startTree s) symbols (addLeaves (startTree s)) := by
  have h0 : LeafScan (startTree s) [] (startTree s) := by
    constructor
    · rfl
    · rfl
    · rfl
    · exact List.Perm.refl _
    · exact List.Pairwise.nil
  have := foldl_addLeaf_scan symbols [] (startTree s) h0 (by simp)
  simpa [addLeaves] using this

theorem freqAt_startTree (s : State) (b : Byte) : freqAt (startTree s) b = freqAt s b := rfl

theorem presentSymbols_startTree (s : State) : presentSymbols (startTree s) = presentSymbols s := rfl

/-- The node of the `k`-th present symbol is its leaf (R134). -/
theorem LeafScan.leaf_eq {s0 s : State} (h : LeafScan s0 symbols s) {k : Nat} (hk : k < (presentSymbols s0).length) :
    nodeN s k = mkLeaf (presentSymbols s0)[k] (freqAt s0 (presentSymbols s0)[k]) := by
  have hc : s.ncount.toNat = (presentSymbols s0).length := h.count
  have := congrArg (fun l => l[k]?) h.nodes
  simp only [List.getElem?_map] at this
  rw [List.getElem?_range (by omega)] at this
  have hk' : (symbols.filter fun b => freqAt s0 b ≠ 0#64)[k]? = some (presentSymbols s0)[k] :=
    List.getElem?_eq_getElem hk
  rw [hk'] at this
  simpa using this

/-! ### The merge -/

/-- The sum of the frequencies of the nodes of a work list. -/
def workTotal (nodes : Vector Node 511) (l : List NodeIx) : Nat := (l.map fun i => (nodeAt nodes i).freq.toNat).sum

theorem workTotal_congr {nodes nodes' : Vector Node 511} {l : List NodeIx}
    (h : ∀ i ∈ l, nodeAt nodes' i = nodeAt nodes i) : workTotal nodes' l = workTotal nodes l := by
  rw [workTotal, workTotal]
  congr 1
  exact List.map_congr_left fun i hi => by rw [h i hi]

theorem workTotal_perm {nodes : Vector Node 511} {l l' : List NodeIx} (h : l.Perm l') :
    workTotal nodes l = workTotal nodes l' := (h.map _).sum_eq

/-- The invariant of the merge loop (R130, step 3), from the state `s1` in which the leaves were recorded. -/
structure MergeInv (s1 s : State) : Prop where
  frame  : s = { s1 with
    node := s.node
    ncount := s.ncount
    work := s.work }
  some   : 1 ≤ s.work.length
  count  : s.ncount.toNat + s.work.length = 2 * s1.ncount.toNat
  few    : s1.ncount.toNat ≤ 256
  leaf   : ∀ i, i < s1.ncount.toNat → nodeN s i = nodeN s1 i
  inner  : ∀ i, i < s.ncount.toNat → s1.ncount.toNat ≤ i →
    (nodeN s i).kind = .internal ∧ (nodeN s i).sym = 0#8 ∧
    (nodeN s i).left.toNat < i ∧ (nodeN s i).right.toNat < i ∧
    (nodeN s i).freq.toNat =
      (nodeAt s.node (nodeN s i).left).freq.toNat + (nodeAt s.node (nodeN s i).right).freq.toNat
  once   : ((List.range (s.ncount.toNat - s1.ncount.toNat)).flatMap (fun k =>
      [(nodeN s (s1.ncount.toNat + k)).left.toNat, (nodeN s (s1.ncount.toNat + k)).right.toNat]) ++
        s.work.map BitVec.toNat).Perm (List.range s.ncount.toNat)
  total  : workTotal s.node s.work = workTotal s1.node s1.work

theorem MergeInv.mem_lt {s1 s : State} (h : MergeInv s1 s) {i : NodeIx} (hi : i ∈ s.work) :
    i.toNat < s.ncount.toNat :=
  List.mem_range.1 (h.once.mem_iff.1 (by simp only [List.mem_append, List.mem_map]; exact .inr ⟨i, hi, rfl⟩))

/-- What one pass of the merge loop does (R130, R132). -/
theorem mergeStep_cases (s : State) :
    (s.work.length ≤ 1 ∧ mergeStep s = .exit s) ∨
    ∃ l a b, s.work = l ++ [b, a] ∧ mergeStep s = mergeNodes a b { s with work := l } := by
  cases h : s.work.reverse with
  | nil =>
    refine .inl ⟨?_, by rw [mergeStep, h]⟩
    have := congrArg List.length h
    simp at this
    simp [this]
  | cons a r =>
    cases r with
    | nil =>
      refine .inl ⟨?_, by rw [mergeStep, h]⟩
      have := congrArg List.length h
      simp at this
      omega
    | cons b r =>
      refine .inr ⟨r.reverse, a, b, ?_, by rw [mergeStep, h]⟩
      have := congrArg List.reverse h
      simpa using this

/-- A merge keeps the invariant, shortens the work list, and is the only way the loop goes on. -/
theorem mergeStep_again {s1 s t : State} (h : MergeInv s1 s) (ht : mergeStep s = .again t) :
    MergeInv s1 t ∧ t.work.length < s.work.length := by
  rcases mergeStep_cases s with ⟨-, he⟩ | ⟨l, a, b, hw, hm⟩
  · rw [he] at ht; simp at ht
  rw [hm, mergeNodes] at ht
  simp only at ht
  split at ht
  · simp at ht
  next hf =>
  split at ht
  · simp at ht
  next hnil =>
  simp only [Iter.again.injEq] at ht
  have ha : a.toNat < s.ncount.toNat := h.mem_lt (by rw [hw]; simp)
  have hb : b.toNat < s.ncount.toNat := h.mem_lt (by rw [hw]; simp)
  have hlen : s.work.length = l.length + 2 := by rw [hw]; simp
  have hcount := h.count
  have hfew := h.few
  have hc : s.ncount.toNat < 511 := by omega
  have hge : s1.ncount.toNat ≤ s.ncount.toNat := by
    by_contra hlt
    have h1 := h.once.length_eq
    rw [Nat.sub_eq_zero_of_le (by omega)] at h1
    simp at h1
    omega
  generalize hn : mkInternal a b (BitVec.ofNat 64 ((nodeAt s.node a).freq.toNat + (nodeAt s.node b).freq.toNat)) = n at ht
  generalize hu : ({ s with work := l } : State) = u at ht
  have hun : u.node = s.node := by rw [← hu]
  have huc : u.ncount = s.ncount := by rw [← hu]
  have huw : u.work = l := by rw [← hu]
  have hc' : u.ncount.toNat < 511 := by rw [huc]; exact hc
  have hnfreq : n.freq.toNat = (nodeAt s.node a).freq.toNat + (nodeAt s.node b).freq.toNat := by
    rw [← hn]; simp only [mkInternal, BitVec.toNat_ofNat]; omega
  have hold : ∀ i : NodeIx, i.toNat < s.ncount.toNat → nodeAt t.node i = nodeAt s.node i := by
    intro i hi
    rw [← ht, nodeAt_addNode_old (by rw [huc]; omega), hun]
  have holdN : ∀ i, i < s.ncount.toNat → nodeN t i = nodeN s i := by
    intro i hi
    exact hold _ (by rw [toNat_ofNat9 (by omega)]; exact hi)
  have hnew : nodeN t s.ncount.toNat = n := by
    rw [← ht, nodeN_addNode hc' (by omega), if_pos (by rw [huc])]
  have htc : t.ncount.toNat = s.ncount.toNat + 1 := by rw [← ht, ncount_addNode hc', huc]
  have htw : t.work.Perm (s.ncount.setWidth 9 :: l) := by
    have := work_addNode_perm n u
    rw [ht, huc, huw] at this
    exact this
  have htl : t.work.length = l.length + 1 := by simpa using htw.length_eq
  have hni : (s.ncount.setWidth 9).toNat = s.ncount.toNat := toNat_newIndex hc
  refine ⟨⟨?_, by omega, by omega, hfew, ?_, ?_, ?_, ?_⟩, by omega⟩
  · rw [← ht, ← hu]
    conv_lhs => rw [h.frame]
    rfl
  · intro i hi
    rw [holdN i (by omega), h.leaf i hi]
  · intro i hi hi'
    rw [htc] at hi
    by_cases hin : i = s.ncount.toNat
    · subst hin
      rw [hnew, ← hn]
      refine ⟨rfl, rfl, ha, hb, ?_⟩
      simp only [mkInternal]
      rw [hold a ha, hold b hb]
      simp only [BitVec.toNat_ofNat]
      omega
    · obtain ⟨h1, h2, h3, h4, h5⟩ := h.inner i (by omega) hi'
      rw [holdN i (by omega)]
      refine ⟨h1, h2, h3, h4, ?_⟩
      rw [h5, hold _ (by omega), hold _ (by omega)]
  · rw [htc, show s.ncount.toNat + 1 - s1.ncount.toNat = (s.ncount.toNat - s1.ncount.toNat) + 1 by omega,
      List.range_succ, List.flatMap_append, List.range_succ]
    have e1 : (List.range (s.ncount.toNat - s1.ncount.toNat)).flatMap (fun k =>
        [(nodeN t (s1.ncount.toNat + k)).left.toNat, (nodeN t (s1.ncount.toNat + k)).right.toNat]) =
        (List.range (s.ncount.toNat - s1.ncount.toNat)).flatMap (fun k =>
        [(nodeN s (s1.ncount.toNat + k)).left.toNat, (nodeN s (s1.ncount.toNat + k)).right.toNat]) := by
      rw [List.flatMap_def, List.flatMap_def]
      congr 1
      apply List.map_congr_left
      intro k hk
      have := List.mem_range.1 hk
      rw [holdN _ (by omega)]
    have e2 : s1.ncount.toNat + (s.ncount.toNat - s1.ncount.toNat) = s.ncount.toNat := by omega
    rw [e1, List.flatMap_singleton, e2, hnew, ← hn]
    have h1 := h.once
    rw [hw, List.map_append] at h1
    refine (List.Perm.append_left _ (htw.map _)).trans ?_
    rw [List.map_cons, hni]
    refine List.Perm.trans ?_ (List.Perm.append_right _ h1)
    simp only [mkInternal, List.map_cons, List.map_nil]
    generalize (List.range (s.ncount.toNat - s1.ncount.toNat)).flatMap (fun k =>
        [(nodeN s (s1.ncount.toNat + k)).left.toNat, (nodeN s (s1.ncount.toNat + k)).right.toNat]) = cs
    rw [← Multiset.coe_eq_coe]
    simp only [← Multiset.coe_add, ← Multiset.cons_coe, Multiset.coe_nil]
    simp only [← Multiset.singleton_add, add_zero]
    abel
  · rw [workTotal_perm htw]
    have e1 : workTotal t.node l = workTotal s.node l := by
      apply workTotal_congr
      intro i hi
      exact hold i (h.mem_lt (by rw [hw]; simp [hi]))
    have e2 : nodeAt t.node (s.ncount.setWidth 9) = n := by
      rw [← nodeN_eq, hni, hnew]
    have e3 : workTotal t.node (s.ncount.setWidth 9 :: l) = n.freq.toNat + workTotal t.node l := by
      simp [workTotal, e2]
    have e4 : workTotal s.node s.work =
        workTotal s.node l + ((nodeAt s.node b).freq.toNat + (nodeAt s.node a).freq.toNat) := by
      rw [hw]; simp [workTotal]
    rw [e3, e1, hnfreq, ← h.total, e4]
    omega

/-- What a merge that raises means: two frequencies that together reach 2^64 (R246); a missing child cannot occur. -/
theorem mergeStep_raised {s1 s t : State} (h : MergeInv s1 s) (ht : mergeStep s = .raised t) :
    2 ^ 64 ≤ workTotal s1.node s1.work ∧
    ∃ l a b, s.work = l ++ [b, a] ∧
      2 ^ 64 ≤ (nodeAt s.node a).freq.toNat + (nodeAt s.node b).freq.toNat ∧
      t = raise .countOverflow (encodeWord .buildTree) { s with work := l } := by
  rcases mergeStep_cases s with ⟨-, he⟩ | ⟨l, a, b, hw, hm⟩
  · rw [he] at ht; simp at ht
  have hlen : s.work.length = l.length + 2 := by rw [hw]; simp
  have hcount := h.count
  have hfew := h.few
  have ha : a.toNat < s.ncount.toNat := h.mem_lt (by rw [hw]; simp)
  have hb : b.toNat < s.ncount.toNat := h.mem_lt (by rw [hw]; simp)
  rw [hm, mergeNodes] at ht
  simp only at ht
  split at ht
  · next hf =>
    simp only [Iter.raised.injEq] at ht
    refine ⟨?_, l, a, b, hw, hf, ht.symm⟩
    rw [← h.total, hw]
    simp [workTotal]
    omega
  · split at ht
    · next hnil =>
      rcases hnil with e | e
      · exact absurd e (ne_nil_of_lt (by omega))
      · exact absurd e (ne_nil_of_lt (by omega))
    · simp at ht

/-- A merge never stops the model. -/
theorem mergeStep_not_stuck (s : State) (f : Fault) : mergeStep s ≠ .stuck f := by
  rcases mergeStep_cases s with ⟨-, he⟩ | ⟨l, a, b, -, hm⟩
  · rw [he]; simp
  · rw [hm, mergeNodes]
    simp only
    split
    · simp
    · split <;> simp

theorem mergeStep_exit {s t : State} (h : mergeStep s = .exit t) : t = s ∧ s.work.length ≤ 1 := by
  rcases mergeStep_cases s with ⟨hl, he⟩ | ⟨l, a, b, hw, hm⟩
  · rw [he] at h; simp at h; exact ⟨h.symm, hl⟩
  · rw [hm, mergeNodes] at h
    simp only at h
    split at h
    · simp at h
    · split at h <;> simp at h

/-! ### The whole command -/

theorem length_presentSymbols (s : State) : (presentSymbols s).length ≤ 256 := by
  have := List.length_filter_le (fun b => freqAt s b ≠ 0#64) symbols
  rw [length_symbols] at this
  exact this

theorem presentSymbols_sorted (s : State) : (presentSymbols s).Pairwise (· < ·) := symbols_sorted.filter _

theorem mem_presentSymbols {s : State} {b : Byte} : b ∈ presentSymbols s ↔ freqAt s b ≠ 0#64 := by
  simp [presentSymbols, mem_symbols]

theorem freqTotal_eq (s : State) : freqTotal s = ((presentSymbols s).map fun b => (freqAt s b).toNat).sum := by
  rw [freqTotal, presentSymbols]
  generalize symbols = l
  induction l with
  | nil => rfl
  | cons b l ih =>
    by_cases h : freqAt s b = 0#64
    · simp [h, ih]
    · simp [h, ih]

theorem LeafScan.work_length {s0 s : State} (h : LeafScan s0 symbols s) :
    s.work.length = (presentSymbols s0).length := by
  have := h.work.length_eq
  simp only [List.length_map, List.length_range] at this
  rw [this]; exact h.count

theorem LeafScan.work_total {s0 s : State} (h : LeafScan s0 symbols s) : workTotal s.node s.work = freqTotal s0 := by
  have h1 : workTotal s.node s.work = ((s.work.map BitVec.toNat).map fun k => (nodeN s k).freq.toNat).sum := by
    rw [workTotal, List.map_map]
    congr 1
    apply List.map_congr_left
    intro i _
    simp [nodeN_eq]
  have h2 := (h.work.map fun k => (nodeN s k).freq.toNat).sum_eq
  have h3 := congrArg (fun l => (l.map fun n => n.freq.toNat).sum) h.nodes
  simp only [List.map_map] at h3
  have e : ∀ l : List Byte, ((fun n : Node => n.freq.toNat) ∘ fun b => mkLeaf b (freqAt s0 b)) = fun b => (freqAt s0 b).toNat := fun _ => rfl
  rw [h1, h2, freqTotal_eq]
  exact h3

/-- The merge loop starts with its invariant. -/
theorem mergeInv_start {s0 s : State} (h : LeafScan s0 symbols s) (hne : s.work ≠ []) :
    MergeInv (recordLeaves s) (recordLeaves s) := by
  have hc : s.ncount.toNat = (presentSymbols s0).length := h.count
  have hl := length_presentSymbols s0
  have hw := h.work_length
  refine ⟨rfl, ?_, ?_, ?_, fun _ _ => rfl, ?_, ?_, rfl⟩
  · exact List.length_pos_of_ne_nil hne
  · simp only [recordLeaves_ncount, recordLeaves_work]; omega
  · simp only [recordLeaves_ncount]; omega
  · intro i h1 h2
    omega
  · simpa using h.work

theorem workTotal_recordLeaves (s : State) : workTotal (recordLeaves s).node (recordLeaves s).work = workTotal s.node s.work := rfl

theorem addLeaves_work_nil {s : State} : (addLeaves (startTree s)).work = [] ↔ ∀ b, freqAt s b = 0#64 := by
  have h := (addLeaves_scan s).work_length
  constructor
  · intro he b
    rw [he] at h
    have := List.eq_nil_of_length_eq_zero h.symm
    by_contra hb
    have hm := mem_presentSymbols.2 hb
    rw [presentSymbols_startTree] at this
    rw [this] at hm
    simp at hm
  · intro hb
    apply List.eq_nil_of_length_eq_zero
    rw [h]
    have : presentSymbols (startTree s) = [] := by
      rw [presentSymbols_startTree, presentSymbols]
      simp [hb]
    rw [this]; rfl

/-- The end of the merge loop: its invariant with one node left in WORK. -/
theorem buildTreeMain_cases (s : State) (h0 : ∃ b, freqAt s b ≠ 0#64) :
    ∃ u, MergeInv (recordLeaves (addLeaves (startTree s))) u ∧
      ((u.work.length = 1 ∧ buildTreeMain s = .done (finishTree u)) ∨
       (2 ^ 64 ≤ freqTotal s ∧ ∃ l a b, u.work = l ++ [b, a] ∧
        2 ^ 64 ≤ (nodeAt u.node a).freq.toNat + (nodeAt u.node b).freq.toNat ∧
        buildTreeMain s = .raised (raise .countOverflow (encodeWord .buildTree) { u with work := l }))) := by
  have hne : (addLeaves (startTree s)).work ≠ [] := by
    intro he
    obtain ⟨b, hb⟩ := h0
    exact hb (addLeaves_work_nil.1 he b)
  have hscan := addLeaves_scan s
  generalize hs1 : addLeaves (startTree s) = s1 at hne hscan
  have hinv := mergeInv_start hscan hne
  have hmain : buildTreeMain s =
      (loop mergeStep (recordLeaves s1).work.length (recordLeaves s1)).andThen fun s3 => .done (finishTree s3) := by
    simp only [buildTreeMain, hs1]
    rw [if_neg hne]
  have hpos : 0 < s1.work.length := List.length_pos_of_ne_nil hne
  have hrule := loop_rule (body := mergeStep) (I := MergeInv (recordLeaves s1))
    (m := fun u => u.work.length - 1)
    (fun a b ha hb => by
      have := mergeStep_again ha hb
      refine ⟨this.1, ?_⟩
      have h1 := this.1.some
      have h2 := this.2
      omega) (recordLeaves s1).work.length (recordLeaves s1) hinv
    (by simp only [recordLeaves_work]; omega)
  rcases hrule with ⟨u, t, hu, hb, hl⟩ | ⟨u, t, hu, hb, hl⟩ | ⟨u, f, hu, hb, hl⟩
  · obtain ⟨rfl, h1⟩ := mergeStep_exit hb
    refine ⟨t, hu, .inl ⟨?_, by rw [hmain, hl]; rfl⟩⟩
    have := hu.some
    omega
  · obtain ⟨htot, l, a, b, hw, hf, rfl⟩ := mergeStep_raised hu hb
    refine ⟨u, hu, .inr ⟨?_, l, a, b, hw, hf, by rw [hmain, hl]; rfl⟩⟩
    rw [workTotal_recordLeaves, hscan.work_total] at htot
    exact htot
  · exact absurd hb (mergeStep_not_stuck u f)

/-- The tree that the merge loop leaves (R41, R134), with its frame: what of `s` BUILD_TREE leaves alone. -/
theorem treeOk_of_mergeInv {s u : State} (hu : MergeInv (recordLeaves (addLeaves (startTree s))) u)
    (h1 : u.work.length = 1) :
    TreeOk (finishTree u) ∧ LeavesOk (finishTree u) ∧ finishTree u = { s with
      tv := true
      dv := false
      node := u.node
      ncount := u.ncount
      nleaf := u.nleaf
      root := (finishTree u).root
      leaflist := u.leaflist
      work := u.work
      dict := (invalidateEntries s).dict } := by
  have hscan := addLeaves_scan s
  generalize addLeaves (startTree s) = s1 at hu hscan
  have hc : s1.ncount.toNat = (presentSymbols s).length := hscan.count
  have hwl := hscan.work_length
  rw [presentSymbols_startTree] at hwl
  have hfew : (presentSymbols s).length ≤ 256 := length_presentSymbols s
  have hun : u.nleaf = (recordLeaves s1).nleaf := (congrArg State.nleaf hu.frame :)
  have hul : u.leaflist = (recordLeaves s1).leaflist := (congrArg State.leaflist hu.frame :)
  have huf : u.freq = s.freq := by
    have e1 := congrArg State.freq hu.frame
    have e2 := congrArg State.freq hscan.frame
    exact e1.trans e2
  have hL : u.nleaf.toNat = s1.ncount.toNat := by
    rw [hun, recordLeaves_nleaf, toNat_ofNat_length (by omega)]
    omega
  have hcount : u.ncount.toNat + 1 = 2 * s1.ncount.toNat := by
    have := hu.count; rw [h1] at this; exact this
  obtain ⟨r, hr⟩ := List.length_eq_one_iff.1 h1
  have honce := hu.once
  rw [hr] at honce
  simp only [recordLeaves_ncount, List.map_cons, List.map_nil] at honce
  have hpos : 1 ≤ s1.ncount.toNat := by omega
  have hrange : List.range u.ncount.toNat = List.range (u.ncount.toNat - 1) ++ [u.ncount.toNat - 1] := by
    conv_lhs => rw [show u.ncount.toNat = (u.ncount.toNat - 1) + 1 by omega, List.range_succ]
  generalize hcs : (List.range (u.ncount.toNat - s1.ncount.toNat)).flatMap (fun k =>
      [(nodeN u (s1.ncount.toNat + k)).left.toNat, (nodeN u (s1.ncount.toNat + k)).right.toNat]) = cs at honce
  have hroot : r.toNat = u.ncount.toNat - 1 := by
    have hm : u.ncount.toNat - 1 ∈ cs ++ [r.toNat] := honce.mem_iff.2 (List.mem_range.2 (by omega))
    rcases List.mem_append.1 hm with hm | hm
    · exfalso
      rw [← hcs] at hm
      obtain ⟨k, hk, hk'⟩ := List.mem_flatMap.1 hm
      have hk := List.mem_range.1 hk
      obtain ⟨-, -, hl, hr', -⟩ := hu.inner (s1.ncount.toNat + k) (by omega) (by simp)
      simp only [List.mem_cons, List.not_mem_nil, or_false] at hk'
      omega
    · exact (List.mem_singleton.1 hm).symm
  have hperm : cs.Perm (List.range (u.ncount.toNat - 1)) := by
    rw [hrange, hroot] at honce
    exact (List.perm_append_right_iff _).1 honce
  have hrootEq : (finishTree u).root = r := by simp [finishTree, setTV, hr]
  have hnode : ∀ i, nodeN (finishTree u) i = nodeN u i := fun _ => rfl
  have hleaf : ∀ i (hi : i < (presentSymbols s).length), nodeN u i = mkLeaf (presentSymbols s)[i] (freqAt s (presentSymbols s)[i]) := by
    intro i hi
    rw [hu.leaf i (by simp only [recordLeaves_ncount]; omega)]
    exact hscan.leaf_eq hi
  have hmapleaf : (List.range u.nleaf.toNat).map (nodeN u) = (presentSymbols s).map fun b => mkLeaf b (freqAt s b) := by
    have := hscan.nodes
    rw [hL]
    refine Eq.trans ?_ this
    apply List.map_congr_left
    intro i hi
    have := List.mem_range.1 hi
    rw [hu.leaf i (by simpa using this)]
    rfl
  refine ⟨⟨?_, ?_, ?_, ?_, ?_, ?_, ?_, ?_⟩, ⟨?_, ?_, ?_⟩, ?_⟩
  · show 1 ≤ u.nleaf.toNat
    omega
  · show u.nleaf.toNat ≤ 256
    omega
  · show u.ncount.toNat = 2 * u.nleaf.toNat - 1
    omega
  · rw [hrootEq]; exact hroot
  · intro i hi
    have hi : i < u.nleaf.toNat := hi
    have hi' : i < (presentSymbols s).length := by omega
    rw [hnode, hleaf i hi']
    refine ⟨rfl, rfl, rfl, ?_⟩
    have := mem_presentSymbols.1 (List.getElem_mem hi')
    show 1 ≤ (freqAt s (presentSymbols s)[i]).toNat
    by_contra hlt
    exact this (BitVec.eq_of_toNat_eq (by rw [show (0#64).toNat = 0 from rfl]; omega))
  · intro i hi hi'
    exact hu.inner i hi (by rw [recordLeaves_ncount, ← hL]; exact hi')
  · have : childIndices (finishTree u) = cs := by
      rw [← hcs]
      simp only [childIndices]
      rw [show (finishTree u).ncount = u.ncount from rfl, show (finishTree u).nleaf = u.nleaf from rfl, hL]
      rfl
    rw [this]; exact hperm
  · rw [hrootEq]
    have htot := hu.total
    rw [hr, workTotal_recordLeaves, hscan.work_total] at htot
    have e : ((List.range u.nleaf.toNat).map fun i => (nodeN u i).freq.toNat).sum = freqTotal s := by
      have := congrArg (fun l => (l.map fun n => n.freq.toNat).sum) hmapleaf
      simp only [List.map_map] at this
      rw [freqTotal_eq]
      exact this
    refine Eq.trans e ?_
    rw [show freqTotal s = freqTotal (startTree s) from rfl, ← htot]
    simp [workTotal, finishTree, setTV]
  · have := congrArg (fun l => l.map fun n => (n.sym, n.freq)) hmapleaf
    simp only [List.map_map] at this
    have e : presentSymbols (finishTree u) = presentSymbols s := by
      rw [presentSymbols, presentSymbols]
      congr 1
      funext b
      rw [freqAt_congr (show (finishTree u).freq = s.freq from huf)]
    rw [e]
    have e2 : (fun b => (b, freqAt (finishTree u) b)) = fun b => (b, freqAt s b) := by
      funext b
      rw [freqAt_congr (show (finishTree u).freq = s.freq from huf)]
    rw [e2]
    exact this
  · have e : leafList (finishTree u) = s1.work := by
      rw [← leafList_recordLeaves (s := s1) (by omega), leafList, leafList]
      rw [show (finishTree u).leaflist = u.leaflist from rfl, show (finishTree u).nleaf = u.nleaf from rfl, hul, hun]
    rw [e, show (finishTree u).nleaf = u.nleaf from rfl, hL]
    exact hscan.work
  · have e : leafList (finishTree u) = s1.work := by
      rw [← leafList_recordLeaves (s := s1) (by omega), leafList, leafList]
      rw [show (finishTree u).leaflist = u.leaflist from rfl, show (finishTree u).nleaf = u.nleaf from rfl, hul, hun]
    rw [e]
    have hold : ∀ i ∈ s1.work, nodeAt (finishTree u).node i = nodeAt s1.node i := by
      intro i hi
      have hlt := mem_work_lt hscan.work hi
      rw [← nodeN_eq, hnode, hu.leaf i.toNat (by simpa using hlt), nodeN_eq]
      rfl
    refine hscan.sorted.imp_of_mem ?_
    intro i j hi hj hij
    rw [hold i hi, hold j hj]
    rcases hij with h | ⟨h, hlt⟩
    · exact .inl h
    · refine .inr ⟨h, ?_⟩
      have hjl := mem_work_lt hscan.work hj
      have hil := mem_work_lt hscan.work hi
      have hi' : i.toNat < (presentSymbols s).length := by omega
      have hj' : j.toNat < (presentSymbols s).length := by omega
      have e1 := hscan.leaf_eq hi'
      have e2 := hscan.leaf_eq hj'
      rw [nodeN_eq] at e1 e2
      rw [e1, e2]
      exact List.pairwise_iff_getElem.1 (presentSymbols_sorted s) _ _ hi' hj' hlt
  · have e1 := hu.frame
    have e2 := hscan.frame
    rw [hun, hul]
    conv_lhs => rw [e1]
    rw [e2]
    rfl

/-! ### Consequences -/

theorem presentSymbols_congr {s t : State} (h : t.freq = s.freq) : presentSymbols t = presentSymbols s := by
  rw [presentSymbols, presentSymbols]
  congr 1
  funext b
  rw [freqAt_congr h]

theorem freqTotal_congr {s t : State} (h : t.freq = s.freq) : freqTotal t = freqTotal s := by
  rw [freqTotal, freqTotal]
  congr 2
  funext b
  rw [freqAt_congr h]

/-- The root's frequency is the sum of all bins (R134). -/
theorem freqTotal_root {t : State} (h1 : TreeOk t) (h2 : LeavesOk t) :
    (nodeAt t.node t.root).freq.toNat = freqTotal t := by
  rw [← h1.total, freqTotal_eq]
  have := congrArg (fun l => (l.map fun p => p.2.toNat).sum) h2.ofFreq
  simpa only [List.map_map, Function.comp_def] using this

/-- NLEAF is the number of nonzero bins (R134). -/
theorem LeavesOk.nleaf_eq {t : State} (h : LeavesOk t) : t.nleaf.toNat = (presentSymbols t).length := by
  have := congrArg List.length h.ofFreq
  simpa using this

theorem finishTree_work_eq {u : State} (h : u.work.length = 1) : (finishTree u).work = [(finishTree u).root] := by
  obtain ⟨r, hr⟩ := List.length_eq_one_iff.1 h
  simp [finishTree, setTV, hr]

/-- No leaf is made when every bin is 0. -/
theorem addLeaves_zero {s : State} (h : ∀ b, freqAt s b = 0#64) : addLeaves s = s := by
  rw [addLeaves]
  generalize symbols = l
  induction l with
  | nil => rfl
  | cons b l ih => rw [List.foldl_cons, addLeaf, h b]; simpa using ih

/-- BUILD_TREE with every bin 0 (R135 (a)). -/
theorem buildTreeMain_zero {s : State} (h : ∀ b, freqAt s b = 0#64) :
    buildTreeMain s = .raised (raise .emptyInput 0x00#8 (startTree s)) := by
  have h1 : addLeaves (startTree s) = startTree s := addLeaves_zero h
  rw [buildTreeMain, h1]
  rfl

theorem TreeOk.congr {s t : State} (h : TreeOk s) (h1 : t.node = s.node) (h2 : t.ncount = s.ncount)
    (h3 : t.nleaf = s.nleaf) (h4 : t.root = s.root) : TreeOk t := by
  have hn : nodeN t = nodeN s := by funext k; rw [nodeN, nodeN, h1]
  have hc : childIndices t = childIndices s := by rw [childIndices, childIndices, h2, h3, hn]
  constructor
  · rw [h3]; exact h.leaves_pos
  · rw [h3]; exact h.leaves_le
  · rw [h2, h3]; exact h.count
  · rw [h4, h2]; exact h.root
  · rw [h3, hn]; exact h.leaf
  · rw [h2, h3, hn, h1]; exact h.inner
  · rw [hc, h2]; exact h.once
  · rw [h3, hn, h1, h4]; exact h.total

theorem LeavesOk.congr {s t : State} (h : LeavesOk s) (h0 : t.freq = s.freq) (h1 : t.node = s.node)
    (h3 : t.nleaf = s.nleaf) (h4 : t.leaflist = s.leaflist) : LeavesOk t := by
  have hn : nodeN t = nodeN s := by funext k; rw [nodeN, nodeN, h1]
  have hl : leafList t = leafList s := by rw [leafList, leafList, h3, h4]
  have hf : freqAt t = freqAt s := by funext b; exact freqAt_congr h0 b
  constructor
  · rw [h3, hn, presentSymbols_congr h0, hf]; exact h.ofFreq
  · rw [hl, h3]; exact h.listed
  · rw [hl, h1]; exact h.sorted

end Sys2Proof.Machine
end

