-- ==== Sys2Proof/Laws/Dict.lean ====
section
/-! SUPPORT. What BUILD_DICT's walk does (spec/42_dictionary_builder.md R150, R151), and the paths of a tree. -/

namespace Sys2Proof.Machine

/-! ### Paths -/

theorem leafPath_nil_leaf {nodes : Vector Node 511} {i : NodeIx} (h : (nodeAt nodes i).kind = .leaf) :
    leafPath nodes i [] = some (nodeAt nodes i).sym := by
  rw [leafPath, h]

theorem leafPath_leaf_eq {nodes : Vector Node 511} {i : NodeIx} {p : List Bool} {b : Byte}
    (h : (nodeAt nodes i).kind = .leaf) (hp : leafPath nodes i p = some b) : p = [] ∧ b = (nodeAt nodes i).sym := by
  cases p with
  | nil => rw [leafPath_nil_leaf h] at hp; exact ⟨rfl, (Option.some.inj hp).symm⟩
  | cons x p => rw [leafPath, h] at hp; simp at hp

theorem leafPath_cons {nodes : Vector Node 511} {i : NodeIx} (h : (nodeAt nodes i).kind = .internal)
    (x : Bool) (p : List Bool) (hx : childOf (nodeAt nodes i) x ≠ Config.nil) :
    leafPath nodes i (x :: p) = leafPath nodes (childOf (nodeAt nodes i) x) p := by
  rw [leafPath, h]
  simp only
  rw [if_neg hx]

theorem leafPath_internal_nil {nodes : Vector Node 511} {i : NodeIx} (h : (nodeAt nodes i).kind = .internal) :
    leafPath nodes i [] = none := by rw [leafPath, h]

/-- A path that ends at a leaf is no proper prefix of another: the code is prefix-free (R99). -/
theorem leafPath_prefix {nodes : Vector Node 511} (p : List Bool) : ∀ (i : NodeIx) (q : List Bool) (b c : Byte),
    leafPath nodes i p = some b → leafPath nodes i (p ++ q) = some c → q = [] ∧ b = c := by
  induction p with
  | nil =>
    intro i q b c hp hq
    cases hk : (nodeAt nodes i).kind with
    | leaf =>
      obtain ⟨-, hb⟩ := leafPath_leaf_eq hk hp
      obtain ⟨he, hc⟩ := leafPath_leaf_eq hk hq
      exact ⟨by simpa using he, by rw [hb, hc]⟩
    | internal => rw [leafPath_internal_nil hk] at hp; simp at hp
  | cons x p ih =>
    intro i q b c hp hq
    cases hk : (nodeAt nodes i).kind with
    | leaf => have := (leafPath_leaf_eq hk hp).1; simp at this
    | internal =>
      by_cases hx : childOf (nodeAt nodes i) x = Config.nil
      · rw [leafPath, hk] at hp; simp [hx] at hp
      · rw [List.cons_append, leafPath_cons hk x _ hx] at hq
        rw [leafPath_cons hk x _ hx] at hp
        exact ih _ q b c hp hq

/-! ### The walk -/

/-- What the walk needs of the nodes below `n`: the first `l` are leaves, the others have both children at lower indices. -/
def WalkOk (nodes : Vector Node 511) (l n : Nat) : Prop :=
  n ≤ 511 ∧ ∀ i : NodeIx, i.toNat < n →
    (i.toNat < l → (nodeAt nodes i).kind = .leaf) ∧
    (l ≤ i.toNat → (nodeAt nodes i).kind = .internal ∧ (nodeAt nodes i).left.toNat < i.toNat ∧
      (nodeAt nodes i).right.toNat < i.toNat)

theorem TreeOk.walkOk {s : State} (h : TreeOk s) : WalkOk s.node s.nleaf.toNat s.ncount.toNat := by
  have h1 := h.count
  have h2 := h.leaves_le
  have h3 := h.leaves_pos
  refine ⟨by omega, ?_⟩
  intro i hi
  refine ⟨fun hl => ?_, fun hl => ?_⟩
  · have := (h.leaf i.toNat hl).1
    rwa [nodeN_eq] at this
  · obtain ⟨a, -, b, c, -⟩ := h.inner i.toNat hi hl
    rw [nodeN_eq] at a b c
    exact ⟨a, b, c⟩

theorem TreeOk.root_lt {s : State} (h : TreeOk s) : s.root.toNat < s.ncount.toNat := by
  have h1 := h.count
  have h3 := h.leaves_pos
  have := h.root
  omega

theorem TreeOk.root_ne_nil {s : State} (h : TreeOk s) : s.root ≠ Config.nil := by
  have h1 := h.count
  have h2 := h.leaves_le
  have := h.root_lt
  exact ne_nil_of_lt (by omega)

/-- The levels a walk from node `i` may need. -/
def walkDepth (l i : Nat) : Nat := if i < l then 1 else i - l + 2

/-- What `Walk(i, c)` does on a well-shaped tree (R150): it completes; it changes DICT alone; an entry is either as before, and
then no path from `i` ends at its symbol, or the code of such a path behind `c`. -/
theorem walk_ok {l n : Nat} (d : Nat) : ∀ (i : NodeIx) (c : List Bool) (s : State),
    WalkOk s.node l n → i.toNat < n → walkDepth l i.toNat ≤ d →
    ∃ t, walk d i c s = .done t ∧ t = { s with dict := t.dict } ∧ ∀ b,
      (dictAt t b = dictAt s b ∧ ∀ p, leafPath s.node i p ≠ some b) ∨
      (∃ p, p.length < d ∧ leafPath s.node i p = some b ∧ dictAt t b = DictEntry.ofCode (c ++ p)) := by
  induction d with
  | zero => intro i c s _ _ hd; rw [walkDepth] at hd; split at hd <;> omega
  | succ d ih =>
    intro i c s hw hi hd
    obtain ⟨hn, hw'⟩ := hw
    obtain ⟨hleaf, hint⟩ := hw' i hi
    by_cases hl : i.toNat < l
    · have hk := hleaf hl
      refine ⟨setDict s (nodeAt s.node i).sym (DictEntry.ofCode c), by rw [walk, hk], rfl, ?_⟩
      intro b
      rw [dictAt_setDict]
      by_cases hb : b = (nodeAt s.node i).sym
      · refine .inr ⟨[], by simp, by rw [leafPath_nil_leaf hk, hb], ?_⟩
        rw [if_pos hb, List.append_nil]
      · refine .inl ⟨by rw [if_neg hb], fun p hp => hb (leafPath_leaf_eq hk hp).2⟩
    · obtain ⟨hk, hll, hrr⟩ := hint (by omega)
      rw [walkDepth, if_neg hl] at hd
      have hdl : walkDepth l (nodeAt s.node i).left.toNat ≤ d := by rw [walkDepth]; split <;> omega
      have hdr : walkDepth l (nodeAt s.node i).right.toNat ≤ d := by rw [walkDepth]; split <;> omega
      obtain ⟨t1, h1, f1, e1⟩ := ih _ (c ++ [false]) s ⟨hn, hw'⟩ (by omega) hdl
      have hn1 : t1.node = s.node := (congrArg State.node f1 :)
      obtain ⟨t2, h2, f2, e2⟩ := ih (nodeAt s.node i).right (c ++ [true]) t1 (by rw [hn1]; exact ⟨hn, hw'⟩) (by omega) hdr
      have hnl : (nodeAt s.node i).left ≠ Config.nil := ne_nil_of_lt (by omega)
      have hnr : (nodeAt s.node i).right ≠ Config.nil := ne_nil_of_lt (by omega)
      refine ⟨t2, ?_, ?_, ?_⟩
      · rw [walk, hk]
        simp only
        rw [if_neg (by simp [hnl, hnr]), h1, andThen_done, hn1, h2]
      · rw [f2, f1]
      · intro b
        rw [hn1] at e2
        have hpl : ∀ p, leafPath s.node i (false :: p) = leafPath s.node (nodeAt s.node i).left p := fun p =>
          leafPath_cons hk false p hnl
        have hpr : ∀ p, leafPath s.node i (true :: p) = leafPath s.node (nodeAt s.node i).right p := fun p =>
          leafPath_cons hk true p hnr
        rcases e2 b with ⟨h2b, n2⟩ | ⟨p, hp, hp2, hp3⟩
        · rcases e1 b with ⟨h1b, n1⟩ | ⟨p, hp, hp2, hp3⟩
          · refine .inl ⟨by rw [h2b, h1b], ?_⟩
            intro p hp
            match p with
            | [] => rw [leafPath_internal_nil hk] at hp; simp at hp
            | false :: p => rw [hpl] at hp; exact n1 p hp
            | true :: p => rw [hpr] at hp; exact n2 p hp
          · refine .inr ⟨false :: p, by simpa using hp, by rw [hpl]; exact hp2, ?_⟩
            rw [h2b, hp3]; simp
        · refine .inr ⟨true :: p, by simpa using hp, by rw [hpr]; exact hp2, ?_⟩
          rw [hp3]; simp

/-! ### The walk on a node memory of any shape -/

theorem innerPath_internal {nodes : Vector Node 511} {i : NodeIx} {p : List Bool} (h : innerPath nodes i p = true) :
    (nodeAt nodes i).kind = .internal := by
  cases p <;> simp_all [innerPath]

theorem innerPath_cons {nodes : Vector Node 511} {i : NodeIx} (h : (nodeAt nodes i).kind = .internal) {b : Bool}
    (hc : childOf (nodeAt nodes i) b ≠ Config.nil) (p : List Bool) :
    innerPath nodes i (b :: p) = innerPath nodes (childOf (nodeAt nodes i) b) p := by
  simp [innerPath, h, hc]

theorem lacksChild_eq_false {n : Node} : lacksChild n = false ↔ n.left ≠ Config.nil ∧ n.right ≠ Config.nil := by
  simp [lacksChild]

theorem lacksChild_eq_true {n : Node} : lacksChild n = true ↔ n.left = Config.nil ∨ n.right = Config.nil := by
  simp [lacksChild]

/-- One level of the walk at an Internal node (R150). -/
theorem walk_internal {i : NodeIx} {s : State} (h : (nodeAt s.node i).kind = .internal) (d : Nat) (c : List Bool) :
    walk (d + 1) i c s =
      if lacksChild (nodeAt s.node i) then .raised (raise .malformedTree (encodeWord .buildDict) s)
      else (walk d (nodeAt s.node i).left (c ++ [false]) s).andThen fun t =>
        walk d (nodeAt t.node i).right (c ++ [true]) t := by
  rw [walk, h]
  simp only [← lacksChild_eq_true]

/-- What the walk from `i` behind `c` has done to DICT when it stands in `t`: it changed nothing else, and an entry is as before or
the code, behind `c`, of a path from `i`. -/
def Walked (d : Nat) (i : NodeIx) (c : List Bool) (s t : State) : Prop :=
  t = { s with dict := t.dict } ∧ ∀ b, dictAt t b = dictAt s b ∨
    ∃ p, p.length < d ∧ leafPath s.node i p = some b ∧ dictAt t b = DictEntry.ofCode (c ++ p)

theorem Walked.refl (d : Nat) (i : NodeIx) (c : List Bool) (s : State) : Walked d i c s s := ⟨rfl, fun _ => .inl rfl⟩

theorem Walked.node {d : Nat} {i : NodeIx} {c : List Bool} {s t : State} (h : Walked d i c s t) : t.node = s.node := by
  rw [h.1]

/-- A child's walk is part of its parent's. -/
theorem Walked.up {d : Nat} {i : NodeIx} {b : Bool} {c : List Bool} {s t u : State}
    (hk : (nodeAt s.node i).kind = .internal) (hc : childOf (nodeAt s.node i) b ≠ Config.nil)
    (h1 : Walked (d + 1) i c s t) (h2 : Walked d (childOf (nodeAt s.node i) b) (c ++ [b]) t u) :
    Walked (d + 1) i c s u := by
  obtain ⟨f1, e1⟩ := h1
  obtain ⟨f2, e2⟩ := h2
  have hn : t.node = s.node := by rw [f1]
  refine ⟨f2.trans (by conv_lhs => rw [f1]), fun x => ?_⟩
  rcases e2 x with h | ⟨p, hp, hp2, hp3⟩
  · rw [h]; exact e1 x
  · refine .inr ⟨b :: p, by simpa using hp, ?_, by rw [hp3]; simp⟩
    rw [leafPath_cons hk b p hc]; rw [hn] at hp2; exact hp2

/-- Everything the walk can do (R150): it completes or raises MalformedTree, after storing codes of paths; and it stops only where
a node with both children is too deep. -/
theorem walk_cases (d : Nat) : ∀ (i : NodeIx) (c : List Bool) (s : State),
    (∃ t, walk d i c s = .done t ∧ Walked d i c s t) ∨
    (∃ t, walk d i c s = .raised (raise .malformedTree (encodeWord .buildDict) t) ∧ Walked d i c s t) ∨
    (walk d i c s = .stuck .codeTooLong ∧ (0 < d → ∃ p, innerPath s.node i p = true ∧
      lacksChild (nodeAt s.node (reach s.node i p)) = false ∧ d ≤ p.length + 1)) := by
  induction d with
  | zero => intro i c s; exact .inr (.inr ⟨rfl, fun h => absurd h (by omega)⟩)
  | succ d ih =>
    intro i c s
    cases hk : (nodeAt s.node i).kind with
    | leaf =>
      refine .inl ⟨setDict s (nodeAt s.node i).sym (DictEntry.ofCode c), by rw [walk, hk], rfl, fun b => ?_⟩
      rw [dictAt_setDict]
      by_cases hb : b = (nodeAt s.node i).sym
      · exact .inr ⟨[], by simp, by rw [leafPath_nil_leaf hk, hb], by rw [if_pos hb, List.append_nil]⟩
      · exact .inl (by rw [if_neg hb])
    | internal =>
      rw [walk_internal hk]
      cases hlc : lacksChild (nodeAt s.node i) with
      | true => exact .inr (.inl ⟨s, by simp, Walked.refl _ _ _ s⟩)
      | false =>
        obtain ⟨hl, hr⟩ := lacksChild_eq_false.1 hlc
        have deep : ∀ b, childOf (nodeAt s.node i) b ≠ Config.nil →
            (0 < d → ∃ p, innerPath s.node (childOf (nodeAt s.node i) b) p = true ∧
              lacksChild (nodeAt s.node (reach s.node (childOf (nodeAt s.node i) b) p)) = false ∧ d ≤ p.length + 1) →
            ∃ p, innerPath s.node i p = true ∧ lacksChild (nodeAt s.node (reach s.node i p)) = false ∧
              d + 1 ≤ p.length + 1 := by
          intro b hc h
          rcases Nat.eq_zero_or_pos d with h0 | h0
          · exact ⟨[], by simp [innerPath, hk], hlc, by simp [h0]⟩
          · obtain ⟨p, h1, h2, h3⟩ := h h0
            exact ⟨b :: p, by rw [innerPath_cons hk hc]; exact h1, h2, by simpa using h3⟩
        simp only [Bool.false_eq_true, if_false]
        rcases ih (nodeAt s.node i).left (c ++ [false]) s with ⟨t, e, w⟩ | ⟨t, e, w⟩ | ⟨e, h⟩
        · have w1 := (Walked.refl (d + 1) i c s).up (b := false) hk hl w
          have hn := w.node
          rw [e, andThen_done]
          simp only [hn]
          rcases ih (nodeAt s.node i).right (c ++ [true]) t with ⟨u, e', w'⟩ | ⟨u, e', w'⟩ | ⟨e', h⟩
          · exact .inl ⟨u, e', w1.up (b := true) hk hr w'⟩
          · exact .inr (.inl ⟨u, e', w1.up (b := true) hk hr w'⟩)
          · rw [hn] at h
            exact .inr (.inr ⟨e', fun _ => deep true hr h⟩)
        · rw [e, andThen_raised]
          exact .inr (.inl ⟨t, rfl, (Walked.refl (d + 1) i c s).up (b := false) hk hl w⟩)
        · rw [e, andThen_stuck]
          exact .inr (.inr ⟨rfl, fun _ => deep false hl h⟩)

/-- The walk raises at an Internal node that lacks a child, when neither that node nor a node left of it is too deep (R150). -/
theorem walk_raises (q : List Bool) : ∀ (d : Nat) (i : NodeIx) (c : List Bool) (s : State),
    innerPath s.node i q = true → lacksChild (nodeAt s.node (reach s.node i q)) = true → q.length < d →
    (∀ p x r, q = p ++ true :: x → innerPath s.node i (p ++ false :: r) = true →
      lacksChild (nodeAt s.node (reach s.node i (p ++ false :: r))) = false → (p ++ false :: r).length + 1 < d) →
    ∃ t, walk d i c s = .raised (raise .malformedTree (encodeWord .buildDict) t) ∧ Walked d i c s t := by
  induction q with
  | nil =>
    intro d i c s hq hlc hd _
    obtain ⟨d, rfl⟩ : ∃ e, d = e + 1 := ⟨d - 1, by simp at hd; omega⟩
    exact ⟨s, by rw [walk_internal (innerPath_internal hq)]; exact if_pos hlc, Walked.refl _ _ _ s⟩
  | cons b q ih =>
    intro d i c s hq hlc hd hleft
    obtain ⟨d, rfl⟩ : ∃ e, d = e + 1 := ⟨d - 1, by simp at hd; omega⟩
    have hk := innerPath_internal hq
    rw [walk_internal hk]
    cases hroot : lacksChild (nodeAt s.node i) with
    | true => exact ⟨s, by simp, Walked.refl _ _ _ s⟩
    | false =>
      obtain ⟨hl, hr⟩ := lacksChild_eq_false.1 hroot
      simp only [Bool.false_eq_true, if_false]
      have hd' : q.length < d := by simpa using hd
      cases b with
      | false =>
        rw [innerPath_cons (b := false) hk hl] at hq
        obtain ⟨t, e, w⟩ := ih d _ (c ++ [false]) s hq hlc hd' fun p x r hp h1 h2 => by
          have := hleft (false :: p) x r (by rw [hp]; rfl) (by rw [List.cons_append, innerPath_cons (b := false) hk hl]; exact h1) h2
          simpa using this
        exact ⟨t, by rw [show (nodeAt s.node i).left = childOf (nodeAt s.node i) false from rfl, e]; rfl,
          (Walked.refl (d + 1) i c s).up (b := false) hk hl w⟩
      | true =>
        rw [innerPath_cons (b := true) hk hr] at hq
        rcases walk_cases d (nodeAt s.node i).left (c ++ [false]) s with ⟨t, e, w⟩ | ⟨t, e, w⟩ | ⟨e, h⟩
        · have w1 := (Walked.refl (d + 1) i c s).up (b := false) hk hl w
          have hn := w.node
          rw [e, andThen_done]
          simp only [hn]
          obtain ⟨u, e', w'⟩ := ih d (nodeAt s.node i).right (c ++ [true]) t (by rw [hn]; exact hq) (by rw [hn]; exact hlc)
            hd' fun p x r hp h1 h2 => by
              rw [hn] at h1 h2
              have := hleft (true :: p) x r (by rw [hp]; rfl) (by rw [List.cons_append, innerPath_cons (b := true) hk hr]; exact h1) h2
              simpa using this
          exact ⟨u, e', w1.up (b := true) hk hr w'⟩
        · rw [e, andThen_raised]
          exact ⟨t, rfl, (Walked.refl (d + 1) i c s).up (b := false) hk hl w⟩
        · exfalso
          obtain ⟨p, h1, h2, h3⟩ := h (by omega)
          have := hleft [] q p rfl (by rw [List.nil_append, innerPath_cons (b := false) hk hl]; exact h1) h2
          simp at this
          omega

/-! ### Every present symbol has a path -/

theorem reach_append (nodes : Vector Node 511) (p : List Bool) : ∀ (i : NodeIx) (q : List Bool),
    reach nodes i (p ++ q) = reach nodes (reach nodes i p) q := by
  induction p with
  | nil => intro i q; rfl
  | cons b p ih => intro i q; exact ih _ q

/-- A path in the node memory that arrives at a leaf is a leaf path. -/
theorem leafPath_of_reach {nodes : Vector Node 511} {l n : Nat} (hw : WalkOk nodes l n) (p : List Bool) :
    ∀ i : NodeIx, i.toNat < n → (∀ q r, p = q ++ r → r ≠ [] → (nodeAt nodes (reach nodes i q)).kind = .internal) →
    (nodeAt nodes (reach nodes i p)).kind = .leaf →
    leafPath nodes i p = some (nodeAt nodes (reach nodes i p)).sym := by
  induction p with
  | nil => intro i _ _ hk; exact leafPath_nil_leaf hk
  | cons b p ih =>
    intro i hi hint hk
    have hki : (nodeAt nodes i).kind = .internal := hint [] (b :: p) rfl (by simp)
    have hil : l ≤ i.toNat := by
      by_contra hlt
      have := (hw.2 i hi).1 (by omega)
      rw [this] at hki; simp at hki
    obtain ⟨-, h1, h2⟩ := (hw.2 i hi).2 hil
    have hc : (childOf (nodeAt nodes i) b).toNat < i.toNat := by cases b <;> assumption
    have hn := hw.1
    rw [leafPath_cons hki b p (ne_nil_of_lt (by omega))]
    exact ih _ (by omega) (fun q r hqr hr => hint (b :: q) r (by rw [hqr]; rfl) hr) hk

/-- Every node of a valid tree is reached from the root, through Internal nodes only. -/
theorem TreeOk.reached {s : State} (h : TreeOk s) : ∀ (m k : Nat), s.ncount.toNat - 1 - k = m → k < s.ncount.toNat →
    ∃ p, reach s.node s.root p = BitVec.ofNat 9 k ∧
      ∀ q r, p = q ++ r → r ≠ [] → (nodeAt s.node (reach s.node s.root q)).kind = .internal := by
  have hc := h.count
  have hle := h.leaves_le
  have hpos := h.leaves_pos
  intro m
  induction m using Nat.strongRecOn with
  | ind m ih =>
    intro k hm hk
    by_cases hr : k = s.ncount.toNat - 1
    · refine ⟨[], ?_, ?_⟩
      · refine BitVec.eq_of_toNat_eq ?_
        rw [toNat_ofNat9 (by omega), reach, h.root, hr]
      · intro q r hqr hr'
        have := List.append_eq_nil_iff.1 hqr.symm
        exact absurd this.2 hr'
    · have hmem : k ∈ childIndices s := h.once.mem_iff.2 (List.mem_range.2 (by omega))
      rw [childIndices] at hmem
      obtain ⟨j, hj, hjk⟩ := List.mem_flatMap.1 hmem
      have hj := List.mem_range.1 hj
      obtain ⟨a1, -, a2, a3, -⟩ := h.inner (s.nleaf.toNat + j) (by omega) (by omega)
      obtain ⟨b, hb⟩ : ∃ b, (childOf (nodeN s (s.nleaf.toNat + j)) b).toNat = k := by
        simp only [List.mem_cons, List.not_mem_nil, or_false] at hjk
        rcases hjk with e | e
        · exact ⟨false, e.symm⟩
        · exact ⟨true, e.symm⟩
      have hlt : k < s.nleaf.toNat + j := by rw [← hb]; cases b <;> assumption
      obtain ⟨p, hp, hint⟩ := ih (s.ncount.toNat - 1 - (s.nleaf.toNat + j)) (by omega) (s.nleaf.toNat + j) rfl (by omega)
      refine ⟨p ++ [b], ?_, ?_⟩
      · rw [reach_append, hp]
        refine BitVec.eq_of_toNat_eq ?_
        rw [toNat_ofNat9 (by omega), ← hb]
        rfl
      · intro q r hqr hr'
        rcases List.eq_nil_or_concat r with e | ⟨r', x, e⟩
        · exact absurd e hr'
        · rw [List.concat_eq_append] at e
          subst e
          rw [← List.append_assoc] at hqr
          obtain ⟨e1, -⟩ := List.append_inj' hqr rfl
          by_cases hr2 : r' = []
          · subst hr2
            rw [List.append_nil] at e1
            rw [← e1, hp]
            exact a1
          · exact hint q r' e1 hr2

/-- The leaves' symbols are those of FREQ. -/
theorem LeavesOk.leaf_sym {s : State} (h : LeavesOk s) {k : Nat} (hk : k < s.nleaf.toNat) :
    freqAt s (nodeN s k).sym ≠ 0#64 := by
  have hm : ((nodeN s k).sym, (nodeN s k).freq) ∈ (presentSymbols s).map fun b => (b, freqAt s b) := by
    rw [← h.ofFreq]
    exact List.mem_map.2 ⟨k, List.mem_range.2 hk, rfl⟩
  obtain ⟨b, hb, e⟩ := List.mem_map.1 hm
  rw [Prod.mk.injEq] at e
  rw [← e.1]
  exact mem_presentSymbols.1 hb

theorem LeavesOk.exists_leaf {s : State} (h : LeavesOk s) {b : Byte} (hb : freqAt s b ≠ 0#64) :
    ∃ k, k < s.nleaf.toNat ∧ (nodeN s k).sym = b ∧ (nodeN s k).freq = freqAt s b := by
  have hm : (b, freqAt s b) ∈ (List.range s.nleaf.toNat).map fun i => ((nodeN s i).sym, (nodeN s i).freq) := by
    rw [h.ofFreq]
    exact List.mem_map.2 ⟨b, mem_presentSymbols.2 hb, rfl⟩
  obtain ⟨k, hk, e⟩ := List.mem_map.1 hm
  rw [Prod.mk.injEq] at e
  exact ⟨k, List.mem_range.1 hk, e.1, e.2⟩

/-- A symbol with a nonzero bin has a path from the root of its tree (R151). -/
theorem exists_leafPath {s : State} (ht : TreeOk s) (hl : LeavesOk s) {b : Byte} (hb : freqAt s b ≠ 0#64) :
    ∃ p, leafPath s.node s.root p = some b := by
  obtain ⟨k, hk, hs, -⟩ := hl.exists_leaf hb
  have hc := ht.count
  obtain ⟨p, hp, hint⟩ := ht.reached _ k rfl (by omega)
  refine ⟨p, ?_⟩
  have hleaf : (nodeAt s.node (reach s.node s.root p)).kind = .leaf := by rw [hp]; exact (ht.leaf k hk).1
  rw [leafPath_of_reach ht.walkOk p s.root ht.root_lt hint hleaf, hp, ← hs]
  rfl

/-- Only symbols with a nonzero bin have a path. -/
theorem leafPath_present {nodes : Vector Node 511} {l n : Nat} (hw : WalkOk nodes l n) (p : List Bool) :
    ∀ i : NodeIx, i.toNat < n → ∀ b, leafPath nodes i p = some b →
    ∃ j : NodeIx, j.toNat < l ∧ (nodeAt nodes j).sym = b := by
  induction p with
  | nil =>
    intro i hi b hb
    cases hk : (nodeAt nodes i).kind with
    | internal => rw [leafPath_internal_nil hk] at hb; simp at hb
    | leaf =>
      refine ⟨i, ?_, (leafPath_leaf_eq hk hb).2.symm⟩
      by_contra hlt
      have := ((hw.2 i hi).2 (by omega)).1
      rw [this] at hk; simp at hk
  | cons x p ih =>
    intro i hi b hb
    cases hk : (nodeAt nodes i).kind with
    | leaf => have := (leafPath_leaf_eq hk hb).1; simp at this
    | internal =>
      have hil : l ≤ i.toNat := by
        by_contra hlt
        have := (hw.2 i hi).1 (by omega)
        rw [this] at hk; simp at hk
      obtain ⟨-, h1, h2⟩ := (hw.2 i hi).2 hil
      have hn := hw.1
      have hc : (childOf (nodeAt nodes i) x).toNat < i.toNat := by cases x <;> assumption
      rw [leafPath_cons hk x p (ne_nil_of_lt (by omega))] at hb
      exact ih _ (by omega) b hb

/-- What BUILD_DICT leaves on a valid tree (R151). -/
theorem buildDictMain_ok {s : State} (ht : TreeOk s) (hl : LeavesOk s) :
    ∃ t, buildDictMain s = .done t ∧ DictOk t ∧ t = { s with
      dv := true
      dict := t.dict } ∧
      (∀ b, freqAt s b = 0#64 → dictAt t b = { dictAt s b with valid := false }) := by
  have hc := ht.count
  have hle := ht.leaves_le
  have hpos := ht.leaves_pos
  have hroot := ht.root
  generalize hs0 : invalidateEntries (clearDictFlag s) = s0
  have hnode : s0.node = s.node := by rw [← hs0]; rfl
  obtain ⟨t, h1, f1, e1⟩ := walk_ok (l := s.nleaf.toNat) (n := s.ncount.toNat) (Config.codeLenMax + 1) s.root [] s0
    (by rw [hnode]; exact ht.walkOk) ht.root_lt (by
      rw [walkDepth, Config.codeLenMax]; split <;> omega)
  have hfr : setDV t = { s with dv := true, dict := (setDV t).dict } := by
    rw [f1, ← hs0]; rfl
  have hent : ∀ b, (freqAt s b = 0#64 ∧ dictAt t b = { dictAt s b with valid := false }) ∨
      (freqAt s b ≠ 0#64 ∧ ∃ p, p.length ≤ 255 ∧ leafPath s.node s.root p = some b ∧ dictAt t b = DictEntry.ofCode p) := by
    intro b
    have hd0 : dictAt s0 b = { dictAt s b with valid := false } := by
      rw [← hs0]; exact dictAt_invalidateEntries _ b
    rcases e1 b with ⟨h2, hno⟩ | ⟨p, hp, hp2, hp3⟩
    · refine .inl ⟨?_, by rw [h2, hd0]⟩
      by_contra hb
      obtain ⟨p, hp⟩ := exists_leafPath ht hl hb
      rw [hnode] at hno
      exact hno p hp
    · rw [hnode] at hp2
      refine .inr ⟨?_, p, by rw [Config.codeLenMax] at hp; omega, hp2, by simpa using hp3⟩
      obtain ⟨j, hj, hs⟩ := leafPath_present ht.walkOk p s.root ht.root_lt b hp2
      rw [← hs, ← nodeN_eq]
      exact hl.leaf_sym hj
  refine ⟨setDV t, ?_, ⟨?_, ?_, ?_⟩, hfr, ?_⟩
  · rw [buildDictMain, if_neg ht.root_ne_nil, hs0, h1]; rfl
  · intro b
    have hq : freqAt (setDV t) b = freqAt s b := freqAt_congr (by rw [hfr]) b
    have hd : dictAt (setDV t) b = dictAt t b := rfl
    rw [hq, hd]
    rcases hent b with ⟨h, e⟩ | ⟨h, p, -, -, e⟩
    · rw [e]; simp [h]
    · rw [e]; simp [h]
  · intro b hb
    have hd : dictAt (setDV t) b = dictAt t b := rfl
    have hnn : (setDV t).node = s.node := by rw [hfr]
    have hrr : (setDV t).root = s.root := by rw [hfr]
    rw [hd] at hb ⊢
    rw [hnn, hrr]
    rcases hent b with ⟨h, e⟩ | ⟨h, p, hp, hp2, e⟩
    · rw [e] at hb; simp at hb
    · rw [e, code_ofCode p hp]; exact hp2
  · intro b hb
    have hd : dictAt (setDV t) b = dictAt t b := rfl
    rw [hd] at hb ⊢
    rcases hent b with ⟨h, e⟩ | ⟨h, p, hp, hp2, e⟩
    · rw [e] at hb; simp at hb
    · rw [e, code_ofCode p hp]; exact toList_ofCode p hp
  · intro b hb
    have hd : dictAt (setDV t) b = dictAt t b := rfl
    rw [hd]
    rcases hent b with ⟨-, e⟩ | ⟨h, -⟩
    · exact e
    · exact absurd hb h

theorem DictOk.congr {s t : State} (h : DictOk s) (h0 : t.freq = s.freq) (h1 : t.node = s.node)
    (h3 : t.root = s.root) (h4 : t.dict = s.dict) : DictOk t := by
  have hd : dictAt t = dictAt s := by funext b; exact dictAt_congr h4 b
  constructor
  · intro b; rw [hd, freqAt_congr h0]; exact h.valid b
  · intro b; rw [hd, h1, h3]; exact h.path b
  · intro b; rw [hd]; exact h.stored b

/-- A path from a node of a well-shaped tree has at most as many bits as there are levels below it. -/
theorem leafPath_length {nodes : Vector Node 511} {l n : Nat} (hw : WalkOk nodes l n) (p : List Bool) :
    ∀ i : NodeIx, i.toNat < n → ∀ b, leafPath nodes i p = some b → p.length + 1 ≤ walkDepth l i.toNat := by
  induction p with
  | nil => intro i _ b _; rw [walkDepth]; split <;> simp
  | cons x p ih =>
    intro i hi b hb
    cases hk : (nodeAt nodes i).kind with
    | leaf => have := (leafPath_leaf_eq hk hb).1; simp at this
    | internal =>
      have hil : l ≤ i.toNat := by
        by_contra hlt
        have := (hw.2 i hi).1 (by omega)
        rw [this] at hk; simp at hk
      obtain ⟨-, h1, h2⟩ := (hw.2 i hi).2 hil
      have hn := hw.1
      have hc : (childOf (nodeAt nodes i) x).toNat < i.toNat := by cases x <;> assumption
      rw [leafPath_cons hk x p (ne_nil_of_lt (by omega))] at hb
      have := ih _ (by omega) b hb
      rw [walkDepth] at this ⊢
      rw [if_neg (by omega)]
      simp only [List.length_cons]
      split at this <;> omega

end Sys2Proof.Machine
end

