-- ==== Sys2Proof/Laws/Frames.lean ====
section
/-! SUPPORT. What each command's pseudocode may change, whatever way it ends (spec/30_encoding.md R93, spec/10_state.md R34):
nothing outside the command's row of the operand table, and the streams only through InRead and OutWrite. -/

namespace Sys2Proof.Machine

/-- From `s` to `t` a piece of command `i` wrote only the command's operands and moved the streams only by accesses. -/
def Keeps (i : Instr) (s t : State) : Prop := WritesOnly i s t ∧ ∃ as, StreamsMovedBy as s t

theorem WritesOnly.trans {i : Instr} {s t u : State} (h1 : WritesOnly i s t) (h2 : WritesOnly i t u) :
    WritesOnly i s u := by
  cases i with
  | clear => simp only [WritesOnly] at *; rw [h2, h1]
  | count => exact ⟨h2.1.trans h1.1, h2.2.trans (by conv_lhs => rw [h1.2])⟩
  | buildTree =>
    obtain ⟨d1, f1⟩ := h1
    obtain ⟨d2, f2⟩ := h2
    refine ⟨?_, f2.trans (by conv_lhs => rw [f1])⟩
    have e : t.dict = (invalidateEntries s).dict → (invalidateEntries t).dict = (invalidateEntries s).dict := by
      intro e; simp [e, invalidated_invalidated]
    rcases d1 with d1 | d1 <;> rcases d2 with d2 | d2
    · exact .inl (d2.trans d1)
    · exact .inr (by rw [d2]; simp [d1])
    · exact .inr (d2.trans d1)
    · exact .inr (d2.trans (e d1))
  | buildDict => exact Eq.trans h2 (by conv_lhs => rw [h1])
  | encMeta => exact Eq.trans h2 (by conv_lhs => rw [h1])
  | decMeta => exact ⟨h2.1.trans h1.1, h2.2.trans (by conv_lhs => rw [h1.2])⟩
  | pack => exact ⟨h2.1.trans h1.1, h2.2.trans (by conv_lhs => rw [h1.2])⟩
  | decode => exact ⟨h2.1.trans h1.1, h2.2.trans (by conv_lhs => rw [h1.2])⟩
  | nop => exact Eq.trans h2 h1

theorem Keeps.trans {i : Instr} {s t u : State} (h1 : Keeps i s t) (h2 : Keeps i t u) : Keeps i s u := by
  obtain ⟨w1, as, m1⟩ := h1
  obtain ⟨w2, bs, m2⟩ := h2
  exact ⟨w1.trans w2, as ++ bs, m1.trans m2⟩

/-- A piece that leaves the streams alone. -/
theorem Keeps.still {i : Instr} {s t : State} (h : WritesOnly i s t) (hi : t.inp = s.inp) (ho : t.out = s.out)
    (ha : t.accesses = s.accesses) : Keeps i s t :=
  ⟨h, [], (StreamsMovedBy.refl s).congr hi ho ha⟩

theorem keeps_raise {i : Instr} (hi : i ≠ .clear) (hn : i ≠ .nop) (k : ErrKind) (w : Byte) (s : State) :
    Keeps i s (raise k w s) := by
  refine .still ?_ rfl rfl rfl
  cases i <;> first | exact absurd rfl hi | exact absurd rfl hn | exact ⟨rfl, rfl⟩ | exact ⟨.inl rfl, rfl⟩ | rfl

theorem keeps_phase {i : Instr} (hi : i ≠ .clear) (hn : i ≠ .nop) (p : Phase) (s : State) :
    Keeps i s { s with phase := p } := by
  refine .still ?_ rfl rfl rfl
  cases i <;> first | exact absurd rfl hi | exact absurd rfl hn | exact ⟨rfl, rfl⟩ | exact ⟨.inl rfl, rfl⟩ | rfl

/-- The commands that read IN. -/
def Reads (i : Instr) : Prop := i = .count ∨ i = .decMeta ∨ i = .pack ∨ i = .decode

theorem keeps_inRead {i : Instr} (hi : Reads i) {s s' : State} {b : Byte} (h : inRead s = some (b, s')) :
    Keeps i s s' := by
  refine ⟨?_, _, streamsMovedBy_inRead h⟩
  rcases inRead_cases s with ⟨-, hn⟩ | ⟨b', l, -, hs⟩
  · rw [hn] at h; simp at h
  · rw [hs] at h
    simp only [Option.some.injEq, Prod.mk.injEq] at h
    obtain ⟨rfl, rfl⟩ := h
    rcases hi with rfl | rfl | rfl | rfl <;> exact ⟨rfl, rfl⟩

/-- The commands that write OUT. -/
def Writes (i : Instr) : Prop := i = .encMeta ∨ i = .pack ∨ i = .decode

theorem keeps_outWrite {i : Instr} (hi : Writes i) (b : Byte) (s : State) : Keeps i s (outWrite b s) := by
  refine ⟨?_, _, streamsMovedBy_outWrite b s⟩
  rcases hi with rfl | rfl | rfl <;> first | exact ⟨rfl, rfl⟩ | rfl

theorem keeps_outWriteAll {i : Instr} (hi : Writes i) (bs : List Byte) (s : State) : Keeps i s (outWriteAll bs s) := by
  refine ⟨?_, _, streamsMovedBy_outWriteAll bs s⟩
  rw [outWriteAll_eq]
  rcases hi with rfl | rfl | rfl <;> first | exact ⟨rfl, rfl⟩ | rfl

/-! ### The loop -/

theorem keeps_loop {i : Instr} {body : State → Iter} (h : ∀ s, (body s).All (Keeps i s)) (n : Nat) (s : State)
    (hr : Keeps i s s) : (loop body n s).All (Keeps i s) := by
  refine loop_all (P := Keeps i s) (fun t ht => ?_) n s hr
  have := h t
  cases hb : body t with
  | again u => rw [hb] at this; exact ht.trans this
  | exit u => rw [hb] at this; exact ht.trans this
  | raised u => rw [hb] at this; exact ht.trans this
  | stuck f => trivial

theorem keeps_refl {i : Instr} (hi : i ≠ .clear) (s : State) : Keeps i s s := by
  refine .still ?_ rfl rfl rfl
  cases i <;> first | exact absurd rfl hi | exact ⟨rfl, rfl⟩ | exact ⟨.inl rfl, rfl⟩ | rfl

/-- A part and what follows it. -/
theorem keeps_andThen {i : Instr} {s : State} {r : Run} {k : State → Run} (h : r.All (Keeps i s))
    (hk : ∀ t, (k t).All (Keeps i t)) : (r.andThen k).All (Keeps i s) := by
  refine h.andThen (fun t ht => (hk t).imp fun u hu => ht.trans hu) fun t ht => ht

theorem keeps_require {i : Instr} (hi : i ≠ .clear) (hn : i ≠ .nop) {c : Bool} {w : Byte} {body : State → Run} {s : State}
    (h : (body s).All (Keeps i s)) : (require c w body s).All (Keeps i s) := by
  rw [require]
  split
  · exact h
  · exact keeps_raise hi hn _ _ s

/-- From a command's pseudocode to the command (R222). -/
theorem keeps_accept {i : Instr} (hi : i ≠ .clear) (hn : i ≠ .nop) {body : State → Run} {s t : State}
    (h : ∀ u r, body u = r → r.All (Keeps i u)) (ht : accept body s = .next t) : Keeps i s t := by
  rcases accept_next ht with ⟨-, rfl⟩ | ⟨-, u, hu, rfl⟩ | ⟨-, hu⟩
  · exact keeps_refl hi _
  · have := h { s with phase := .busy } _ hu
    exact ((keeps_phase hi hn .busy s).trans this).trans (keeps_phase hi hn .idle u)
  · have := h { s with phase := .busy } _ hu
    exact (keeps_phase hi hn .busy s).trans this

/-! ### COUNT -/

theorem keeps_countStep (s : State) : (countStep s).All (Keeps .count s) := by
  rw [countStep]
  cases h : inRead s with
  | none => exact keeps_refl (by simp) s
  | some p =>
    obtain ⟨b, s1⟩ := p
    have h1 : Keeps .count s s1 := keeps_inRead (.inl rfl) h
    simp only
    split
    · exact h1.trans (keeps_raise (by simp) (by simp) _ _ s1)
    · exact h1.trans (.still ⟨rfl, rfl⟩ rfl rfl rfl)

theorem keeps_countBody (s : State) : (countBody s).All (Keeps .count s) := by
  rw [countBody]
  refine keeps_andThen (s := s) ?_ fun t => .still ⟨rfl, rfl⟩ rfl rfl rfl
  have h0 : Keeps .count s (clearFreq (clearFlags s)) := .still ⟨rfl, rfl⟩ rfl rfl rfl
  exact (keeps_loop keeps_countStep _ _ (keeps_refl (by simp) _)).imp fun u hu => h0.trans hu

/-! ### BUILD_TREE -/

theorem keeps_addNode (n : Node) (s : State) : Keeps .buildTree s (addNode n s) :=
  .still ⟨.inl rfl, rfl⟩ rfl rfl rfl

theorem keeps_addLeaves (s : State) : Keeps .buildTree s (addLeaves s) := by
  rw [addLeaves]
  generalize symbols = l
  induction l generalizing s with
  | nil => exact keeps_refl (by simp) s
  | cons b l ih =>
    refine Keeps.trans ?_ (ih (addLeaf s b))
    rw [addLeaf]
    split
    · exact keeps_refl (by simp) s
    · exact keeps_addNode _ s

theorem keeps_mergeStep (s : State) : (mergeStep s).All (Keeps .buildTree s) := by
  rw [mergeStep]
  split
  · next a b l _ =>
    have h0 : Keeps .buildTree s { s with work := l.reverse } := .still ⟨.inl rfl, rfl⟩ rfl rfl rfl
    rw [mergeNodes]
    simp only
    split
    · exact h0.trans (keeps_raise (by simp) (by simp) _ _ _)
    · split
      · exact h0.trans (keeps_raise (by simp) (by simp) _ _ _)
      · exact h0.trans (keeps_addNode _ _)
  · exact keeps_refl (by simp) s

theorem keeps_buildTreeMain {s : State} {r : Run} (hr : buildTreeMain s = r) : r.All (Keeps .buildTree s) := by
  subst hr
  have h0 : Keeps .buildTree s (startTree s) := .still ⟨.inr rfl, rfl⟩ rfl rfl rfl
  have h1 := h0.trans (keeps_addLeaves (startTree s))
  rw [buildTreeMain]
  generalize addLeaves (startTree s) = s1 at h1
  simp only
  split
  · exact h1.trans (keeps_raise (by simp) (by simp) _ _ _)
  · have h2 : Keeps .buildTree s (recordLeaves s1) := h1.trans (.still ⟨.inl rfl, rfl⟩ rfl rfl rfl)
    refine keeps_andThen (s := s) ?_ fun t => .still ⟨.inl rfl, rfl⟩ rfl rfl rfl
    exact (keeps_loop keeps_mergeStep _ _ (keeps_refl (by simp) _)).imp fun u hu => h2.trans hu

theorem keeps_buildTreeBody {s : State} {r : Run} (hr : buildTreeBody s = r) : r.All (Keeps .buildTree s) := by
  rw [buildTreeBody, require] at hr
  split at hr
  · exact keeps_buildTreeMain hr
  · subst hr
    exact keeps_raise (by simp) (by simp) _ _ s

/-! ### BUILD_DICT -/

theorem keeps_walk (d : Nat) : ∀ (i : NodeIx) (c : List Bool) (s : State), (walk d i c s).All (Keeps .buildDict s) := by
  induction d with
  | zero => intro i c s; trivial
  | succ d ih =>
    intro i c s
    rw [walk]
    split
    · exact .still rfl rfl rfl rfl
    · split
      · exact keeps_raise (by simp) (by simp) _ _ s
      · exact keeps_andThen (ih _ _ s) fun t => ih _ _ t

theorem keeps_buildDictMain (s : State) : (buildDictMain s).All (Keeps .buildDict s) := by
  rw [buildDictMain]
  split
  · trivial
  · refine keeps_andThen (s := s) ?_ fun t => .still rfl rfl rfl rfl
    have h0 : Keeps .buildDict s (invalidateEntries (clearDictFlag s)) := .still rfl rfl rfl rfl
    exact (keeps_walk _ _ _ _).imp fun u hu => h0.trans hu

theorem keeps_buildDictBody (s : State) : (buildDictBody s).All (Keeps .buildDict s) :=
  keeps_require (by simp) (by simp) (keeps_buildDictMain s)

/-! ### ENC_META -/

theorem keeps_encRecords (w : Nat) (l : List NodeIx) : ∀ s : State, (encRecords w l s).All (Keeps .encMeta s) := by
  induction l with
  | nil => intro s; exact keeps_refl (by simp) s
  | cons i l ih =>
    intro s
    rw [encRecords]
    split
    · trivial
    · exact (ih _).imp fun u hu => (keeps_outWriteAll (.inl rfl) _ s).trans hu

theorem keeps_encMetaMain (s : State) : (encMetaMain s).All (Keeps .encMeta s) := by
  rw [encMetaMain]
  split
  · exact keeps_raise (by simp) (by simp) _ _ s
  · split
    · trivial
    · rw [encHeader]
      generalize fieldWidth (nodeAt s.node s.leaflist[0]).freq.toNat = w
      have h0 : Keeps .encMeta s { s with hdrN := s.nleaf.setWidth 8, hdrW := BitVec.ofNat 8 w } := .still rfl rfl rfl rfl
      exact (keeps_encRecords _ _ _).imp fun u hu => (h0.trans (keeps_outWriteAll (.inl rfl) _ _)).trans hu

theorem keeps_encMetaBody (s : State) : (encMetaBody s).All (Keeps .encMeta s) :=
  keeps_require (by simp) (by simp) (keeps_encMetaMain s)

/-! ### DEC_META -/

theorem keeps_readHeaderByte {s : State} {k : Byte → State → Run} (h : ∀ b t, (k b t).All (Keeps .decMeta t)) :
    (readHeaderByte s k).All (Keeps .decMeta s) := by
  rw [readHeaderByte]
  cases hr : inRead s with
  | none => exact keeps_raise (by simp) (by simp) _ _ s
  | some p => exact (h p.1 p.2).imp fun u hu => (keeps_inRead (.inr (.inl rfl)) hr).trans hu

theorem keeps_readFreq (w : Nat) : ∀ (f : Nat) (s : State) (k : Nat → State → Run),
    (∀ f t, (k f t).All (Keeps .decMeta t)) → (readFreq w f s k).All (Keeps .decMeta s) := by
  induction w with
  | zero => intro f s k h; exact h f s
  | succ w ih =>
    intro f s k h
    rw [readFreq]
    exact keeps_readHeaderByte fun b t => ih _ t k h

theorem keeps_storeRecord (y : Byte) (f : Nat) (s : State) : (storeRecord y f s).All (Keeps .decMeta s) := by
  rw [storeRecord]
  split
  · exact keeps_raise (by simp) (by simp) _ _ s
  · split
    · exact keeps_raise (by simp) (by simp) _ _ s
    · exact .still ⟨rfl, rfl⟩ rfl rfl rfl

theorem keeps_decRecords (w n : Nat) : ∀ s : State, (decRecords w n s).All (Keeps .decMeta s) := by
  induction n with
  | zero => intro s; exact keeps_refl (by simp) s
  | succ n ih =>
    intro s
    rw [decRecords]
    exact keeps_andThen (keeps_readHeaderByte fun b t => keeps_readFreq w 0 t _ fun f u => keeps_storeRecord b f u) ih

theorem keeps_decMetaBody (s : State) : (decMetaBody s).All (Keeps .decMeta s) := by
  have h0 : Keeps .decMeta s (clearFreq (clearFlags s)) := .still ⟨rfl, rfl⟩ rfl rfl rfl
  rw [decMetaBody]
  refine Run.All.imp (P := Keeps .decMeta (clearFreq (clearFlags s))) ?_ fun u hu => h0.trans hu
  refine keeps_readHeaderByte fun n t => keeps_readHeaderByte fun w u => ?_
  have h1 : Keeps .decMeta u { u with hdrN := n, hdrW := w } := .still ⟨rfl, rfl⟩ rfl rfl rfl
  rw [decHeader]
  split
  · exact h1.trans (keeps_raise (by simp) (by simp) _ _ _)
  · refine keeps_andThen ((keeps_decRecords _ _ _).imp fun v hv => h1.trans hv) fun v => .still ⟨rfl, rfl⟩ rfl rfl rfl

/-! ### PACK -/

theorem keeps_appendCode (c : List Bool) (s : State) : Keeps .pack s (appendCode c s) := by
  rw [appendCode]
  split
  · exact keeps_refl (by simp) s
  · split <;> exact .still ⟨rfl, rfl⟩ rfl rfl rfl

theorem keeps_packSymbol (s : State) : (packSymbol s).All (Keeps .pack s) := by
  rw [packSymbol]
  cases hr : inRead s with
  | none => exact keeps_refl (by simp) s
  | some p =>
    have h1 : Keeps .pack s p.2 := keeps_inRead (.inr (.inr (.inl rfl))) hr
    simp only
    split
    · exact h1.trans (keeps_appendCode _ _)
    · exact h1.trans (keeps_raise (by simp) (by simp) _ _ _)

theorem keeps_packChunk (k : Nat) : ∀ s : State, (packChunk k s).All (Keeps .pack s) := by
  induction k with
  | zero => intro s; exact keeps_refl (by simp) s
  | succ k ih =>
    intro s
    have h := keeps_packSymbol s
    rw [packChunk]
    cases hs : packSymbol s with
    | again t =>
      rw [hs] at h
      have := ih t
      simp only
      cases ht : packChunk k t <;> rw [ht] at this <;> first | trivial | exact Keeps.trans h this
    | exit t => rw [hs] at h; exact h
    | raised t => rw [hs] at h; exact h
    | stuck f => trivial

theorem keeps_flushComplete (s : State) : Keeps .pack s (flushComplete s) := by
  rw [flushComplete]
  exact (keeps_outWriteAll (.inr (.inl rfl)) _ s).trans (.still ⟨rfl, rfl⟩ rfl rfl rfl)

theorem keeps_flushFinal (s : State) : Keeps .pack s (flushFinal s) := by
  rw [flushFinal]
  split
  · exact (keeps_outWriteAll (.inr (.inl rfl)) _ s).trans (.still ⟨rfl, rfl⟩ rfl rfl rfl)
  · exact .still ⟨rfl, rfl⟩ rfl rfl rfl

theorem keeps_packPass (chunk : Nat) (s : State) : (packPass chunk s).All (Keeps .pack s) := by
  have h := keeps_packChunk chunk s
  rw [packPass]
  cases hs : packChunk chunk s with
  | again t => rw [hs] at h; exact Keeps.trans h (keeps_flushComplete t)
  | exit t => rw [hs] at h; exact Keeps.trans h (keeps_flushComplete t)
  | raised t => rw [hs] at h; exact h
  | stuck f => trivial

theorem keeps_packBody (chunk : Nat) (s : State) : (packBody chunk s).All (Keeps .pack s) := by
  refine keeps_require (by simp) (by simp) ?_
  rw [packMain]
  refine keeps_andThen (s := s) ?_ fun t => keeps_flushFinal t
  have h0 : Keeps .pack s { s with buf := [], bitlen := 0 } := .still ⟨rfl, rfl⟩ rfl rfl rfl
  exact (keeps_loop (keeps_packPass chunk) _ _ (keeps_refl (by simp) _)).imp fun u hu => h0.trans hu

/-! ### DECODE -/

theorem keeps_nextBit {s s' : State} {b : Bool} (h : nextBit s = some (b, s')) : Keeps .decode s s' := by
  rw [nextBit] at h
  split at h
  · cases hr : inRead s with
    | none => rw [hr] at h; simp at h
    | some p =>
      rw [hr] at h
      simp only [Option.some.injEq] at h
      have h1 : Keeps .decode s p.2 := keeps_inRead (.inr (.inr (.inr rfl))) hr
      have h2 : s' = (takeBit (loadShift p.1 p.2)).2 := by rw [h]
      rw [h2]
      exact h1.trans (.still ⟨rfl, rfl⟩ rfl rfl rfl)
  · simp only [Option.some.injEq] at h
    have h2 : s' = (takeBit s).2 := by rw [h]
    rw [h2]
    exact .still ⟨rfl, rfl⟩ rfl rfl rfl

theorem keeps_walkStep (b : Bool) (s : State) : (walkStep b s).All (Keeps .decode s) := by
  rw [walkStep]
  split
  · exact keeps_raise (by simp) (by simp) _ _ s
  · have h1 : Keeps .decode s { s with cur := childOf (nodeAt s.node s.cur) b } := .still ⟨rfl, rfl⟩ rfl rfl rfl
    simp only
    split
    · rw [emitSymbol]
      exact (h1.trans (keeps_outWrite (.inr (.inr rfl)) _ _)).trans (.still ⟨rfl, rfl⟩ rfl rfl rfl)
    · exact h1

theorem keeps_decodeStep (s : State) : (decodeStep s).All (Keeps .decode s) := by
  rw [decodeStep]
  split
  · exact keeps_refl (by simp) s
  · cases hb : nextBit s with
    | none => exact keeps_raise (by simp) (by simp) _ _ s
    | some p =>
      have h1 : Keeps .decode s p.2 := keeps_nextBit hb
      have := keeps_walkStep p.1 p.2
      simp only
      cases hw : walkStep p.1 p.2 <;> rw [hw] at this <;> first | trivial | exact h1.trans this

theorem keeps_emitRun (k : Nat) : ∀ s : State, Keeps .decode s (emitRun k s) := by
  induction k with
  | zero => intro s; exact keeps_refl (by simp) s
  | succ k ih =>
    intro s
    rw [emitRun]
    exact ((keeps_outWrite (.inr (.inr rfl)) _ s).trans (.still ⟨rfl, rfl⟩ rfl rfl rfl)).trans (ih _)

theorem keeps_decodeBody (s : State) : (decodeBody s).All (Keeps .decode s) := by
  refine keeps_require (by simp) (by simp) ?_
  rw [decodeMain]
  split
  · trivial
  · generalize (nodeAt s.node s.root).freq = f
    have h0 : Keeps .decode s { s with remain := f, cur := s.root, shift := 0#8, bitpos := 0#4 } :=
      .still ⟨rfl, rfl⟩ rfl rfl rfl
    rw [decodeWalk]
    split
    · exact h0.trans (keeps_emitRun _ _)
    · exact (keeps_loop keeps_decodeStep _ _ (keeps_refl (by simp) _)).imp fun u hu => h0.trans hu

end Sys2Proof.Machine
end

