-- ==== Sys2Proof/Laws/Ends.lean ====
section
/-! SUPPORT. How a command's pseudocode can end (spec/60_exceptions.md R250, spec/46_system.md R222, R223): at its end with ERR and
ERRINFO as they were, or with a raise; and after the precondition check no raise is BadCommand. -/

namespace Sys2Proof.Machine

/-- The state a raise leaves, of a kind other than BadCommand. -/
def Raised (u : State) : Prop := ∃ k info v, k ≠ .badCommand ∧ u = raise k info v

/-- A pass that either leaves ERR and ERRINFO as they were in `s`, or raises. -/
def Iter.Ends (s : State) : Iter → Prop
  | .again u => u.err = s.err ∧ u.errinfo = s.errinfo
  | .exit u => u.err = s.err ∧ u.errinfo = s.errinfo
  | .raised u => Raised u
  | .stuck _ => True

/-- A part that either leaves ERR and ERRINFO as they were in `s`, or raises. -/
def Run.Ends (s : State) : Run → Prop
  | .done u => u.err = s.err ∧ u.errinfo = s.errinfo
  | .raised u => Raised u
  | .stuck _ => True

theorem raised_raise {k : ErrKind} (h : k ≠ .badCommand) (info : Byte) (v : State) : Raised (raise k info v) :=
  ⟨k, info, v, h, rfl⟩

theorem Raised.phase {u : State} (h : Raised u) : u.phase = .fault := by
  obtain ⟨k, info, v, -, rfl⟩ := h; rfl

theorem Raised.err {u : State} (h : Raised u) : u.err ≠ 0#4 ∧ u.err ≠ 8#4 ∧ u.err.toNat ≤ 8 := by
  obtain ⟨k, info, v, hk, rfl⟩ := h
  rw [raise_err]
  cases k <;> first | exact absurd rfl hk | (simp only [ErrKind.code]; decide)

theorem Run.Ends.from {s t : State} {r : Run} (h : r.Ends t) (h1 : t.err = s.err) (h2 : t.errinfo = s.errinfo) :
    r.Ends s := by
  cases r with
  | done u => exact ⟨h.1.trans h1, h.2.trans h2⟩
  | raised u => exact h
  | stuck f => trivial

theorem ends_andThen {s : State} {r : Run} {k : State → Run} (h : r.Ends s) (hk : ∀ t, (k t).Ends t) :
    (r.andThen k).Ends s := by
  cases r with
  | done u => exact (hk u).from h.1 h.2
  | raised u => exact h
  | stuck f => trivial

theorem ends_loop {body : State → Iter} (h : ∀ s, (body s).Ends s) (n : Nat) : ∀ s, (loop body n s).Ends s := by
  induction n with
  | zero => intro s; trivial
  | succ n ih =>
    intro s
    have hb := h s
    rw [loop]
    cases hs : body s with
    | again t => rw [hs] at hb; exact (ih t).from hb.1 hb.2
    | exit t => rw [hs] at hb; exact hb
    | raised t => rw [hs] at hb; exact hb
    | stuck f => trivial

theorem err_inRead {s s' : State} {b : Byte} (h : inRead s = some (b, s')) : s'.err = s.err ∧ s'.errinfo = s.errinfo := by
  rcases inRead_cases s with ⟨-, hn⟩ | ⟨b', l, -, hs⟩
  · rw [hn] at h; simp at h
  · rw [hs] at h
    simp only [Option.some.injEq, Prod.mk.injEq] at h
    obtain ⟨-, rfl⟩ := h
    exact ⟨rfl, rfl⟩

theorem err_outWriteAll (bs : List Byte) (s : State) :
    (outWriteAll bs s).err = s.err ∧ (outWriteAll bs s).errinfo = s.errinfo := by
  rw [outWriteAll_eq]; exact ⟨rfl, rfl⟩

/-! ### From the pseudocode to the command -/

/-- A command's pseudocode that, when it completes, leaves ERR and ERRINFO as they were in `s`, and whose raises leave FAULT. -/
def Run.Settles (s : State) : Run → Prop
  | .done u => u.err = s.err ∧ u.errinfo = s.errinfo
  | .raised u => u.phase = .fault
  | .stuck _ => True

theorem Run.Ends.settles {s : State} {r : Run} (h : r.Ends s) : r.Settles s := by
  cases r with
  | done u => exact h
  | raised u => exact h.phase
  | stuck f => trivial

/-- The precondition check adds one more raise (R223). -/
theorem settles_require {c : Bool} {w : Byte} {body : State → Run} {s : State} (h : (body s).Ends s) :
    (require c w body s).Settles s := by
  rw [require]
  split
  · exact h.settles
  · rfl

/-- A command changes PHASE, ERR and ERRINFO only by a raise (R222, R250): not when it is discarded in FAULT, and not when it ends
outside FAULT. -/
theorem accept_settles {body : State → Run} {s t : State} (h : ∀ u r, body u = r → r.Settles u)
    (ht : accept body s = .next t) (hp : s.phase = .fault ∨ t.phase ≠ .fault) :
    t.phase = s.phase ∧ t.err = s.err ∧ t.errinfo = s.errinfo := by
  rcases accept_next ht with ⟨-, rfl⟩ | ⟨hi, u, hu, rfl⟩ | ⟨hi, hu⟩
  · exact ⟨rfl, rfl, rfl⟩
  · have := h _ _ hu
    exact ⟨hi.symm, this.1, this.2⟩
  · rcases hp with hp | hp
    · rw [hi] at hp; simp at hp
    · exact absurd (h _ _ hu) hp

/-! ### The commands -/

theorem ends_countBody (s : State) : (countBody s).Ends s := by
  rw [countBody]
  refine ends_andThen (r := loop _ _ _) ?_ fun t => ⟨rfl, rfl⟩
  refine (ends_loop (fun t => ?_) _ _).from rfl rfl
  rw [countStep]
  cases h : inRead t with
  | none => exact ⟨rfl, rfl⟩
  | some p =>
    have h1 := err_inRead h
    simp only
    split
    · exact raised_raise (by simp) _ _
    · exact h1

theorem err_addLeaves (s : State) : (addLeaves s).err = s.err ∧ (addLeaves s).errinfo = s.errinfo := by
  rw [addLeaves]
  generalize symbols = l
  induction l generalizing s with
  | nil => exact ⟨rfl, rfl⟩
  | cons b l ih =>
    have := ih (addLeaf s b)
    rw [addLeaf] at this
    rw [List.foldl_cons, addLeaf]
    split
    · next h => rw [if_pos h] at this; exact this
    · next h => rw [if_neg h] at this; exact this

theorem ends_mergeStep (s : State) : (mergeStep s).Ends s := by
  rw [mergeStep]
  split
  · rw [mergeNodes]
    simp only
    split
    · exact raised_raise (by simp) _ _
    · split
      · exact raised_raise (by simp) _ _
      · exact ⟨rfl, rfl⟩
  · exact ⟨rfl, rfl⟩

theorem ends_buildTreeMain {s : State} {r : Run} (hr : buildTreeMain s = r) : r.Ends s := by
  subst hr
  have h1 := err_addLeaves (startTree s)
  rw [buildTreeMain]
  generalize addLeaves (startTree s) = s1 at h1
  simp only
  split
  · exact raised_raise (by simp) _ _
  · exact ends_andThen ((ends_loop ends_mergeStep _ (recordLeaves s1)).from h1.1 h1.2) fun t => ⟨rfl, rfl⟩

theorem ends_walk (d : Nat) : ∀ (i : NodeIx) (c : List Bool) (s : State), (walk d i c s).Ends s := by
  induction d with
  | zero => intro i c s; trivial
  | succ d ih =>
    intro i c s
    rw [walk]
    split
    · exact ⟨rfl, rfl⟩
    · split
      · exact raised_raise (by simp) _ _
      · exact ends_andThen (ih _ _ s) fun t => ih _ _ t

theorem ends_buildDictMain (s : State) : (buildDictMain s).Ends s := by
  rw [buildDictMain]
  split
  · trivial
  · exact ends_andThen ((ends_walk _ _ _ _).from rfl rfl) fun t => ⟨rfl, rfl⟩

theorem ends_encRecords (w : Nat) (l : List NodeIx) : ∀ s : State, (encRecords w l s).Ends s := by
  induction l with
  | nil => intro s; exact ⟨rfl, rfl⟩
  | cons i l ih =>
    intro s
    rw [encRecords]
    split
    · trivial
    · have := err_outWriteAll (recordBytes w (nodeAt s.node i)) s
      exact (ih _).from this.1 this.2

theorem ends_encMetaMain (s : State) : (encMetaMain s).Ends s := by
  rw [encMetaMain]
  split
  · exact raised_raise (by simp) _ _
  · split
    · trivial
    · rw [encHeader]
      generalize fieldWidth (nodeAt s.node s.leaflist[0]).freq.toNat = w
      have := err_outWriteAll [s.nleaf.setWidth 8, BitVec.ofNat 8 w]
        { s with hdrN := s.nleaf.setWidth 8, hdrW := BitVec.ofNat 8 w }
      exact (ends_encRecords _ _ _).from this.1 this.2

theorem ends_readHeaderByte {s : State} {k : Byte → State → Run} (h : ∀ b t, (k b t).Ends t) :
    (readHeaderByte s k).Ends s := by
  rw [readHeaderByte]
  cases hr : inRead s with
  | none => exact raised_raise (by simp) _ _
  | some p =>
    have := err_inRead hr
    exact (h p.1 p.2).from this.1 this.2

theorem ends_readFreq (w : Nat) : ∀ (f : Nat) (s : State) (k : Nat → State → Run), (∀ f t, (k f t).Ends t) →
    (readFreq w f s k).Ends s := by
  induction w with
  | zero => intro f s k h; exact h f s
  | succ w ih =>
    intro f s k h
    rw [readFreq]
    exact ends_readHeaderByte fun b t => ih _ t k h

theorem ends_storeRecord (y : Byte) (f : Nat) (s : State) : (storeRecord y f s).Ends s := by
  rw [storeRecord]
  split
  · exact raised_raise (by simp) _ _
  · split
    · exact raised_raise (by simp) _ _
    · exact ⟨rfl, rfl⟩

theorem ends_decRecords (w n : Nat) : ∀ s : State, (decRecords w n s).Ends s := by
  induction n with
  | zero => intro s; exact ⟨rfl, rfl⟩
  | succ n ih =>
    intro s
    rw [decRecords]
    exact ends_andThen (ends_readHeaderByte fun b t => ends_readFreq w 0 t _ fun f u => ends_storeRecord b f u) ih

theorem ends_decMetaBody (s : State) : (decMetaBody s).Ends s := by
  rw [decMetaBody]
  refine Run.Ends.from (t := clearFreq (clearFlags s)) ?_ rfl rfl
  refine ends_readHeaderByte fun n t => ends_readHeaderByte fun w u => ?_
  rw [decHeader]
  split
  · exact raised_raise (by simp) _ _
  · exact ends_andThen ((ends_decRecords _ _ _).from rfl rfl) fun v => ⟨rfl, rfl⟩

theorem err_appendCode (c : List Bool) (s : State) : (appendCode c s).err = s.err ∧ (appendCode c s).errinfo = s.errinfo := by
  rw [appendCode]
  split
  · exact ⟨rfl, rfl⟩
  · split <;> exact ⟨rfl, rfl⟩

theorem ends_packSymbol (s : State) : (packSymbol s).Ends s := by
  rw [packSymbol]
  cases hr : inRead s with
  | none => exact ⟨rfl, rfl⟩
  | some p =>
    have h1 := err_inRead hr
    simp only
    split
    · have h2 := err_appendCode (dictAt p.2 p.1).code p.2
      exact ⟨h2.1.trans h1.1, h2.2.trans h1.2⟩
    · exact raised_raise (by simp) _ _

theorem ends_packChunk (k : Nat) : ∀ s : State, (packChunk k s).Ends s := by
  induction k with
  | zero => intro s; exact ⟨rfl, rfl⟩
  | succ k ih =>
    intro s
    have h := ends_packSymbol s
    rw [packChunk]
    cases hs : packSymbol s with
    | again t =>
      rw [hs] at h
      have := ih t
      simp only
      cases ht : packChunk k t <;> rw [ht] at this <;>
        first | trivial | exact ⟨this.1.trans h.1, this.2.trans h.2⟩
    | exit t => rw [hs] at h; exact h
    | raised t => rw [hs] at h; exact h
    | stuck f => trivial

theorem err_flushComplete (s : State) : (flushComplete s).err = s.err ∧ (flushComplete s).errinfo = s.errinfo :=
  err_outWriteAll _ s

theorem err_flushFinal (s : State) : (flushFinal s).err = s.err ∧ (flushFinal s).errinfo = s.errinfo := by
  rw [flushFinal]
  split
  · exact err_outWriteAll _ s
  · exact ⟨rfl, rfl⟩

theorem ends_packPass (chunk : Nat) (s : State) : (packPass chunk s).Ends s := by
  have h := ends_packChunk chunk s
  rw [packPass]
  cases hs : packChunk chunk s with
  | again t => rw [hs] at h; exact ⟨(err_flushComplete t).1.trans h.1, (err_flushComplete t).2.trans h.2⟩
  | exit t => rw [hs] at h; exact ⟨(err_flushComplete t).1.trans h.1, (err_flushComplete t).2.trans h.2⟩
  | raised t => rw [hs] at h; exact h
  | stuck f => trivial

theorem ends_packMain (chunk : Nat) (s : State) : (packMain chunk s).Ends s := by
  rw [packMain]
  exact ends_andThen ((ends_loop (ends_packPass chunk) _ _).from rfl rfl) err_flushFinal

theorem ends_decodeStep (s : State) : (decodeStep s).Ends s := by
  rw [decodeStep]
  split
  · exact ⟨rfl, rfl⟩
  · cases hb : nextBit s with
    | none => exact raised_raise (by simp) _ _
    | some p =>
      have h1 : p.2.err = s.err ∧ p.2.errinfo = s.errinfo := by
        rw [nextBit] at hb
        split at hb
        · cases hr : inRead s with
          | none => rw [hr] at hb; simp at hb
          | some q =>
            rw [hr] at hb
            simp only [Option.some.injEq] at hb
            rw [← hb]
            exact (err_inRead hr : q.2.err = s.err ∧ q.2.errinfo = s.errinfo)
        · simp only [Option.some.injEq] at hb
          rw [← hb]
          exact ⟨rfl, rfl⟩
      simp only
      rw [walkStep]
      split
      · exact raised_raise (by simp) _ _
      · simp only
        split
        · exact h1
        · exact h1

theorem err_emitRun (k : Nat) : ∀ s : State, (emitRun k s).err = s.err ∧ (emitRun k s).errinfo = s.errinfo := by
  induction k with
  | zero => intro s; exact ⟨rfl, rfl⟩
  | succ k ih => intro s; rw [emitRun]; exact ih _

theorem ends_decodeMain (s : State) : (decodeMain s).Ends s := by
  rw [decodeMain]
  split
  · trivial
  · generalize (nodeAt s.node s.root).freq = f
    rw [decodeWalk]
    split
    · exact err_emitRun _ _
    · exact (ends_loop ends_decodeStep _ _).from rfl rfl

/-! ### The ranges that hold however a command ends -/

/-- BITPOS stays in its range (R33). -/
theorem bitpos_decodeStep {s : State} (h : s.bitpos.toNat ≤ 8) : (decodeStep s).All fun t => t.bitpos.toNat ≤ 8 := by
  rw [decodeStep]
  split
  · exact h
  · cases hb : nextBit s with
    | none => exact h
    | some p =>
      have h1 : p.2.bitpos.toNat ≤ 8 := by
        rw [nextBit] at hb
        split at hb
        · cases hr : inRead s with
          | none => rw [hr] at hb; simp at hb
          | some q =>
            rw [hr] at hb
            simp only [Option.some.injEq] at hb
            rw [← hb]
            show ((8#4 : BitVec 4) - 1#4).toNat ≤ 8
            decide
        · next hne =>
          simp only [Option.some.injEq] at hb
          rw [← hb]
          show (s.bitpos - 1#4).toNat ≤ 8
          have h1 : (1#4).toNat = 1 := rfl
          have : s.bitpos.toNat ≠ 0 := fun e => hne (BitVec.eq_of_toNat_eq e)
          rw [BitVec.toNat_sub, h1]
          omega
      simp only
      rw [walkStep]
      split
      · exact h1
      · simp only
        split
        · exact h1
        · exact h1

theorem bitpos_emitRun (k : Nat) : ∀ s : State, (emitRun k s).bitpos = s.bitpos := by
  induction k with
  | zero => intro s; rfl
  | succ k ih => intro s; rw [emitRun]; exact ih _

theorem bitpos_decodeMain (s : State) : (decodeMain s).All fun t => t.bitpos.toNat ≤ 8 := by
  rw [decodeMain]
  split
  · trivial
  · generalize (nodeAt s.node s.root).freq = f
    rw [decodeWalk]
    split
    · show (emitRun _ _).bitpos.toNat ≤ 8
      rw [bitpos_emitRun]
      exact (by decide : (0#4).toNat ≤ 8)
    · exact loop_all (P := fun t => t.bitpos.toNat ≤ 8) (fun t ht => bitpos_decodeStep ht) _ _
        (by decide : (0#4).toNat ≤ 8)

end Sys2Proof.Machine
end

