-- ==== Sys2Proof/Laws/Hist.lean ====
section
/-! SUPPORT. What COUNT's loop does (spec/40_histogram.md R120 to R123): the three ways of one pass, and the table the loop leaves. -/

namespace Sys2Proof.Machine

/-- One pass of COUNT (R121): the end of IN, an overflow with the bins as they were, or one bin up by one. -/
theorem countStep_cases (s : State) :
    (s.inp.rest = [] ∧ countStep s = .exit s) ∨
    ∃ b l, s.inp.rest = b :: l ∧
      ((freqAt s b = BitVec.allOnes 64 ∧ countStep s = .raised (raise .countOverflow 0x02#8 (tookByte b s))) ∨
       (freqAt s b ≠ BitVec.allOnes 64 ∧ countStep s = .again (setFreq (tookByte b s) b (freqAt s b + 1#64)))) := by
  rcases inRead_cases s with ⟨h, hr⟩ | ⟨b, l, h, hr⟩
  · exact .inl ⟨h, by simp only [countStep, hr]⟩
  · refine .inr ⟨b, l, h, ?_⟩
    by_cases hb : freqAt s b = BitVec.allOnes 64
    · refine .inl ⟨hb, ?_⟩
      simp only [countStep, hr]
      rw [if_pos (by simpa [freqAt] using hb)]
      rfl
    · refine .inr ⟨hb, ?_⟩
      simp only [countStep, hr]
      rw [if_neg (by simpa [freqAt] using hb)]
      rfl

theorem toNat_ne_allOnes {v : Count} : v ≠ BitVec.allOnes 64 ↔ v.toNat + 1 < 2 ^ 64 := by
  have := v.isLt
  constructor
  · intro h
    have : v.toNat ≠ 2 ^ 64 - 1 := fun he => h (BitVec.eq_of_toNat_eq (by simpa using he))
    omega
  · intro h he
    rw [he] at h
    simp at h

/-- The loop of COUNT from any table, when no bin passes 2^64 - 1: every bin is up by the count of its symbol, IN is at its end, and
nothing else changes. -/
theorem loop_countStep (l : List Byte) : ∀ (s : State) (n : Nat), s.inp.rest = l → l.length < n →
    (∀ b, (freqAt s b).toNat + l.count b < 2 ^ 64) →
    ∃ t, loop countStep n s = .done t ∧
      t = { s with
        freq := t.freq
        inp := ⟨s.inp.data, s.inp.pos + l.length⟩
        accesses := s.accesses ++ l.map .read } ∧
      ∀ b, (freqAt t b).toNat = (freqAt s b).toNat + l.count b := by
  induction l with
  | nil =>
    intro s n hl hn _
    obtain ⟨n, rfl⟩ : ∃ k, n = k + 1 := ⟨n - 1, by simp at hn; omega⟩
    rcases countStep_cases s with ⟨-, h⟩ | ⟨b, l, hb, -⟩
    · exact ⟨s, loop_of_exit h n, by simp, by simp⟩
    · rw [hl] at hb; simp at hb
  | cons b l ih =>
    intro s n hl hn hc
    obtain ⟨n, rfl⟩ : ∃ k, n = k + 1 := ⟨n - 1, by simp at hn; omega⟩
    have hb := hc b
    simp only [List.count_cons_self] at hb
    rcases countStep_cases s with ⟨h, -⟩ | ⟨b', l', hb', ⟨hmax, -⟩ | ⟨hmax, h⟩⟩
    · rw [hl] at h; simp at h
    · rw [hl] at hb'; simp only [List.cons.injEq] at hb'; obtain ⟨rfl, rfl⟩ := hb'
      exact absurd hmax (toNat_ne_allOnes.2 (by omega))
    · rw [hl] at hb'; simp only [List.cons.injEq] at hb'; obtain ⟨rfl, rfl⟩ := hb'
      have hup : ∀ c, (freqAt (setFreq (tookByte b s) b (freqAt s b + 1#64)) c).toNat
          = (freqAt s c).toNat + if b = c then 1 else 0 := by
        intro c
        rw [freqAt_setFreq]
        by_cases hcb : c = b
        · subst hcb
          rw [if_pos rfl, if_pos rfl, BitVec.toNat_add]
          have : (1#64).toNat = 1 := rfl
          rw [this, Nat.mod_eq_of_lt (by omega)]
        · rw [if_neg hcb, if_neg (fun h => hcb h.symm)]; rfl
      obtain ⟨t, ht, hf, hcount⟩ := ih (setFreq (tookByte b s) b (freqAt s b + 1#64)) n
        (by rw [setFreq_inp]; exact rest_tookByte hl) (by simp at hn; omega) (by
          intro c
          have := hc c
          rw [List.count_cons] at this
          rw [hup]
          simp only [beq_iff_eq] at this
          omega)
      refine ⟨t, by rw [loop_of_again h]; exact ht, ?_, ?_⟩
      · rw [hf]
        simp only [setFreq, tookByte, List.length_cons, List.map_cons, List.append_assoc, List.singleton_append]
        congr 2
        omega
      · intro c
        rw [hcount c, hup, List.count_cons]
        simp only [beq_iff_eq]
        omega

end Sys2Proof.Machine
end

