-- ==== Sys2Proof/Laws/Meta.lean ====
section
/-! SUPPORT. What the metadata codec's operations do (spec/43_metadata_codec.md R160 to R164): the records written, the bytes and
the records read, the field width. -/

namespace Sys2Proof.Machine

/-! ### ENC_META -/

/-- The record loop writes the records' bytes (R160), when every leaf-list entry names a node. -/
theorem encRecords_eq (w : Nat) (l : List NodeIx) : ∀ s : State, (∀ i ∈ l, i ≠ Config.nil) →
    encRecords w l s = .done (outWriteAll (l.flatMap fun i => recordBytes w (nodeAt s.node i)) s) := by
  induction l with
  | nil => intro s _; rfl
  | cons i l ih =>
    intro s h
    have hn : ∀ bs, (outWriteAll bs s).node = s.node := by intro bs; rw [outWriteAll_eq]
    rw [encRecords, if_neg (h i (by simp)), ih _ fun j hj => h j (by simp [hj]), hn, List.flatMap_cons,
      outWriteAll_append]

/-- The field width is the least `w >= 1` with `fmax < 256^w` (R161). -/
theorem fieldWidth_le_iff (f w : Nat) : fieldWidth f ≤ w ↔ 1 ≤ w ∧ f < 256 ^ w := by
  have : f < 256 ^ w ↔ bitlen f ≤ 8 * w := by
    rw [bitlen_le_iff, Nat.pow_mul]
  rw [this, fieldWidth, Nat.max_le, ceil8]
  omega

theorem lt_fieldWidth (f : Nat) : f < 256 ^ fieldWidth f := ((fieldWidth_le_iff f _).1 (Nat.le_refl _)).2

theorem one_le_fieldWidth (f : Nat) : 1 ≤ fieldWidth f := ((fieldWidth_le_iff f _).1 (Nat.le_refl _)).1

theorem fieldWidth_le_eight {f : Nat} (h : f < 2 ^ 64) : fieldWidth f ≤ 8 :=
  (fieldWidth_le_iff f 8).2 ⟨by omega, by simpa using h⟩

/-! ### Reading header bytes -/

/-- The state after the bytes `l` of IN were read. -/
def tookBytes (l : List Byte) (s : State) : State := replay (l.map .read) s

theorem tookBytes_eq (l : List Byte) (s : State) : tookBytes l s = { s with
    inp := ⟨s.inp.data, s.inp.pos + l.length⟩
    accesses := s.accesses ++ l.map .read } := by
  rw [tookBytes, replay_eq]; simp

@[simp] theorem tookBytes_nil (s : State) : tookBytes [] s = s := rfl

theorem tookBytes_cons (b : Byte) (l : List Byte) (s : State) : tookBytes (b :: l) s = tookBytes l (tookByte b s) := rfl

theorem tookBytes_append (a : List Byte) : ∀ (b : List Byte) (s : State),
    tookBytes (a ++ b) s = tookBytes b (tookBytes a s) := by
  induction a with
  | nil => intro b s; rfl
  | cons x a ih => intro b s; rw [List.cons_append, tookBytes_cons, ih, tookBytes_cons]

theorem rest_tookBytes (l : List Byte) : ∀ (r : List Byte) (s : State), s.inp.rest = l ++ r →
    (tookBytes l s).inp.rest = r := by
  induction l with
  | nil => intro r s h; exact h
  | cons b l ih => intro r s h; rw [tookBytes_cons]; exact ih r _ (rest_tookByte h)

theorem readHeaderByte_byte {s : State} {b : Byte} {l : List Byte} (h : s.inp.rest = b :: l) (k : Byte → State → Run) :
    readHeaderByte s k = k b (tookByte b s) := by
  simp only [readHeaderByte, inRead_byte h]

theorem readHeaderByte_eof {s : State} (h : s.inp.rest = []) (k : Byte → State → Run) :
    readHeaderByte s k = .raised (raise .truncatedStream 0x06#8 s) := by
  simp only [readHeaderByte, inRead_eof h]
  rfl

/-- A frequency field (R162): its bytes are read, most significant first. -/
theorem readFreq_eq (l : List Byte) : ∀ (f : Nat) (s : State) (r : List Byte) (k : Nat → State → Run),
    s.inp.rest = l ++ r →
    readFreq l.length f s k = k (l.foldl (fun f b => f * 256 + b.toNat) f) (tookBytes l s) := by
  induction l with
  | nil => intro f s r k _; rfl
  | cons b l ih =>
    intro f s r k h
    rw [List.length_cons, readFreq, readHeaderByte_byte (by simpa using h), ih _ _ r k (rest_tookByte (by simpa using h))]
    rfl

/-- A frequency field cut short (R163 (d)). -/
theorem readFreq_truncated (l : List Byte) : ∀ (w f : Nat) (s : State) (k : Nat → State → Run),
    s.inp.rest = l → l.length < w →
    readFreq w f s k = .raised (raise .truncatedStream 0x06#8 (tookBytes l s)) := by
  induction l with
  | nil =>
    intro w f s k h hw
    obtain ⟨w, rfl⟩ : ∃ j, w = j + 1 := ⟨w - 1, by simp at hw; omega⟩
    rw [readFreq, readHeaderByte_eof h, tookBytes_nil]
  | cons b l ih =>
    intro w f s k h hw
    obtain ⟨w, rfl⟩ : ∃ j, w = j + 1 := ⟨w - 1, by simp at hw; omega⟩
    rw [readFreq, readHeaderByte_byte h, ih w _ _ k (rest_tookByte h) (by simp at hw; omega), tookBytes_cons]

/-! ### DEC_META's records -/

/-- One record read whole (R162): then its checks. -/
theorem decRecords_step {w n : Nat} {s : State} {y : Byte} {f : Nat} {r : List Byte} (hf : f < 256 ^ w)
    (h : s.inp.rest = (y :: be f w) ++ r) :
    decRecords w (n + 1) s =
      (storeRecord y f (tookBytes (y :: be f w) s)).andThen (decRecords w n) := by
  have h1 : (tookByte y s).inp.rest = be f w ++ r := rest_tookByte (by simpa using h)
  have h2 := readFreq_eq (be f w) 0 (tookByte y s) r (fun f s2 => storeRecord y f s2) h1
  rw [length_be] at h2
  rw [decRecords, readHeaderByte_byte (by simpa using h), h2, ← tookBytes_cons]
  have h3 : (be f w).foldl (fun f b => f * 256 + b.toNat) 0 = f := unbe_be w f hf
  rw [h3]

/-- The bins after records were stored, in order. -/
def storeAll : List (Byte × Nat) → State → State
  | [], s => s
  | r :: rs, s => storeAll rs (setFreq s r.1 (BitVec.ofNat 64 r.2))

theorem storeAll_frame (rs : List (Byte × Nat)) : ∀ s : State,
    storeAll rs s = { s with freq := (storeAll rs s).freq } := by
  induction rs with
  | nil => intro s; rfl
  | cons r rs ih => intro s; rw [storeAll, ih]; rfl

theorem freqAt_storeAll_other (rs : List (Byte × Nat)) : ∀ (s : State) (b : Byte), b ∉ rs.map Prod.fst →
    freqAt (storeAll rs s) b = freqAt s b := by
  induction rs with
  | nil => intro s b _; rfl
  | cons r rs ih =>
    intro s b h
    simp only [List.map_cons, List.mem_cons, not_or] at h
    rw [storeAll, ih _ _ h.2, freqAt_setFreq_other _ _ h.1]

theorem freqAt_storeAll_mem (rs : List (Byte × Nat)) : ∀ (s : State), (rs.map Prod.fst).Nodup →
    ∀ r ∈ rs, freqAt (storeAll rs s) r.1 = BitVec.ofNat 64 r.2 := by
  induction rs with
  | nil => intro s _ r h; simp at h
  | cons q rs ih =>
    intro s hn r h
    simp only [List.map_cons, List.nodup_cons] at hn
    rw [storeAll]
    rcases List.mem_cons.1 h with rfl | h
    · rw [freqAt_storeAll_other _ _ _ hn.1, freqAt_setFreq_same]
    · exact ih _ hn.2 r h

theorem find_record (rs : List (Byte × Nat)) (hn : (rs.map Prod.fst).Nodup) (r : Byte × Nat) (h : r ∈ rs) :
    rs.find? (fun q => q.1 == r.1) = some r := by
  induction rs with
  | nil => simp at h
  | cons q rs ih =>
    simp only [List.map_cons, List.nodup_cons] at hn
    rcases List.mem_cons.1 h with rfl | h
    · simp
    · have : q.1 ≠ r.1 := fun he => hn.1 (he ▸ List.mem_map_of_mem h)
      rw [List.find?_cons_of_neg (by simpa using this)]
      exact ih hn.2 h

/-- Stored over empty bins, records are their table (R162). -/
theorem storeAll_freq {rs : List (Byte × Nat)} {s : State} (hn : (rs.map Prod.fst).Nodup)
    (h0 : ∀ b, freqAt s b = 0#64) : (storeAll rs s).freq = recordsTable rs := by
  apply freq_ext
  intro b
  have ht : (recordsTable rs)[b.toNat]'(b.isLt) =
      BitVec.ofNat 64 (((rs.find? fun r => r.1 == b).map Prod.snd).getD 0) := by
    simp only [recordsTable, Vector.getElem_ofFn]
    simp
  rw [ht]
  change freqAt (storeAll rs s) b = _
  by_cases hb : b ∈ rs.map Prod.fst
  · obtain ⟨r, hr, rfl⟩ := List.mem_map.1 hb
    rw [freqAt_storeAll_mem rs s hn r hr, find_record rs hn r hr]
    rfl
  · rw [freqAt_storeAll_other rs s b hb, h0]
    have : rs.find? (fun r => r.1 == b) = none := by
      rw [List.find?_eq_none]
      intro r hr he
      exact hb (List.mem_map.2 ⟨r, hr, by simpa using he⟩)
    rw [this]
    rfl

/-- The record loop over records that pass its checks (R162): they are read and stored, and the loop goes on with what is left. -/
theorem decRecords_ok {w : Nat} (rs : List (Byte × Nat)) : ∀ (s : State) (r : List Byte) (n : Nat),
    RecordsOk w rs → (∀ q ∈ rs, freqAt s q.1 = 0#64) → s.inp.rest = recordsImage w rs ++ r →
    decRecords w (rs.length + n) s =
      decRecords w n (storeAll rs (tookBytes (recordsImage w rs) s)) := by
  induction rs with
  | nil => intro s r n _ _ _; simp [storeAll, recordsImage]
  | cons q rs ih =>
    intro s r n hok h0 hr
    obtain ⟨hn, hq⟩ := hok
    simp only [List.map_cons, List.nodup_cons] at hn
    have hq1 := hq q (by simp)
    have himg : recordsImage w (q :: rs) = (q.1 :: be q.2 w) ++ recordsImage w rs := by simp [recordsImage]
    have hr' : s.inp.rest = (q.1 :: be q.2 w) ++ (recordsImage w rs ++ r) := by rw [hr, himg, List.append_assoc]
    rw [show (q :: rs).length + n = (rs.length + n) + 1 by simp; omega, decRecords_step hq1.2 hr']
    generalize hu : tookBytes (q.1 :: be q.2 w) s = u
    have hufreq : u.freq = s.freq := by rw [← hu, tookBytes_eq]
    have hsr : storeRecord q.1 q.2 u = .done (setFreq u q.1 (BitVec.ofNat 64 q.2)) := by
      rw [storeRecord, if_neg hq1.1, if_neg]
      rw [not_not, freqAt_congr hufreq]; exact h0 q (by simp)
    have hurest : (setFreq u q.1 (BitVec.ofNat 64 q.2)).inp.rest = recordsImage w rs ++ r := by
      rw [setFreq_inp, ← hu]; exact rest_tookBytes _ _ _ hr'
    rw [hsr, andThen_done, ih (setFreq u q.1 (BitVec.ofNat 64 q.2)) r n ⟨hn.2, fun x hx => hq x (by simp [hx])⟩ ?_ hurest]
    · congr 1
      rw [storeAll, himg, tookBytes_append, hu]
      congr 1
      rw [tookBytes_eq, tookBytes_eq]
      rfl
    · intro x hx
      have hne : x.1 ≠ q.1 := fun he => hn.1 (he ▸ List.mem_map_of_mem hx)
      rw [freqAt_setFreq_other _ _ hne, freqAt_congr hufreq]
      exact h0 x (by simp [hx])

end Sys2Proof.Machine
end

