-- ==== Sys2Proof/Laws/Packer.lean ====
section
/-! SUPPORT. What the packer's operations do (spec/44_packer.md R180 to R188): the append law, the two flushes, one chunk, and the
whole command, in terms of the bits the buffer holds. -/

namespace Sys2Proof.Machine

/-- BUF and BITLEN hold the bits `v` (R32). -/
def BufHas (v : List Bool) (s : State) : Prop := s.bitlen = v.length ∧ s.buf = pack v

theorem BufHas.bufOk {v : List Bool} {s : State} (h : BufHas v s) : BufOk s := by
  obtain ⟨hl, hb⟩ := h
  constructor
  · rw [hb, hl, length_pack]
  · rw [hb, hl, bits_pack, List.drop_left, length_pack]

theorem BufOk.has {s : State} (h : BufOk s) : BufHas (validBits s) s := by
  have hlen : (validBits s).length = s.bitlen := by
    rw [validBits, List.length_take, length_bits, h.length]; simp only [ceil8]; omega
  refine ⟨hlen.symm, eq_pack_of_bits _ _ ?_⟩
  rw [hlen, ← h.length, ← h.pad, validBits, List.take_append_drop]

theorem BufHas.validBits {v : List Bool} {s : State} (h : BufHas v s) : validBits s = v := by
  rw [Machine.validBits, h.1, h.2, take_bits_pack]

/-! ### Append -/

theorem bitsOf_or (x y : Byte) : bitsOf (x ||| y) = List.zipWith (· || ·) (bitsOf x) (bitsOf y) := by
  simp [bitsOf]

theorem zipWith_or_complement (v y : List Bool) (hy : v.length + y.length = 8) :
    List.zipWith (· || ·) (v ++ List.replicate (8 - v.length) false) (List.replicate v.length false ++ y) = v ++ y := by
  rw [List.zipWith_append (by simp)]
  congr 1
  · apply List.ext_getElem <;> simp
  · apply List.ext_getElem
    · simp; omega
    · simp

/-- The merge of R182: the partial byte of `v` ORed with the first byte of the code shifted right by `len v` bits, and the shifted
code's other bytes, are the bytes of the joined bits. -/
theorem pack_merge (v c : List Bool) (hv : 0 < v.length) (hv8 : v.length < 8) (hc : c ≠ []) :
    pack (v ++ c) =
      ((pack v).headD 0#8 ||| (pack (List.replicate v.length false ++ c)).headD 0#8) ::
        (pack (List.replicate v.length false ++ c)).tail := by
  have hclen : 0 < c.length := List.length_pos_of_ne_nil hc
  obtain ⟨x, hx⟩ : ∃ x, pack v = [x] := by
    have : (pack v).length = 1 := by rw [length_pack]; simp only [ceil8]; omega
    exact List.length_eq_one_iff.1 this
  obtain ⟨h, tl, hsh⟩ : ∃ h tl, pack (List.replicate v.length false ++ c) = h :: tl := by
    cases hp : pack (List.replicate v.length false ++ c) with
    | nil =>
      have := congrArg List.length hp
      simp [ceil8] at this
      omega
    | cons h tl => exact ⟨h, tl, rfl⟩
  have hbx : bitsOf x = v ++ List.replicate (8 - v.length) false := by
    have := bits_pack v
    rw [hx] at this
    simp only [bits_cons, bits_nil, List.append_nil] at this
    rw [this]; congr 2; simp only [ceil8]; omega
  have hbh := bits_pack (List.replicate v.length false ++ c)
  rw [hsh, bits_cons, List.append_assoc] at hbh
  obtain ⟨y, hy1, hy2⟩ : ∃ y, bitsOf h = List.replicate v.length false ++ y ∧ y ++ bits tl = c ++
      List.replicate (8 * ceil8 (List.replicate v.length false ++ c).length -
        (List.replicate v.length false ++ c).length) false := by
    rcases List.append_eq_append_iff.1 hbh with ⟨a, h1, h2⟩ | ⟨a, h1, h2⟩
    · have := congrArg List.length h1
      simp at this
      omega
    · exact ⟨a, h1, h2.symm⟩
  have hylen : v.length + y.length = 8 := by
    have := congrArg List.length hy1
    simp at this
    omega
  rw [hx, hsh]
  symm
  apply eq_pack_of_bits
  simp only [List.headD_cons, List.tail_cons]
  rw [bits_cons, bitsOf_or, hbx, hy1, zipWith_or_complement v y hylen, List.append_assoc, hy2, List.append_assoc]
  simp

theorem orLast_append_singleton (l : List Byte) (x b : Byte) : orLast (l ++ [x]) b = l ++ [x ||| b] := by
  simp [orLast]

/-- What Append leaves alone (R182). -/
theorem appendCode_frame (c : List Bool) (s : State) :
    appendCode c s = { s with buf := (appendCode c s).buf, bitlen := (appendCode c s).bitlen } := by
  simp only [appendCode]
  split
  · rfl
  · split <;> rfl

/-- THE APPEND LAW (R181): the buffer's bits are the old bits and then the code. -/
theorem appendCode_bufHas {v : List Bool} {s : State} (h : BufHas v s) (c : List Bool) :
    BufHas (v ++ c) (appendCode c s) := by
  obtain ⟨hl, hb⟩ := h
  simp only [appendCode]
  split
  · next hc =>
    have : c = [] := List.length_eq_zero_iff.1 hc
    subst this
    exact ⟨by simpa using hl, by simpa using hb⟩
  · next hc =>
    have hc' : c ≠ [] := fun e => hc (by rw [e]; rfl)
    split
    · next hm =>
      refine ⟨by simp [hl], ?_⟩
      simp only
      rw [hb, pack_append_aligned _ _ (by rw [← hl]; exact hm)]
    · next hm =>
      refine ⟨by simp [hl], ?_⟩
      simp only
      have hsplit : v = v.take (8 * (v.length / 8)) ++ v.drop (8 * (v.length / 8)) := (List.take_append_drop _ _).symm
      have hdl : (v.drop (8 * (v.length / 8))).length = s.bitlen % 8 := by
        rw [List.length_drop, hl]; omega
      have htl : (v.take (8 * (v.length / 8))).length % 8 = 0 := by
        rw [List.length_take]; omega
      generalize v.take (8 * (v.length / 8)) = v1 at *
      generalize v.drop (8 * (v.length / 8)) = v2 at *
      have hm1 := pack_merge v2 c (by omega) (by omega) hc'
      obtain ⟨x, hx⟩ : ∃ x, pack v2 = [x] := by
        have : (pack v2).length = 1 := by rw [length_pack]; simp only [ceil8]; omega
        exact List.length_eq_one_iff.1 this
      rw [hb, hsplit, List.append_assoc, pack_append_aligned _ _ htl, pack_append_aligned _ _ htl, hm1, hx,
        orLast_append_singleton, hdl]
      simp

/-! ### The flushes -/

/-- What FlushComplete leaves alone, and that it writes whole bytes of the buffer (R183). -/
theorem flushComplete_eq (s : State) : flushComplete s = { s with
    out := s.out ++ s.buf.take (s.bitlen / 8)
    accesses := s.accesses ++ (s.buf.take (s.bitlen / 8)).map .write
    buf := s.buf.drop (s.bitlen / 8)
    bitlen := s.bitlen % 8 } := by
  simp only [flushComplete, outWriteAll_eq]

/-- FlushComplete moves whole bytes from the front of the bits to OUT and changes no bit (R183). -/
theorem flushComplete_bufHas {v : List Bool} {s : State} (h : BufHas v s) :
    (flushComplete s).out = s.out ++ pack (v.take (8 * (v.length / 8))) ∧
    BufHas (v.drop (8 * (v.length / 8))) (flushComplete s) := by
  obtain ⟨hl, hb⟩ := h
  have htl : (v.take (8 * (v.length / 8))).length = 8 * (v.length / 8) := by rw [List.length_take]; omega
  have hp : s.buf = pack (v.take (8 * (v.length / 8))) ++ pack (v.drop (8 * (v.length / 8))) := by
    rw [hb, ← pack_append_aligned _ _ (by omega), List.take_append_drop]
  have hpl : (pack (v.take (8 * (v.length / 8)))).length = v.length / 8 := by
    rw [length_pack, htl]; simp only [ceil8]; omega
  rw [flushComplete_eq]
  refine ⟨?_, ?_, ?_⟩
  · simp only
    rw [hp, hl, List.take_left' hpl]
  · simp only [List.length_drop, hl]; omega
  · simp only
    rw [hp, hl, List.drop_left' hpl]

/-- FlushFinal on at most 7 bits writes them as one byte with a zero pad, or nothing (R184). -/
theorem flushFinal_bufHas {v : List Bool} {s : State} (h : BufHas v s) (h8 : v.length < 8) : flushFinal s = { s with
    out := s.out ++ pack v
    accesses := s.accesses ++ (pack v).map .write
    buf := []
    bitlen := 0 } := by
  obtain ⟨hl, hb⟩ := h
  have hlen : (pack v).length ≤ 1 := by rw [length_pack]; simp only [ceil8]; omega
  simp only [flushFinal]
  split
  · rw [hb, List.take_of_length_le hlen, outWriteAll_eq]
  · next h0 =>
    have hv : v = [] := List.length_eq_zero_iff.1 (by omega)
    subst hv
    simp

/-! ### One chunk -/

theorem codesOf_congr {s t : State} (h : t.dict = s.dict) (l : List Byte) : codesOf t l = codesOf s l := by
  simp only [codesOf, dictAt_congr h]

theorem codesOf_cons (s : State) (b : Byte) (l : List Byte) : codesOf s (b :: l) = (dictAt s b).code ++ codesOf s l := by
  simp [codesOf]

theorem codesOf_append (s : State) (a b : List Byte) : codesOf s (a ++ b) = codesOf s a ++ codesOf s b := by
  simp [codesOf]

/-- The state after the symbols `l` were read and their codes appended, PACK's registers aside. -/
def PackedTo (s : State) (l : List Byte) (v : List Bool) (t : State) : Prop :=
  BufHas v t ∧
  t = { s with
    buf := t.buf
    bitlen := t.bitlen
    inp := ⟨s.inp.data, s.inp.pos + l.length⟩
    accesses := s.accesses ++ l.map .read }

theorem packedTo_nil {s : State} {v : List Bool} (h : BufHas v s) : PackedTo s [] v s :=
  ⟨h, by simp⟩

/-- One symbol with a code (R180): it is read and its code appended. -/
theorem packSymbol_valid {s : State} {b : Byte} {l : List Byte} (h : s.inp.rest = b :: l)
    (hb : (dictAt s b).valid = true) :
    packSymbol s = .again (appendCode (dictAt s b).code (tookByte b s)) := by
  have hd : dictAt (tookByte b s) b = dictAt s b := dictAt_congr (tookByte_dict b s) b
  simp only [packSymbol, inRead_byte h, hd, hb, if_true]

/-- One symbol without a code raises DictMiss with the symbol (R187). -/
theorem packSymbol_miss {s : State} {b : Byte} {l : List Byte} (h : s.inp.rest = b :: l)
    (hb : (dictAt s b).valid = false) : packSymbol s = .raised (raise .dictMiss b (tookByte b s)) := by
  have hd : dictAt (tookByte b s) b = dictAt s b := dictAt_congr (tookByte_dict b s) b
  simp only [packSymbol, inRead_byte h, hd, hb, Bool.false_eq_true, if_false]

theorem packSymbol_eof {s : State} (h : s.inp.rest = []) : packSymbol s = .exit s := by
  simp only [packSymbol, inRead_eof h]

/-- What a chunk does with symbols that have codes: with `k` to take and symbols `a` of IN taken first, it goes on with what
follows them. -/
theorem packChunk_valid (a : List Byte) : ∀ (s : State) (v : List Bool) (r : List Byte) (k : Nat),
    s.inp.rest = a ++ r → (∀ b ∈ a, (dictAt s b).valid = true) → BufHas v s → a.length ≤ k →
    ∃ t, PackedTo s a (v ++ codesOf s a) t ∧ t.inp.rest = r ∧ packChunk k s = packChunk (k - a.length) t := by
  induction a with
  | nil =>
    intro s v r k hr _ hv _
    exact ⟨s, by simpa [codesOf] using packedTo_nil hv, by simpa using hr, by simp⟩
  | cons b a ih =>
    intro s v r k hr ha hv hk
    obtain ⟨k, rfl⟩ : ∃ j, k = j + 1 := ⟨k - 1, by simp at hk; omega⟩
    have hb := packSymbol_valid (s := s) (b := b) (l := a ++ r) (by simpa using hr) (ha b (by simp))
    have hv1 : BufHas v (tookByte b s) := hv
    have hv2 := appendCode_bufHas hv1 (dictAt s b).code
    have hfr := appendCode_frame (dictAt s b).code (tookByte b s)
    generalize appendCode (dictAt s b).code (tookByte b s) = s1 at *
    have hd : s1.dict = s.dict := by rw [hfr]; rfl
    have hi : s1.inp = ⟨s.inp.data, s.inp.pos + 1⟩ := by rw [hfr]; rfl
    obtain ⟨t, ⟨htb, htf⟩, htr, htc⟩ := ih s1 (v ++ (dictAt s b).code) r k
      (by rw [hi]; exact rest_after (by simpa using hr))
      (by intro c hc; rw [dictAt_congr hd]; exact ha c (by simp [hc])) hv2 (by simp at hk; omega)
    refine ⟨t, ⟨?_, ?_⟩, htr, ?_⟩
    · rwa [codesOf_congr hd, List.append_assoc, ← codesOf_cons] at htb
    · rw [htf, hfr]
      simp only [tookByte, List.length_cons, List.map_cons, List.append_assoc, List.singleton_append]
      congr 2
      omega
    · rw [packChunk, hb]
      simp only [List.length_cons, Nat.add_sub_add_right]
      exact htc

/-- A full chunk (R180, R183): `a` is read, its codes join the bits, the complete bytes go to OUT. -/
theorem packPass_full {s : State} {v : List Bool} {a r : List Byte} (hr : s.inp.rest = a ++ r)
    (ha : ∀ b ∈ a, (dictAt s b).valid = true) (hv : BufHas v s) :
    ∃ t, PackedTo s a (v ++ codesOf s a) t ∧ t.inp.rest = r ∧
      packPass a.length s = .again (flushComplete t) := by
  obtain ⟨t, ht, htr, htc⟩ := packChunk_valid a s v r a.length hr ha hv (Nat.le_refl _)
  refine ⟨t, ht, htr, ?_⟩
  rw [packPass, htc, Nat.sub_self, packChunk]

/-- A short chunk (R180): the input ends in it. -/
theorem packPass_short {s : State} {v : List Bool} {chunk : Nat} (hk : s.inp.rest.length < chunk)
    (ha : ∀ b ∈ s.inp.rest, (dictAt s b).valid = true) (hv : BufHas v s) :
    ∃ t, PackedTo s s.inp.rest (v ++ codesOf s s.inp.rest) t ∧ packPass chunk s = .exit (flushComplete t) := by
  obtain ⟨t, ht, htr, htc⟩ := packChunk_valid s.inp.rest s v [] chunk (by simp) ha hv (by omega)
  refine ⟨t, ht, ?_⟩
  obtain ⟨j, hj⟩ : ∃ j, chunk - s.inp.rest.length = j + 1 := ⟨chunk - s.inp.rest.length - 1, by omega⟩
  rw [packPass, htc, hj, packChunk, packSymbol_eof htr]

/-- A chunk with a symbol that has no code (R187). -/
theorem packPass_miss {s : State} {v : List Bool} {chunk : Nat} {a r : List Byte} {b : Byte}
    (hr : s.inp.rest = a ++ b :: r) (ha : ∀ c ∈ a, (dictAt s c).valid = true) (hb : (dictAt s b).valid = false)
    (hk : a.length < chunk) (hv : BufHas v s) :
    ∃ t, PackedTo s a (v ++ codesOf s a) t ∧ packPass chunk s = .raised (raise .dictMiss b (tookByte b t)) := by
  obtain ⟨t, ht, htr, htc⟩ := packChunk_valid a s v (b :: r) chunk hr ha hv (by omega)
  refine ⟨t, ht, ?_⟩
  obtain ⟨j, hj⟩ : ∃ j, chunk - a.length = j + 1 := ⟨chunk - a.length - 1, by omega⟩
  have hd : t.dict = s.dict := by rw [ht.2]
  rw [packPass, htc, hj, packChunk, packSymbol_miss htr (by rw [dictAt_congr hd]; exact hb)]

/-! ### The chunk loop -/

/-- The state after whole chunks `a` were packed: of the bits `v` before and the codes of `a`, whole bytes stand in OUT and fewer
than 8 bits are left in the buffer. -/
def ChunksTo (s : State) (a : List Byte) (v : List Bool) (t : State) : Prop :=
  ∃ x w, bits x ++ w = v ++ codesOf s a ∧ w.length < 8 ∧ BufHas w t ∧ t = { s with
    buf := t.buf
    bitlen := t.bitlen
    inp := ⟨s.inp.data, s.inp.pos + a.length⟩
    out := s.out ++ x
    accesses := t.accesses }

theorem chunksTo_of_flush {s t : State} {a : List Byte} {v : List Bool} (h : PackedTo s a (v ++ codesOf s a) t) :
    ChunksTo s a v (flushComplete t) := by
  obtain ⟨hb, hf⟩ := h
  obtain ⟨ho, hb'⟩ := flushComplete_bufHas hb
  generalize hu : v ++ codesOf s a = u at *
  have htl : (u.take (8 * (u.length / 8))).length = 8 * (u.length / 8) := by rw [List.length_take]; omega
  refine ⟨pack (u.take (8 * (u.length / 8))), u.drop (8 * (u.length / 8)), ?_, ?_, hb', ?_⟩
  · rw [bits_pack, hu, htl]
    have : 8 * ceil8 (8 * (u.length / 8)) - 8 * (u.length / 8) = 0 := by simp only [ceil8]; omega
    rw [this]
    simp [List.take_append_drop]
  · rw [List.length_drop]; omega
  · have e := flushComplete_eq t
    have ho' : t.out = s.out := by rw [hf]
    rw [← ho', ← ho, e]
    rw [State.ext_iff] at hf
    ext1 <;> simp_all

theorem ChunksTo.trans {s t u : State} {a b : List Byte} {v w : List Bool} (h1 : ChunksTo s a v t) (hw : BufHas w t)
    (h2 : ChunksTo t b w u) : ChunksTo s (a ++ b) v u := by
  obtain ⟨x, w1, e1, -, hb1, f1⟩ := h1
  obtain ⟨y, w2, e2, l2, hb2, f2⟩ := h2
  have hww : w = w1 := by rw [← hw.validBits, hb1.validBits]
  subst hww
  have hd : t.dict = s.dict := by rw [f1]
  refine ⟨x ++ y, w2, ?_, l2, hb2, ?_⟩
  · rw [bits_append, List.append_assoc, e2, codesOf_congr hd, ← List.append_assoc, e1, codesOf_append, List.append_assoc]
  · rw [f2]
    simp only
    rw [f1]
    simp only [List.append_assoc, List.length_append]
    congr 2
    omega

/-- The loop over whole chunks: `q` of them, of symbols that have codes, are `q` passes (R180). -/
theorem loop_packPass_full (chunk : Nat) : ∀ (q : Nat) (s : State) (v : List Bool) (a r : List Byte) (n : Nat),
    s.inp.rest = a ++ r → (∀ b ∈ a, (dictAt s b).valid = true) → BufHas v s → v.length < 8 → a.length = q * chunk →
    ∃ t, ChunksTo s a v t ∧ t.inp.rest = r ∧ loop (packPass chunk) (q + n) s = loop (packPass chunk) n t := by
  intro q
  induction q with
  | zero =>
    intro s v a r n hr _ hv h8 hl
    have : a = [] := List.length_eq_zero_iff.1 (by simpa using hl)
    subst this
    exact ⟨s, ⟨[], v, by simp [codesOf], h8, hv, by simp⟩, by simpa using hr, by simp⟩
  | succ q ih =>
    intro s v a r n hr ha hv h8 hl
    have hl' : a.length = q * chunk + chunk := by rw [hl, Nat.add_mul, Nat.one_mul]
    obtain ⟨a1, a2, rfl, h1⟩ : ∃ a1 a2, a = a1 ++ a2 ∧ a1.length = chunk :=
      ⟨a.take chunk, a.drop chunk, (List.take_append_drop _ _).symm, by rw [List.length_take]; omega⟩
    obtain ⟨t1, ht1, hr1, hp1⟩ := packPass_full (s := s) (v := v) (a := a1) (r := a2 ++ r) (by simpa using hr)
      (fun b hb => ha b (by simp [hb])) hv
    have hc1 := chunksTo_of_flush ht1
    have hr1' : (flushComplete t1).inp.rest = a2 ++ r := by rw [flushComplete_eq]; exact hr1
    generalize flushComplete t1 = s1 at *
    have hd : s1.dict = s.dict := by obtain ⟨x, w, -, -, -, f⟩ := hc1; rw [f]
    obtain ⟨x, w, e, lw, hw, f⟩ := hc1
    obtain ⟨t, ht, htr, htl⟩ := ih s1 w a2 r n hr1' (by
        intro b hb; rw [dictAt_congr hd]; exact ha b (by simp [hb])) hw lw (by simp at hl'; omega)
    refine ⟨t, ChunksTo.trans ⟨x, w, e, lw, hw, f⟩ hw ht, htr, ?_⟩
    rw [show q + 1 + n = (q + n) + 1 by omega, loop_of_again (by rw [← h1]; exact hp1), htl]

/-- PACK on symbols that all have codes (R180, R186): whatever the chunk size, OUT gains the packed concatenation of their codes, IN
is at its end, the buffer is empty. -/
theorem packMain_valid {chunk : Nat} (hc : 1 ≤ chunk) {s : State}
    (ha : ∀ b ∈ s.inp.rest, (dictAt s b).valid = true) :
    ∃ t, packMain chunk s = .done t ∧ t = { s with
      buf := []
      bitlen := 0
      inp := ⟨s.inp.data, s.inp.pos + s.inp.rest.length⟩
      out := s.out ++ pack (codesOf s s.inp.rest)
      accesses := t.accesses } := by
  obtain ⟨q, hq⟩ : ∃ q, q = s.inp.rest.length / chunk := ⟨_, rfl⟩
  have hle : q * chunk ≤ s.inp.rest.length := by rw [hq]; exact Nat.div_mul_le_self _ _
  have hqle : q ≤ s.inp.rest.length := by rw [hq]; exact Nat.div_le_self _ _
  have hlt : s.inp.rest.length < q * chunk + chunk := by
    rw [hq]; have := Nat.lt_div_mul_add (a := s.inp.rest.length) (show 0 < chunk by omega); omega
  obtain ⟨a, r, har, hal⟩ : ∃ a r, s.inp.rest = a ++ r ∧ a.length = q * chunk :=
    ⟨_, _, (List.take_append_drop (q * chunk) _).symm, by rw [List.length_take]; omega⟩
  obtain ⟨t1, ht1, hr1, hl1⟩ := loop_packPass_full chunk q { s with buf := [], bitlen := 0 } [] a r
    (s.inp.left + 1 - q) har (fun b hb => ha b (by rw [har]; simp [hb])) ⟨rfl, rfl⟩ (by simp) hal
  have hd : t1.dict = s.dict := by obtain ⟨x, w, -, -, -, f⟩ := ht1; rw [f]
  obtain ⟨x, w, e, lw, hw, f⟩ := ht1
  have har' := congrArg List.length har
  rw [List.length_append] at har'
  obtain ⟨t2, ht2, hp2⟩ := packPass_short (s := t1) (v := w) (chunk := chunk) (by rw [hr1]; omega)
    (by rw [hr1]; intro b hb; rw [dictAt_congr hd]; exact ha b (by rw [har]; simp [hb])) hw
  have hc2 := chunksTo_of_flush ht2
  obtain ⟨y, w2, e2, lw2, hw2, f2⟩ := ChunksTo.trans (⟨x, w, e, lw, hw, f⟩ : ChunksTo _ a [] t1) hw hc2
  rw [hr1, ← har] at e2 f2
  have e2' : bits y ++ w2 = codesOf s s.inp.rest := e2
  have hloop : loop (packPass chunk) (s.inp.left + 1) { s with buf := [], bitlen := 0 } = .done (flushComplete t2) := by
    have hleft : s.inp.left = s.inp.rest.length := left_eq_length_rest _
    rw [show s.inp.left + 1 = q + (s.inp.left + 1 - q) by omega, hl1,
      show s.inp.left + 1 - q = (s.inp.left - q) + 1 by omega, loop_of_exit hp2]
  refine ⟨flushFinal (flushComplete t2), by rw [packMain, hloop]; rfl, ?_⟩
  have ff := flushFinal_bufHas hw2 lw2
  generalize flushComplete t2 = t3 at *
  rw [ff]
  simp only
  rw [f2]
  simp only [State.mk.injEq, true_and, and_true, List.append_assoc, List.append_cancel_left_eq]
  rw [← e2', pack_bits_append]

end Sys2Proof.Machine
end

