-- ==== Sys2Proof/Laws/PerInstr.lean ====
section
/-! SUPPORT. One lemma per command about its word (spec/30_encoding.md R90, R91): the zero field, the operation number, and that no
other word selects it. -/

namespace Sys2Proof.Laws.WordFields

/-- The command is well formed; its encoding is one word whose bits 7:4 are 0 and whose operation number is 1 to 9; that word, and no
other, decodes to it. -/
def Statement (i : Instr) : Prop :=
  i.wellFormed = true ∧
  encode i = [encodeWord i] ∧
  (encodeWord i).extractLsb' 4 4 = 0#4 ∧
  1#4 ≤ (encodeWord i).extractLsb' 0 4 ∧ (encodeWord i).extractLsb' 0 4 ≤ 9#4 ∧
  ∀ w : Byte, decodeWord w = .ok i ↔ w = encodeWord i

theorem clear : Statement .clear := by unfold Statement; decide
theorem count : Statement .count := by unfold Statement; decide
theorem buildTree : Statement .buildTree := by unfold Statement; decide
theorem buildDict : Statement .buildDict := by unfold Statement; decide
theorem encMeta : Statement .encMeta := by unfold Statement; decide
theorem decMeta : Statement .decMeta := by unfold Statement; decide
theorem pack : Statement .pack := by unfold Statement; decide
theorem decode : Statement .decode := by unfold Statement; decide
theorem nop : Statement .nop := by unfold Statement; decide

end Sys2Proof.Laws.WordFields
end

