-- ==== Sys2Proof/Laws/TreeSame.lean ====
section
/-! SUPPORT. BUILD_TREE reads nothing but FREQ (spec/41_tree_builder.md R134, determinism): run from two states with the same table it
stays in step with itself. -/

namespace Sys2Proof.Machine

/-! ### Two runs side by side -/

/-- Two passes that end the same way, in related states. -/
def Iter.Rel (R : State → State → Prop) : Iter → Iter → Prop
  | .again s, .again t => R s t
  | .exit s, .exit t => R s t
  | .raised s, .raised t => R s t
  | .stuck f, .stuck g => f = g
  | _, _ => False

/-- Two parts that end the same way, in related states. -/
def Run.Rel (R : State → State → Prop) : Run → Run → Prop
  | .done s, .done t => R s t
  | .raised s, .raised t => R s t
  | .stuck f, .stuck g => f = g
  | _, _ => False

theorem loop_rel {R : State → State → Prop} {body : State → Iter}
    (h : ∀ s t, R s t → (body s).Rel R (body t)) (n : Nat) : ∀ s t, R s t → (loop body n s).Rel R (loop body n t) := by
  induction n with
  | zero => intro s t _; rfl
  | succ n ih =>
    intro s t hst
    have hb := h s t hst
    rw [loop, loop]
    cases h1 : body s <;> cases h2 : body t <;> rw [h1, h2] at hb <;>
      first | exact hb.elim | exact ih _ _ hb | exact hb

/-! ### What BUILD_TREE reads -/

/-- Two states that BUILD_TREE cannot tell apart: the table, the list and its nodes are the same. -/
structure TreeEq (s t : State) : Prop where
  freq   : t.freq = s.freq
  ncount : t.ncount = s.ncount
  nleaf  : t.nleaf = s.nleaf
  root   : t.root = s.root
  work   : t.work = s.work
  leaves : leafList t = leafList s
  nodes  : ∀ i : NodeIx, i.toNat < s.ncount.toNat → nodeAt t.node i = nodeAt s.node i
  known  : ∀ i ∈ s.work, i.toNat < s.ncount.toNat
  room   : s.ncount.toNat + s.work.length ≤ 512

/-- Adding the same node to both. -/
theorem TreeEq.addNode {s t : State} (h : TreeEq s t) (n : Node) (hc : s.ncount.toNat < 511)
    (hroom : s.ncount.toNat + s.work.length + 2 ≤ 512) : TreeEq (addNode n s) (addNode n t) := by
  have hct : t.ncount.toNat < 511 := by rw [h.ncount]; exact hc
  have hnodes : ∀ i : NodeIx, i.toNat < s.ncount.toNat + 1 →
      nodeAt (Machine.addNode n t).node i = nodeAt (Machine.addNode n s).node i := by
    intro i hi
    rw [addNode_node, addNode_node, nodeAt_set _ _ _ _ hc, nodeAt_set _ _ _ _ hct, h.ncount]
    split
    · rfl
    · exact h.nodes i (by omega)
  refine ⟨h.freq, ?_, h.nleaf, h.root, ?_, h.leaves, ?_, ?_, ?_⟩
  · rw [addNode_ncount, addNode_ncount, h.ncount]
  · rw [addNode_work, addNode_work, h.ncount, h.work]
    rw [addNode_node, addNode_node] at hnodes
    rw [h.ncount] at hnodes
    refine insertWork_congr (hnodes _ ?_) fun j hj => hnodes _ ?_
    · rw [toNat_newIndex hc]; omega
    · have := h.known j hj; omega
  · intro i hi
    rw [ncount_addNode hc] at hi
    exact hnodes i hi
  · intro i hi
    rw [ncount_addNode hc]
    rw [addNode_work] at hi
    rcases mem_insertWork.1 hi with rfl | hi
    · rw [toNat_newIndex hc]; omega
    · have := h.known i hi; omega
  · rw [ncount_addNode hc, addNode_work, length_insertWork]; omega

theorem treeEq_addLeaf {s t : State} (h : TreeEq s t) (b : Byte) (hc : s.ncount.toNat < 511)
    (hroom : s.ncount.toNat + s.work.length + 2 ≤ 512) : TreeEq (addLeaf s b) (addLeaf t b) := by
  have hf : freqAt t b = freqAt s b := freqAt_congr h.freq b
  rw [addLeaf, addLeaf, hf]
  split
  · exact h
  · exact h.addNode _ hc hroom

theorem treeEq_foldl {s0 : State} (zs : List Byte) : ∀ (ys : List Byte) (s t : State), LeafScan s0 ys s → TreeEq s t →
    ys.length + zs.length ≤ 256 → TreeEq (zs.foldl addLeaf s) (zs.foldl addLeaf t) := by
  induction zs with
  | nil => intro ys s t _ h _; exact h
  | cons z zs ih =>
    intro ys s t hs h hl
    simp only [List.length_cons] at hl
    have h1 : s.ncount.toNat ≤ ys.length := by rw [hs.count]; exact List.length_filter_le _ _
    have h2 : s.work.length = s.ncount.toNat := by simpa using hs.work.length_eq
    have := ih (ys ++ [z]) (addLeaf s z) (addLeaf t z) (addLeaf_scan hs (by omega))
      (treeEq_addLeaf h z (by omega) (by omega)) (by simp; omega)
    simpa using this

theorem treeEq_addLeaves {s t : State} (h : t.freq = s.freq) : TreeEq (addLeaves (startTree s)) (addLeaves (startTree t)) := by
  have h0 : LeafScan (startTree s) [] (startTree s) := by
    constructor
    · rfl
    · rfl
    · rfl
    · exact List.Perm.refl _
    · exact List.Pairwise.nil
  have h1 : TreeEq (startTree s) (startTree t) := by
    refine ⟨h, rfl, rfl, rfl, rfl, rfl, ?_, ?_, ?_⟩
    · intro i hi
      have : (startTree s).ncount.toNat = 0 := rfl
      omega
    · intro i hi
      have : (startTree s).work = [] := rfl
      rw [this] at hi; simp at hi
    · show 0 + 0 ≤ 512; omega
  rw [addLeaves, addLeaves]
  exact treeEq_foldl symbols [] _ _ h0 h1 (by simp)

theorem TreeEq.recordLeaves {s t : State} (h : TreeEq s t) (hw : s.work.length ≤ 256) :
    TreeEq (recordLeaves s) (recordLeaves t) := by
  refine ⟨h.freq, h.ncount, ?_, h.root, h.work, ?_, h.nodes, h.known, h.room⟩
  · rw [recordLeaves_nleaf, recordLeaves_nleaf, h.work]
  · rw [leafList_recordLeaves hw, leafList_recordLeaves (by rw [h.work]; exact hw), h.work]

theorem treeEq_mergeStep {s t : State} (h : TreeEq s t) : (mergeStep s).Rel TreeEq (mergeStep t) := by
  rcases mergeStep_cases s with ⟨hl, he⟩ | ⟨l, a, b, hw, hm⟩
  · rcases mergeStep_cases t with ⟨-, he'⟩ | ⟨l', a', b', hw', -⟩
    · rw [he, he']; exact h
    · rw [h.work] at hw'; rw [hw'] at hl; simp at hl
  · rcases mergeStep_cases t with ⟨hl, -⟩ | ⟨l', a', b', hw', hm'⟩
    · rw [h.work, hw] at hl; simp at hl
    · have hww := hw
      rw [← h.work, hw'] at hww
      obtain ⟨rfl, e⟩ := List.append_inj' hww rfl
      simp only [List.cons.injEq, and_true] at e
      obtain ⟨rfl, rfl⟩ := e
      have hka := h.known a' (by rw [hw]; simp)
      have hkb := h.known b' (by rw [hw]; simp)
      have hroom := h.room
      rw [hw, List.length_append] at hroom
      simp only [List.length_cons, List.length_nil] at hroom
      have hpop : TreeEq { s with work := l' } { t with work := l' } :=
        ⟨h.freq, h.ncount, h.nleaf, h.root, rfl, h.leaves, h.nodes,
          fun i hi => h.known i (by rw [hw]; simp [hi]), by simp only; omega⟩
      rw [hm, hm', mergeNodes, mergeNodes]
      simp only
      rw [h.nodes _ hka, h.nodes _ hkb]
      split
      · exact ⟨hpop.freq, hpop.ncount, hpop.nleaf, hpop.root, rfl, hpop.leaves, hpop.nodes, hpop.known, hpop.room⟩
      · split
        · exact ⟨hpop.freq, hpop.ncount, hpop.nleaf, hpop.root, rfl, hpop.leaves, hpop.nodes, hpop.known, hpop.room⟩
        · exact hpop.addNode _ (by simp only; omega) (by simp only; omega)

/-- The two commands end the same way, with the same tree. -/
theorem treeEq_buildTreeMain {s t : State} (h : t.freq = s.freq) {r r' : Run} (hr : buildTreeMain s = r)
    (hr' : buildTreeMain t = r') : r.Rel TreeEq r' := by
  have h1 := treeEq_addLeaves h
  have hlen : (addLeaves (startTree s)).work.length ≤ 256 := by
    rw [(addLeaves_scan s).work_length]; exact length_presentSymbols _
  subst hr hr'
  rw [buildTreeMain, buildTreeMain]
  generalize addLeaves (startTree s) = s1 at h1 hlen
  generalize addLeaves (startTree t) = t1 at h1
  simp only
  rw [h1.work]
  split
  · exact ⟨h1.freq, h1.ncount, h1.nleaf, h1.root, h1.work, h1.leaves, h1.nodes, h1.known, h1.room⟩
  · have h2 := h1.recordLeaves hlen
    have e : (recordLeaves t1).work = (recordLeaves s1).work := h2.work
    rw [e]
    have h3 := loop_rel (R := TreeEq) (body := mergeStep) (fun _ _ => treeEq_mergeStep) (recordLeaves s1).work.length _ _ h2
    cases h4 : loop mergeStep (recordLeaves s1).work.length (recordLeaves s1) <;>
      cases h5 : loop mergeStep (recordLeaves s1).work.length (recordLeaves t1) <;> rw [h4, h5] at h3 <;>
      first | exact h3.elim | skip
    · refine ⟨h3.freq, h3.ncount, h3.nleaf, ?_, h3.work, h3.leaves, h3.nodes, h3.known, h3.room⟩
      simp only [finishTree, setTV, h3.work]
    · exact h3
    · exact h3

end Sys2Proof.Machine
end

