-- ==== Sys2Proof/Tests/Slice0.lean ====
section
/-! SUPPORT. Tests: the words of spec/30_encoding.md, single steps from the vectors of spec/95_test_vectors.md (each theorem names its
vector), and for every statement with hypotheses a state and operands that meet them. -/

namespace Sys2Proof.Tests

open Sys2Proof.Machine

set_option maxRecDepth 20000

/-! ### Helpers -/

/-- The next state an outcome holds, if it is one. -/
def nextOf (o : Host.Outcome State Fault Refusal) : Option State :=
  match o with
  | .next s => some s
  | .fault _ => none
  | .refused _ => none

/-- Whether an outcome is a next state with a property. -/
def holdsNext (o : Host.Outcome State Fault Refusal) (p : State → Bool) : Bool :=
  match o with
  | .next s => p s
  | .fault _ => false
  | .refused _ => false

theorem exists_next {o : Host.Outcome State Fault Refusal} {p : State → Bool} (h : holdsNext o p = true) :
    ∃ t, o = .next t ∧ p t = true := by
  cases o with
  | next t => exact ⟨t, rfl, h⟩
  | fault f => simp [holdsNext] at h
  | refused r => simp [holdsNext] at h

/-- After reset, with `bytes` as the input. -/
def withInput (bytes : List Byte) : State := { State.reset with inp := ⟨bytes, 0⟩ }

/-- After a COUNT that left these bins. -/
def withTable (l : List (Byte × Count)) : State :=
  { State.reset with
    fv := true
    freq := l.foldl (fun v p => v.set p.1.toNat p.2 p.1.isLt) (Vector.replicate 256 0#64) }

/-- A node memory that begins with the nodes `l`. -/
def nodesOf (l : List Node) : Vector Node 511 :=
  l.zipIdx.foldl (fun v p => v.setIfInBounds p.2 p.1) (Vector.replicate 511 Node.blank)

/-- The tree of one leaf, of symbol `y` and frequency `f` (V-T6). -/
def oneLeaf (y : Byte) (f : Count) : State :=
  { withTable [(y, f)] with
    tv := true
    node := nodesOf [mkLeaf y f]
    ncount := 1#10
    nleaf := 1#9
    root := 0#9
    leaflist := (Vector.replicate 256 0#9)
    work := [0#9] }

/-- The tree of "ab" (V-T1): leaves 0 = a, 1 = b; node 2 with b left and a right. -/
def twoLeaves : State :=
  { withTable [(0x61#8, 1#64), (0x62#8, 1#64)] with
    tv := true
    node := nodesOf [mkLeaf 0x61#8 1#64, mkLeaf 0x62#8 1#64, mkInternal 1#9 0#9 2#64]
    ncount := 3#10
    nleaf := 2#9
    root := 2#9
    leaflist := (Vector.replicate 256 0#9).set 1 1#9
    work := [2#9] }

/-- The same with its dictionary (V-C2): b = 0, a = 1. -/
def twoCodes : State :=
  setDict (setDict { twoLeaves with dv := true } 0x61#8 (DictEntry.ofCode [true])) 0x62#8 (DictEntry.ofCode [false])

/-- A tree whose root lacks its right child, with `f` symbols owed: no run builds it. -/
def brokenTree (f : Count) : State :=
  { withTable [(0x61#8, 1#64)] with
    tv := true
    node := nodesOf [mkLeaf 0x61#8 1#64, mkInternal 0#9 Config.nil f]
    ncount := 2#10
    nleaf := 1#9
    root := 1#9 }

/-- A state in FAULT, after V-S3 (a reserved word 0x00). -/
def faulted : State := { State.reset with phase := .fault, err := 8#4 }

theorem twoLeaves_tree : TreeOk twoLeaves := by
  constructor
  · decide
  · decide
  · decide
  · decide
  · exact (by decide : ∀ i, i < 2 → (nodeN twoLeaves i).kind = .leaf ∧ (nodeN twoLeaves i).left = Config.nil ∧
      (nodeN twoLeaves i).right = Config.nil ∧ 1 ≤ (nodeN twoLeaves i).freq.toNat)
  · exact (by decide : ∀ i, i < 3 → 2 ≤ i →
      (nodeN twoLeaves i).kind = .internal ∧ (nodeN twoLeaves i).sym = 0#8 ∧
      (nodeN twoLeaves i).left.toNat < i ∧ (nodeN twoLeaves i).right.toNat < i ∧
      (nodeN twoLeaves i).freq.toNat = (nodeAt twoLeaves.node (nodeN twoLeaves i).left).freq.toNat +
        (nodeAt twoLeaves.node (nodeN twoLeaves i).right).freq.toNat)
  · decide
  · decide

theorem twoLeaves_present : presentSymbols twoLeaves = [0x61#8, 0x62#8] := by decide

theorem twoLeaves_leaves : LeavesOk twoLeaves := by
  constructor
  · rw [twoLeaves_present]; decide
  · decide
  · rw [show leafList twoLeaves = [0#9, 1#9] by decide]; decide

theorem twoCodes_dict : DictOk twoCodes := by
  have h : ∀ b : Byte, b = 0x61#8 ∨ b = 0x62#8 ∨ (b ≠ 0x61#8 ∧ b ≠ 0x62#8) := by
    intro b
    by_cases h1 : b = 0x61#8
    · exact .inl h1
    · by_cases h2 : b = 0x62#8
      · exact .inr (.inl h2)
      · exact .inr (.inr ⟨h1, h2⟩)
  have hd : ∀ b, b ≠ 0x61#8 → b ≠ 0x62#8 → (dictAt twoCodes b).valid = false := by
    intro b h1 h2
    rw [twoCodes, dictAt_setDict, if_neg h2, dictAt_setDict, if_neg h1]
    simp [dictAt, twoLeaves, withTable, State.reset, DictEntry.blank]
  constructor
  · intro b
    rcases h b with rfl | rfl | ⟨h1, h2⟩
    · decide
    · decide
    · rw [hd b h1 h2]
      have : freqAt twoCodes b = 0#64 := by
        by_contra hne
        have hm := mem_presentSymbols.2 (show freqAt twoLeaves b ≠ 0#64 from hne)
        rw [twoLeaves_present] at hm
        simp [h1, h2] at hm
      simp [this]
  · intro b hb
    rcases h b with rfl | rfl | ⟨h1, h2⟩
    · decide
    · decide
    · rw [hd b h1 h2] at hb; simp at hb
  · intro b hb
    rcases h b with rfl | rfl | ⟨h1, h2⟩
    · decide
    · decide
    · rw [hd b h1 h2] at hb; simp at hb

/-! ### Well-formed words and decoding (spec/30_encoding.md R90 to R92) -/

theorem test_zero_field_refused : zeroFieldOk 0x12#8 = false ∧ decodeWord 0x12#8 = .error (.zeroField 0x12#8) := by decide

theorem test_reserved_number_refused : opAssigned 0x0A#8 = false ∧ decodeWord 0x0A#8 = .error (.reservedOp 0x0A#8) := by
  decide

theorem test_zero_word_refused : opAssigned 0x00#8 = false ∧ decodeWord 0x00#8 = .error (.reservedOp 0x00#8) := by decide

theorem test_no_word_refused : Sys2Proof.decode [] = .error .noWord := by decide

theorem test_words_are_bits : Sys2Proof.decode [0b0000_0001#8, 0b0000_1001#8] = .ok (.clear, [0b0000_1001#8]) ∧
    decodeWord 0b0000_0010#8 = .ok .count ∧ decodeWord 0b0000_0011#8 = .ok .buildTree ∧
    decodeWord 0b0000_0100#8 = .ok .buildDict ∧ decodeWord 0b0000_0101#8 = .ok .encMeta ∧
    decodeWord 0b0000_0110#8 = .ok .decMeta ∧ decodeWord 0b0000_0111#8 = .ok .pack ∧
    decodeWord 0b0000_1000#8 = .ok .decode ∧ decodeWord 0b0000_1001#8 = .ok .nop := by decide

theorem test_every_good_word_decodes : ∀ w : Byte, commandWordOk w = (decodeWord w).toOption.isSome := by decide

/-! ### One step per command (spec/95_test_vectors.md) -/

/-- V-S12: CLEAR after a fault gives STATUS 0 and leaves IN and OUT. -/
theorem test_clear_after_fault :
    holdsNext (exec .clear { faulted with out := [0x61#8], inp := ⟨[0x05#8], 1⟩ })
      (fun t => statusReg t == 0x0000#16 && t.out == [0x61#8] && t.inp == ⟨[0x05#8], 1⟩) = true := by decide

/-- V-S1, V-S2: NOP changes nothing. -/
theorem test_nop : holdsNext (exec .nop twoCodes) (fun t => statusReg t == 0x001C#16 && t.root == 2#9 && (dictAt t 0x61#8).valid) = true := by decide

/-- V-H3: COUNT starts at the current position. -/
theorem test_count_from_position :
    holdsNext (exec .count { withInput [0x61#8, 0x62#8, 0x72#8, 0x61#8, 0x63#8, 0x61#8] with
      inp := ⟨[0x61#8, 0x62#8, 0x72#8, 0x61#8, 0x63#8, 0x61#8], 3⟩ })
      (fun t => statusReg t == 0x0004#16 && freqAt t 0x61#8 == 2#64 && freqAt t 0x63#8 == 1#64 &&
        freqAt t 0x62#8 == 0#64 && t.inp.pos == 6) = true := by decide

/-- V-H2: an empty stream is no fault. -/
theorem test_count_empty :
    holdsNext (exec .count State.reset) (fun t => statusReg t == 0x0004#16 && freqAt t 0x00#8 == 0#64) = true := by decide

/-- V-T3: node 3 = (left 2, right 1, freq 2), node 4 = (left 0, right 3, freq 3), LEAFLIST [0,1,2], ROOT 4. -/
theorem test_build_tree_ties :
    holdsNext (exec .buildTree (withTable [(0x61#8, 1#64), (0x62#8, 1#64), (0x63#8, 1#64)]))
      (fun t => nodeN t 3 == mkInternal 2#9 1#9 2#64 && nodeN t 4 == mkInternal 0#9 3#9 3#64 &&
        leafList t == [0#9, 1#9, 2#9] && t.root == 4#9 && statusReg t == 0x000C#16) = true := by decide

/-- V-T11: CountOverflow, ERRINFO 0x03, NCOUNT 2. -/
theorem test_build_tree_overflow :
    holdsNext (exec .buildTree (withTable [(0x00#8, 0x8000000000000000#64), (0x01#8, 0x8000000000000000#64)]))
      (fun t => statusReg t == 0x0606#16 && t.errinfo == 0x03#8 && t.ncount == 2#10) = true := by decide

/-- V-C2: 0x62 has code 0, byte 00; 0x61 has code 1, byte 80. -/
theorem test_build_dict :
    holdsNext (exec .buildDict twoLeaves)
      (fun t => statusReg t == 0x001C#16 && (dictAt t 0x62#8).code == [false] && (dictAt t 0x61#8).code == [true] &&
        (dictAt t 0x61#8).bytes[0] == 0x80#8 && (dictAt t 0x62#8).bytes[0] == 0x00#8 &&
        (dictAt t 0x63#8).valid == false) = true := by decide

/-- V-C7: one leaf has the empty code. -/
theorem test_build_dict_single :
    holdsNext (exec .buildDict (oneLeaf 0x00#8 1#64))
      (fun t => statusReg t == 0x001C#16 && (dictAt t 0x00#8).valid && (dictAt t 0x00#8).len == 0#8) = true := by decide

/-- V-M4: frequency 256 takes two bytes, most significant first. -/
theorem test_enc_meta_width :
    holdsNext (exec .encMeta (oneLeaf 0x41#8 256#64))
      (fun t => t.out == [0x01#8, 0x02#8, 0x41#8, 0x01#8, 0x00#8] && metaReg t == 0x0201#16) = true := by decide

/-- V-M10: with 256 leaves nothing is written, N and W stay. -/
theorem test_enc_meta_256 :
    holdsNext (exec .encMeta { twoLeaves with nleaf := 256#9 })
      (fun t => statusReg t == 0x040E#16 && t.errinfo == 0x00#8 && t.out == [] && metaReg t == 0x0000#16) = true := by decide

/-- V-M31 and the checks' order of V-M29: a cut inside a field. -/
theorem test_dec_meta_truncated :
    holdsNext (exec .decMeta (withInput [0x02#8, 0x02#8, 0x61#8, 0x00#8]))
      (fun t => statusReg t == 0x0302#16 && t.errinfo == 0x06#8 && t.inp.pos == 4) = true := by decide

/-- V-M29: the zero check comes before the duplicate check. -/
theorem test_dec_meta_zero_first :
    holdsNext (exec .decMeta (withInput [0x02#8, 0x01#8, 0x61#8, 0x01#8, 0x61#8, 0x00#8, 0x00#8]))
      (fun t => statusReg t == 0x0502#16 && t.errinfo == 3#8 && t.inp.pos == 6 && freqAt t 0x61#8 == 1#64) = true := by decide

/-- V-P14: "ab" packs to 80, for a chunk of 4. -/
theorem test_pack :
    holdsNext (accept (packBody 4) { twoCodes with inp := ⟨[0x61#8, 0x62#8], 0⟩ })
      (fun t => t.out == [0x80#8] && t.inp.pos == 2 && t.buf == [] && t.bitlen == 0) = true := by decide

/-- V-P2: the append that grows, `FE`/7 and `1101` to `FF A0`/11. -/
theorem test_append_grows :
    (appendCode [true, true, false, true] { State.reset with buf := [0xFE#8], bitlen := 7 }).buf = [0xFF#8, 0xA0#8] := by
  decide

/-- V-D10: the body 80 of "ab"; six bits stay unread. -/
theorem test_decode :
    holdsNext (exec .decode { twoLeaves with inp := ⟨[0x80#8, 0xAA#8], 0⟩ })
      (fun t => t.out == [0x61#8, 0x62#8] && t.inp.pos == 1 && t.bitpos == 6#4 && t.remain == 0#64) = true := by decide

/-- V-D11: no body byte: TruncatedStream, REMAIN 2. -/
theorem test_decode_truncated :
    holdsNext (exec .decode twoLeaves)
      (fun t => statusReg t == 0x030E#16 && t.errinfo == 0x08#8 && t.remain == 2#64 && t.out == []) = true := by decide

/-- The word placed where the host's next move is taken runs as the first command after reset. -/
theorem test_first_word : step (State.reset.withFetchWord 8 0x03) = exec .buildTree State.reset ∧
    holdsNext (step (State.reset.withFetchWord 8 0x03)) (fun t => statusReg t == 0x0802#16 && t.errinfo == 0x03#8) = true :=
  ⟨rfl, by decide⟩

/-! ### For each statement with hypotheses, a state and operands that meet them -/

/-- Each clause of ReservedWordsRefused, at its boundaries. -/
theorem witness_ReservedWordsRefused : (0x10#8 : Byte).extractLsb' 4 4 ≠ 0#4 ∧ (0xFF#8 : Byte).extractLsb' 4 4 ≠ 0#4 ∧
    (0x0A#8 ≤ (0x0A#8 : Byte) ∧ (0x0A#8 : Byte) ≤ 0x0F#8) ∧ (0x0A#8 ≤ (0x0F#8 : Byte) ∧ (0x0F#8 : Byte) ≤ 0x0F#8) := by
  decide

theorem witness_DecodeInvertsEncode : Instr.nop.wellFormed = true := rfl

/-- After reset, with one move of the host pending. -/
def pendingMove (e : HostEvent) : State := { State.reset with pending := [e] }

theorem witness_StepRunsDecodedCommand : (pendingMove (.command 0x02#8)).pending = .command 0x02#8 :: [] ∧
    Sys2Proof.decode [0x02#8] = .ok (.count, []) ∧ Instr.count.wellFormed = true := ⟨rfl, by decide, rfl⟩

theorem witness_ReservedWordRaisesBadCommand : (pendingMove (.command 0x0A#8)).pending = .command 0x0A#8 :: [] ∧
    (pendingMove (.command 0x0A#8)).phase = .idle ∧ decodeWord 0x0A#8 = .error (.reservedOp 0x0A#8) := by
  refine ⟨rfl, rfl, by decide⟩

theorem witness_FaultPhaseDiscardsWords :
    ({ faulted with pending := [.command 0x02#8] } : State).pending = .command 0x02#8 :: [] ∧
    ({ faulted with pending := [.command 0x02#8] } : State).phase = .fault ∧ (0x02#8 : Byte) ≠ 0x01#8 :=
  ⟨rfl, rfl, by decide⟩

theorem witness_BusyRefuses : ({ State.reset with phase := .busy } : State).phase = .busy := rfl

/-- One witness for each clause of HostStreamActions, in IDLE and in FAULT. -/
theorem witness_HostStreamActions :
    ((pendingMove (.setInput [0x61#8])).phase ≠ .busy ∧
      (pendingMove (.setInput [0x61#8])).pending = .setInput [0x61#8] :: []) ∧
    ((pendingMove .rewind).phase ≠ .busy ∧ (pendingMove .rewind).pending = .rewind :: []) ∧
    (({ faulted with pending := [.takeOutput] } : State).phase ≠ .busy ∧
      ({ faulted with pending := [.takeOutput] } : State).pending = .takeOutput :: []) :=
  ⟨⟨by decide, rfl⟩, ⟨by decide, rfl⟩, ⟨by decide, rfl⟩⟩

/-- The clauses of HostStreamActions about BUSY and about the commands. -/
theorem witness_HostStreamActions_busy :
    (({ pendingMove .rewind with phase := .busy } : State).phase = .busy ∧
      ({ pendingMove .rewind with phase := .busy } : State).pending = .rewind :: []) ∧
    exec .nop State.reset = .next State.reset := ⟨⟨rfl, rfl⟩, by rfl⟩

theorem witness_HostTruncatesOutput : (pendingMove (.truncateOutput 1)).phase ≠ .busy ∧
    (pendingMove (.truncateOutput 1)).pending = .truncateOutput 1 :: [] := ⟨by decide, rfl⟩

/-- One witness for each register, with the tree flag set. -/
theorem witness_HostRegisterReads : ∀ r : HostReg,
    ({ twoLeaves with pending := [.readReg r] } : State).pending = .readReg r :: [] ∧
    (({ twoLeaves with pending := [.readReg r] } : State).tv = true →
      ({ twoLeaves with pending := [.readReg r] } : State).root ≠ Config.nil) :=
  fun _ => ⟨rfl, fun _ => (by decide : (2#9 : NodeIx) ≠ Config.nil)⟩

theorem witness_StatusFields : State.reset.phase = .idle ∧ ({ State.reset with phase := .busy } : State).phase = .busy ∧
    faulted.phase = .fault := ⟨rfl, rfl, rfl⟩

theorem witness_ResetLeavesResetValues : (pendingMove .reset).pending = .reset :: [] := rfl

theorem witness_AbandonedCommandKeepsItsAccesses :
    ∃ t, (pendingMove (.commandThenReset 0x02#8 1)).pending = .commandThenReset 0x02#8 1 :: [] ∧
      issue 0x02#8 { pendingMove (.commandThenReset 0x02#8 1) with pending := [] } = .next t := by
  obtain ⟨t, h, -⟩ := exists_next (p := fun _ => true)
    (by decide : holdsNext (issue 0x02#8 { pendingMove (.commandThenReset 0x02#8 1) with pending := [] }) (fun _ => true) = true)
  exact ⟨t, rfl, h⟩

theorem witness_WaitsForHost : State.reset.pending = [] := rfl

theorem witness_ClearResets : (State.reset.phase = .idle ∨ State.reset.phase = .fault) ∧
    (faulted.phase = .idle ∨ faulted.phase = .fault) := ⟨.inl rfl, .inr rfl⟩

theorem witness_NopChangesNothing : (twoCodes.phase = .idle ∨ twoCodes.phase = .fault) ∧
    (faulted.phase = .idle ∨ faulted.phase = .fault) := ⟨.inl rfl, .inr rfl⟩

/-- Both clauses of BinStep, where they meet: a bin at 2^64 - 2 and one at 2^64 - 1. -/
theorem witness_BinStep :
    (({ withTable [(0x41#8, 0xFFFFFFFFFFFFFFFE#64)] with inp := ⟨[0x41#8], 0⟩ } : State).inp.rest = 0x41#8 :: [] ∧
      (freqAt { withTable [(0x41#8, 0xFFFFFFFFFFFFFFFE#64)] with inp := ⟨[0x41#8], 0⟩ } 0x41#8).toNat < 2 ^ 64 - 1) ∧
    (({ withTable [(0x41#8, 0xFFFFFFFFFFFFFFFF#64)] with inp := ⟨[0x41#8], 0⟩ } : State).inp.rest = 0x41#8 :: [] ∧
      (freqAt { withTable [(0x41#8, 0xFFFFFFFFFFFFFFFF#64)] with inp := ⟨[0x41#8], 0⟩ } 0x41#8).toNat = 2 ^ 64 - 1) := by
  decide

theorem witness_CountResult : (withInput [0x61#8, 0x61#8]).phase = .idle ∧
    ∀ b, (withInput [0x61#8, 0x61#8]).inp.rest.count b < 2 ^ 64 := by
  refine ⟨rfl, fun b => ?_⟩
  have : (withInput [0x61#8, 0x61#8]).inp.rest.count b ≤ 2 := List.count_le_length
  omega

/-- An input of 2^64 equal bytes: the last one does not fit. -/
theorem witness_CountOverflowFaults :
    (withInput (List.replicate (2 ^ 64 - 1) 0x41#8 ++ [0x41#8])).phase = .idle ∧
    (withInput (List.replicate (2 ^ 64 - 1) 0x41#8 ++ [0x41#8])).inp.rest = List.replicate (2 ^ 64 - 1) 0x41#8 ++ 0x41#8 :: [] ∧
    (∀ c, (List.replicate (2 ^ 64 - 1) 0x41#8).count c < 2 ^ 64) ∧
    (List.replicate (2 ^ 64 - 1) 0x41#8).count 0x41#8 = 2 ^ 64 - 1 := by
  refine ⟨rfl, rfl, fun c => ?_, List.count_replicate_self⟩
  rw [List.count_replicate]
  split <;> omega

/-- Both clauses of PreconditionFaults. -/
theorem witness_PreconditionFaults :
    (State.reset.phase = .idle ∧ requiredFlag .buildTree State.reset = false ∧ requiredFlag .pack State.reset = false) ∧
    ∃ t, State.reset.phase = .idle ∧ requiredFlag .count State.reset = true ∧ State.reset.err ≠ 8#4 ∧
      exec .count State.reset = .next t := by
  obtain ⟨t, h, -⟩ := exists_next (p := fun _ => true)
    (by decide : holdsNext (exec .count State.reset) (fun _ => true) = true)
  exact ⟨⟨rfl, rfl, rfl⟩, t, rfl, rfl, by decide, h⟩

/-- A sorted list, for the clause of InsertPlacesAfterEquals that asks for one. -/
theorem witness_InsertPlacesAfterEquals :
    [0#9, 1#9].Pairwise (fun j k => (nodeAt twoLeaves.node k).freq ≤ (nodeAt twoLeaves.node j).freq) := by decide

/-- Two leaves to merge, of frequencies `f` and `g`. -/
def mergePair (f g : Count) : State :=
  { State.reset with node := nodesOf [mkLeaf 0x00#8 f, mkLeaf 0x01#8 g], ncount := 2#10, work := [0#9, 1#9] }

/-- The clause of MergeStepMakesParent about a missing child: NIL popped first, and NIL popped second. -/
theorem witness_MergeStepMakesParent_nil :
    (({ mergePair 1#64 1#64 with work := [0#9, Config.nil] } : State).work = [] ++ [0#9, Config.nil] ∧
      (nodeAt (mergePair 1#64 1#64).node Config.nil).freq.toNat + (nodeAt (mergePair 1#64 1#64).node 0#9).freq.toNat < 2 ^ 64) ∧
    (({ mergePair 1#64 1#64 with work := [Config.nil, 0#9] } : State).work = [] ++ [Config.nil, 0#9] ∧
      (nodeAt (mergePair 1#64 1#64).node 0#9).freq.toNat + (nodeAt (mergePair 1#64 1#64).node Config.nil).freq.toNat < 2 ^ 64) := by
  decide

/-- The two sums of MergeStepMakesParent, where they meet: V-T12 and V-T11. -/
theorem witness_MergeStepMakesParent :
    ((mergePair 0x8000000000000000#64 0x7FFFFFFFFFFFFFFF#64).work = [] ++ [0#9, 1#9] ∧
      (1#9 : NodeIx) ≠ Config.nil ∧ (0#9 : NodeIx) ≠ Config.nil ∧
      (mergePair 0x8000000000000000#64 0x7FFFFFFFFFFFFFFF#64).ncount.toNat < 511 ∧
      (nodeAt (mergePair 0x8000000000000000#64 0x7FFFFFFFFFFFFFFF#64).node 1#9).freq.toNat +
        (nodeAt (mergePair 0x8000000000000000#64 0x7FFFFFFFFFFFFFFF#64).node 0#9).freq.toNat < 2 ^ 64) ∧
    ((mergePair 0x8000000000000000#64 0x8000000000000000#64).work = [] ++ [0#9, 1#9] ∧
      (mergePair 0x8000000000000000#64 0x8000000000000000#64).ncount.toNat < 511 ∧
      2 ^ 64 ≤ (nodeAt (mergePair 0x8000000000000000#64 0x8000000000000000#64).node 1#9).freq.toNat +
        (nodeAt (mergePair 0x8000000000000000#64 0x8000000000000000#64).node 0#9).freq.toNat) := by decide

theorem witness_EmptyInputFaults : (withTable []).phase = .idle ∧ (withTable []).fv = true ∧
    ∀ b, freqAt (withTable []) b = 0#64 := ⟨rfl, rfl, fun b => by simp [freqAt, withTable]⟩

/-- The greatest total that still fits: V-T12. -/
theorem witness_BuildTreeResult :
    (withTable [(0x00#8, 0x8000000000000000#64), (0x01#8, 0x7FFFFFFFFFFFFFFF#64)]).phase = .idle ∧
    (withTable [(0x00#8, 0x8000000000000000#64), (0x01#8, 0x7FFFFFFFFFFFFFFF#64)]).fv = true ∧
    (∃ b, freqAt (withTable [(0x00#8, 0x8000000000000000#64), (0x01#8, 0x7FFFFFFFFFFFFFFF#64)]) b ≠ 0#64) ∧
    freqTotal (withTable [(0x00#8, 0x8000000000000000#64), (0x01#8, 0x7FFFFFFFFFFFFFFF#64)]) < 2 ^ 64 :=
  ⟨rfl, rfl, ⟨0x00#8, by decide⟩, by decide⟩

/-- The least total that does not fit: V-T11. -/
theorem witness_BuildTreeOverflowFaults :
    (withTable [(0x00#8, 0x8000000000000000#64), (0x01#8, 0x8000000000000000#64)]).phase = .idle ∧
    (withTable [(0x00#8, 0x8000000000000000#64), (0x01#8, 0x8000000000000000#64)]).fv = true ∧
    2 ^ 64 ≤ freqTotal (withTable [(0x00#8, 0x8000000000000000#64), (0x01#8, 0x8000000000000000#64)]) :=
  ⟨rfl, rfl, by decide⟩

/-- Two states that differ in their input and node memory, with the same table. -/
theorem witness_BuildTreeReadsOnlyFreq : ∃ t t',
    (withTable [(0x61#8, 1#64)]).phase = .idle ∧ (oneLeaf 0x61#8 1#64).phase = .idle ∧
    (withTable [(0x61#8, 1#64)]).fv = true ∧ (oneLeaf 0x61#8 1#64).fv = true ∧
    (oneLeaf 0x61#8 1#64).freq = (withTable [(0x61#8, 1#64)]).freq ∧
    exec .buildTree (withTable [(0x61#8, 1#64)]) = .next t ∧ exec .buildTree (oneLeaf 0x61#8 1#64) = .next t' := by
  obtain ⟨t, h, -⟩ := exists_next (p := fun _ => true)
    (by decide : holdsNext (exec .buildTree (withTable [(0x61#8, 1#64)])) (fun _ => true) = true)
  obtain ⟨t', h', -⟩ := exists_next (p := fun _ => true)
    (by decide : holdsNext (exec .buildTree (oneLeaf 0x61#8 1#64)) (fun _ => true) = true)
  exact ⟨t, t', rfl, rfl, rfl, rfl, rfl, h, h'⟩

theorem witness_BuildDictResult : twoLeaves.phase = .idle ∧ twoLeaves.tv = true ∧ TreeOk twoLeaves ∧ LeavesOk twoLeaves ∧
    2 ≤ twoLeaves.nleaf.toNat := ⟨rfl, rfl, twoLeaves_tree, twoLeaves_leaves, by decide⟩

theorem witness_CodesArePrefixFree : DictOk twoCodes ∧ (dictAt twoCodes 0x61#8).valid = true ∧
    (dictAt twoCodes 0x62#8).valid = true ∧ (0x61#8 : Byte) ≠ 0x62#8 := ⟨twoCodes_dict, by decide, by decide, by decide⟩

theorem witness_SingleLeafDictionary : (oneLeaf 0x00#8 1#64).phase = .idle ∧ (oneLeaf 0x00#8 1#64).tv = true ∧
    (oneLeaf 0x00#8 1#64).root ≠ Config.nil ∧
    (nodeAt (oneLeaf 0x00#8 1#64).node (oneLeaf 0x00#8 1#64).root).kind = .leaf := by decide

theorem witness_BuildDictMalformedTree : (brokenTree 2#64).phase = .idle ∧ (brokenTree 2#64).tv = true ∧
    (brokenTree 2#64).root ≠ Config.nil ∧ (nodeAt (brokenTree 2#64).node (brokenTree 2#64).root).kind = .internal ∧
    ((nodeAt (brokenTree 2#64).node (brokenTree 2#64).root).left = Config.nil ∨
      (nodeAt (brokenTree 2#64).node (brokenTree 2#64).root).right = Config.nil) := by decide

/-- A right spine of 256 Internal nodes over node 0, whose last, 255 branches below the root, lacks its right child. -/
def spine : State :=
  { withTable [(0x61#8, 1#64)] with
    tv := true
    node := Vector.ofFn fun k : Fin 511 =>
      if k.val = 0 then mkLeaf 0x61#8 1#64
      else if k.val = 256 then mkInternal 0#9 Config.nil 1#64
      else mkInternal 0#9 (BitVec.ofNat 9 (k.val + 1)) 1#64
    root := 1#9 }

theorem spine_node {k : Nat} (h0 : 0 < k) (hk : k < 256) :
    nodeAt spine.node (BitVec.ofNat 9 k) = mkInternal 0#9 (BitVec.ofNat 9 (k + 1)) 1#64 := by
  have e : (BitVec.ofNat 9 k).toNat = k := by rw [BitVec.toNat_ofNat]; omega
  rw [nodeAt, e, Vector.getElem?_eq_getElem (by omega), Option.getD_some]
  simp only [spine, Vector.getElem_ofFn]
  rw [if_neg (by omega), if_neg (by omega)]

theorem spine_zero : (nodeAt spine.node 0#9).kind = .leaf := by decide

/-- Down the spine all nodes are Internal, and left of it there is a leaf at every level. -/
theorem spine_path : ∀ n k, 0 < k → k + n ≤ 256 → ∀ q,
    innerPath spine.node (BitVec.ofNat 9 k) (List.replicate n true ++ q) = innerPath spine.node (BitVec.ofNat 9 (k + n)) q ∧
    reach spine.node (BitVec.ofNat 9 k) (List.replicate n true) = BitVec.ofNat 9 (k + n) := by
  intro n
  induction n with
  | zero => intro k _ _ q; exact ⟨rfl, rfl⟩
  | succ n ih =>
    intro k h0 hk q
    have hn := spine_node h0 (by omega)
    have hc : (BitVec.ofNat 9 (k + 1) == Config.nil) = false := by
      rw [beq_eq_false_iff_ne]
      intro h
      have := congrArg BitVec.toNat h
      rw [BitVec.toNat_ofNat, Config.nil, BitVec.toNat_ofNat] at this
      omega
    obtain ⟨h1, h2⟩ := ih (k + 1) (by omega) (by omega) q
    simp only [List.replicate_succ, List.cons_append, innerPath, reach, hn, childOf, mkInternal]
    rw [show k + (n + 1) = k + 1 + n by omega]
    exact ⟨by simpa [bne, hc] using h1, h2⟩

/-- The clause of BuildDictMalformedTree about a node below the root, at the greatest depth. -/
theorem witness_BuildDictMalformedTree_deep : spine.phase = .idle ∧ spine.tv = true ∧ spine.root ≠ Config.nil ∧
    innerPath spine.node spine.root (List.replicate 255 true) = true ∧
    lacksChild (nodeAt spine.node (reach spine.node spine.root (List.replicate 255 true))) = true ∧
    (List.replicate 255 true).length ≤ 255 ∧
    ∀ p x r, List.replicate 255 true = p ++ true :: x → innerPath spine.node spine.root (p ++ false :: r) = true →
      lacksChild (nodeAt spine.node (reach spine.node spine.root (p ++ false :: r))) = false →
      (p ++ false :: r).length < 255 := by
  have hr : spine.root = BitVec.ofNat 9 1 := rfl
  obtain ⟨h1, h2⟩ := spine_path 255 1 (by omega) (by omega) []
  rw [List.append_nil] at h1
  refine ⟨rfl, rfl, by decide, by rw [hr, h1]; decide, by rw [hr, h2]; decide, by simp, fun p x r hp hi _ => ?_⟩
  exfalso
  have hl := congrArg List.length hp
  simp only [List.length_replicate, List.length_append, List.length_cons] at hl
  have hpt : p = List.replicate p.length true := by
    refine List.eq_replicate_iff.2 ⟨rfl, fun b hb => ?_⟩
    have : b ∈ List.replicate 255 true := by rw [hp]; exact List.mem_append_left _ hb
    exact (List.mem_replicate.1 this).2
  rw [hpt, hr, (spine_path p.length 1 (by omega) (by omega) _).1] at hi
  rw [innerPath, spine_node (by omega) (by omega)] at hi
  simp only [childOf, mkInternal, Bool.and_eq_true, Bool.false_eq_true, if_false] at hi
  have := innerPath_internal hi.2
  rw [spine_zero] at this
  simp at this

/-- The boundary of 255 leaves (the leaf list then names node 0 throughout). -/
theorem witness_EncMetaResult : ({ twoLeaves with nleaf := 255#9, leaflist := Vector.replicate 256 0#9 } : State).phase = .idle ∧
    ({ twoLeaves with nleaf := 255#9, leaflist := Vector.replicate 256 0#9 } : State).tv = true ∧
    ({ twoLeaves with nleaf := 255#9, leaflist := Vector.replicate 256 0#9 } : State).nleaf.toNat ≤ 255 ∧
    ({ twoLeaves with nleaf := 255#9, leaflist := Vector.replicate 256 0#9 } : State).leaflist[0] ≠ Config.nil ∧
    ∀ i ∈ leafList { twoLeaves with nleaf := 255#9, leaflist := Vector.replicate 256 0#9 }, i ≠ Config.nil := by
  refine ⟨rfl, rfl, by decide, by decide, fun i hi => ?_⟩
  have hi := List.mem_of_mem_take hi
  simp only [Vector.toList_replicate, List.mem_replicate] at hi
  rw [hi.2]; decide

theorem witness_EncMetaTooManySymbols : ({ twoLeaves with nleaf := 256#9 } : State).phase = .idle ∧
    ({ twoLeaves with nleaf := 256#9 } : State).tv = true ∧ 255 < ({ twoLeaves with nleaf := 256#9 } : State).nleaf.toNat :=
  ⟨rfl, rfl, by decide⟩

theorem witness_HeaderWidthIsLeast : ∃ t, twoLeaves.phase = .idle ∧ twoLeaves.tv = true ∧ TreeOk twoLeaves ∧
    LeavesOk twoLeaves ∧ twoLeaves.nleaf.toNat ≤ 255 ∧ exec .encMeta twoLeaves = .next t := by
  obtain ⟨t, h, -⟩ := exists_next (p := fun _ => true)
    (by decide : holdsNext (exec .encMeta twoLeaves) (fun _ => true) = true)
  exact ⟨t, rfl, rfl, twoLeaves_tree, twoLeaves_leaves, by decide, h⟩

theorem recordsOk_one (w : Nat) (y : Byte) (f : Nat) (h0 : f ≠ 0) (h : f < 256 ^ w) : RecordsOk w [(y, f)] := by
  refine ⟨by simp, fun r hr => ?_⟩
  rw [List.mem_singleton.1 hr]
  exact ⟨h0, h⟩

/-- The boundaries of DecMetaResult: no record (V-M23), and one of width 8 with a body behind it. -/
theorem witness_DecMetaResult :
    ((withInput [0x00#8, 0x01#8]).phase = .idle ∧
      (withInput [0x00#8, 0x01#8]).inp.rest = 0x00#8 :: 0x01#8 :: (recordsImage (0x01#8 : Byte).toNat [] ++ []) ∧
      ([] : List (Byte × Nat)).length = (0x00#8 : Byte).toNat ∧ 1 ≤ (0x01#8 : Byte).toNat ∧ (0x01#8 : Byte).toNat ≤ 8 ∧
      RecordsOk (0x01#8 : Byte).toNat []) ∧
    ((withInput (0x01#8 :: 0x08#8 :: (recordsImage 8 [(0x41#8, 3)] ++ [0x5D#8]))).phase = .idle ∧
      (withInput (0x01#8 :: 0x08#8 :: (recordsImage 8 [(0x41#8, 3)] ++ [0x5D#8]))).inp.rest =
        0x01#8 :: 0x08#8 :: (recordsImage (0x08#8 : Byte).toNat [(0x41#8, 3)] ++ [0x5D#8]) ∧
      [(0x41#8, 3)].length = (0x01#8 : Byte).toNat ∧ 1 ≤ (0x08#8 : Byte).toNat ∧ (0x08#8 : Byte).toNat ≤ 8 ∧
      RecordsOk (0x08#8 : Byte).toNat [(0x41#8, 3)]) :=
  ⟨⟨rfl, rfl, rfl, by decide, by decide, by simp [RecordsOk]⟩, rfl, rfl, rfl, by decide, by decide,
    recordsOk_one 8 0x41#8 3 (by decide) (by decide)⟩

/-- What the second clause of DecMetaBadHeaders asks of the bytes after N and W. -/
def BadRecord (n w : Byte) (x : List Byte) (rs : List (Byte × Nat)) (y : Byte) (f : Nat) (r : List Byte) : Prop :=
  (withInput (n :: w :: x)).phase = .idle ∧ (withInput (n :: w :: x)).inp.rest = n :: w :: x ∧
  1 ≤ w.toNat ∧ w.toNat ≤ 8 ∧ RecordsOk w.toNat rs ∧ rs.length < n.toNat ∧ f < 256 ^ w.toNat ∧
  x = recordsImage w.toNat (rs ++ [(y, f)]) ++ r ∧ (f = 0 ∨ y ∈ rs.map Prod.fst)

/-- Each clause of DecMetaBadHeaders: widths 0 (V-M24) and 9 (V-M26), a zero frequency (V-M28), a symbol twice (V-M27). -/
theorem witness_DecMetaBadHeaders :
    ((withInput [0x00#8, 0x00#8]).phase = .idle ∧ (withInput [0x00#8, 0x00#8]).inp.rest = 0x00#8 :: 0x00#8 :: [] ∧
      (0x00#8 : Byte).toNat = 0) ∧
    ((withInput [0x02#8, 0x09#8, 0x61#8]).phase = .idle ∧
      (withInput [0x02#8, 0x09#8, 0x61#8]).inp.rest = 0x02#8 :: 0x09#8 :: [0x61#8] ∧ 8 < (0x09#8 : Byte).toNat) ∧
    BadRecord 0x02#8 0x01#8 [0x61#8, 0x01#8, 0x62#8, 0x00#8, 0x00#8] [(0x61#8, 1)] 0x62#8 0 [0x00#8] ∧
    BadRecord 0x02#8 0x01#8 [0x61#8, 0x01#8, 0x61#8, 0x02#8, 0x00#8] [(0x61#8, 1)] 0x61#8 2 [0x00#8] :=
  ⟨⟨rfl, rfl, rfl⟩, ⟨rfl, rfl, by decide⟩,
    ⟨rfl, rfl, by decide, by decide, recordsOk_one 1 0x61#8 1 (by decide) (by decide), by decide, by decide, by decide, .inl rfl⟩,
    ⟨rfl, rfl, by decide, by decide, recordsOk_one 1 0x61#8 1 (by decide) (by decide), by decide, by decide, by decide,
      .inr (by decide)⟩⟩

/-- Each clause of DecMetaTruncated: V-M33, V-M32, and V-M31. -/
theorem witness_DecMetaTruncated :
    ((withInput []).phase = .idle ∧ (withInput []).inp.rest.length < 2) ∧
    ((withInput [0x05#8]).phase = .idle ∧ (withInput [0x05#8]).inp.rest.length < 2) ∧
    ((withInput [0x02#8, 0x02#8, 0x61#8, 0x00#8]).phase = .idle ∧ 1 ≤ (0x02#8 : Byte).toNat ∧ (0x02#8 : Byte).toNat ≤ 8 ∧
      RecordsOk (0x02#8 : Byte).toNat [] ∧ ([] : List (Byte × Nat)).length < (0x02#8 : Byte).toNat ∧
      [0x61#8, (0x00#8 : Byte)].length ≤ (0x02#8 : Byte).toNat ∧
      (withInput [0x02#8, 0x02#8, 0x61#8, 0x00#8]).inp.rest =
        0x02#8 :: 0x02#8 :: (recordsImage (0x02#8 : Byte).toNat [] ++ [0x61#8, 0x00#8])) :=
  ⟨⟨rfl, by decide⟩, ⟨rfl, by decide⟩, rfl, by decide, by decide, by simp [RecordsOk], by decide, by decide, rfl⟩

theorem witness_MetadataRoundTrip : ∃ t h, twoLeaves.phase = .idle ∧ twoLeaves.tv = true ∧ TreeOk twoLeaves ∧
    LeavesOk twoLeaves ∧ twoLeaves.nleaf.toNat ≤ 255 ∧ exec .encMeta twoLeaves = .next t ∧ t.out = twoLeaves.out ++ h ∧
    (withInput (h ++ [0x80#8])).phase = .idle ∧ (withInput (h ++ [0x80#8])).inp = ⟨h ++ [0x80#8], 0⟩ := by
  obtain ⟨t, h, hp⟩ := exists_next (p := fun t => t.out == [0x02#8, 0x01#8, 0x61#8, 0x01#8, 0x62#8, 0x01#8])
    (by decide : holdsNext (exec .encMeta twoLeaves)
      (fun t => t.out == [0x02#8, 0x01#8, 0x61#8, 0x01#8, 0x62#8, 0x01#8]) = true)
  exact ⟨t, [0x02#8, 0x01#8, 0x61#8, 0x01#8, 0x62#8, 0x01#8], rfl, rfl, twoLeaves_tree, twoLeaves_leaves, by decide, h,
    eq_of_beq hp, rfl, rfl⟩

/-- A buffer with a carry of 7 bits (V-P2), and the empty one. -/
def carrySeven : State := { State.reset with buf := [0xFE#8], bitlen := 7 }

theorem carrySeven_ok : BufOk carrySeven := ⟨by decide, by decide⟩

theorem witness_AppendLaw : BufOk carrySeven ∧ BufOk State.reset := ⟨carrySeven_ok, ⟨by decide, by decide⟩⟩

theorem witness_FlushCompleteKeepsCarry : BufOk ({ State.reset with buf := [0xFF#8, 0xA0#8], bitlen := 11 } : State) :=
  ⟨by decide, by decide⟩

/-- Both clauses of FlushFinalPadsWithZeros: a carry and none. -/
theorem witness_FlushFinalPadsWithZeros : (BufOk carrySeven ∧ carrySeven.bitlen ≤ 7 ∧ 0 < carrySeven.bitlen) ∧
    (BufOk State.reset ∧ State.reset.bitlen ≤ 7 ∧ State.reset.bitlen = 0) :=
  ⟨⟨carrySeven_ok, by decide, by decide⟩, ⟨by decide, by decide⟩, by decide, rfl⟩

/-- PackResult at the least CHUNK, and at the configuration's. -/
theorem witness_PackResult : 1 ≤ 1 ∧ 1 ≤ Config.chunk ∧
    ({ twoCodes with inp := ⟨[0x61#8, 0x62#8], 0⟩ } : State).phase = .idle ∧
    ({ twoCodes with inp := ⟨[0x61#8, 0x62#8], 0⟩ } : State).dv = true ∧
    ∀ b ∈ ({ twoCodes with inp := ⟨[0x61#8, 0x62#8], 0⟩ } : State).inp.rest,
      (dictAt { twoCodes with inp := ⟨[0x61#8, 0x62#8], 0⟩ } b).valid = true :=
  ⟨by decide, by rw [Config.chunk]; omega, rfl, rfl, by decide⟩

theorem witness_PackDictMissFaults : 1 ≤ 1 ∧ ({ twoCodes with inp := ⟨[0x61#8, 0x7F#8], 0⟩ } : State).phase = .idle ∧
    ({ twoCodes with inp := ⟨[0x61#8, 0x7F#8], 0⟩ } : State).dv = true ∧
    ({ twoCodes with inp := ⟨[0x61#8, 0x7F#8], 0⟩ } : State).inp.rest = [0x61#8] ++ 0x7F#8 :: [] ∧
    (∀ c ∈ [0x61#8], (dictAt { twoCodes with inp := ⟨[0x61#8, 0x7F#8], 0⟩ } c).valid = true) ∧
    (dictAt { twoCodes with inp := ⟨[0x61#8, 0x7F#8], 0⟩ } 0x7F#8).valid = false :=
  ⟨by decide, rfl, rfl, rfl, by decide, by decide⟩

/-- Each of the three ends PackBufferIsBounded speaks of. -/
theorem witness_PackBufferIsBounded : BufOk carrySeven ∧ carrySeven.bitlen ≤ 7 ∧ packChunk 0 carrySeven = .again carrySeven ∧
    packChunk 1 carrySeven = .exit carrySeven ∧ BufOk { carrySeven with inp := ⟨[0x61#8], 0⟩ } ∧
    ({ carrySeven with inp := ⟨[0x61#8], 0⟩ } : State).bitlen ≤ 7 ∧
    packChunk 1 { carrySeven with inp := ⟨[0x61#8], 0⟩ } =
      .raised (raise .dictMiss 0x61#8 (tookByte 0x61#8 { carrySeven with inp := ⟨[0x61#8], 0⟩ })) :=
  ⟨carrySeven_ok, by decide, rfl, rfl, ⟨carrySeven_ok.1, carrySeven_ok.2⟩, by decide, rfl⟩

theorem witness_DecodeSingleLeaf : (oneLeaf 0x41#8 3#64).phase = .idle ∧ (oneLeaf 0x41#8 3#64).tv = true ∧
    (oneLeaf 0x41#8 3#64).root ≠ Config.nil ∧
    (nodeAt (oneLeaf 0x41#8 3#64).node (oneLeaf 0x41#8 3#64).root).kind = .leaf ∧
    [0x41#8, 0x41#8, 0x41#8] = List.replicate (nodeAt (oneLeaf 0x41#8 3#64).node (oneLeaf 0x41#8 3#64).root).freq.toNat
      (nodeAt (oneLeaf 0x41#8 3#64).node (oneLeaf 0x41#8 3#64).root).sym := by decide

/-- V-D10: a then b, six pad bits. -/
theorem witness_DecodeResult : ({ twoLeaves with inp := ⟨[0x80#8], 0⟩ } : State).phase = .idle ∧
    ({ twoLeaves with inp := ⟨[0x80#8], 0⟩ } : State).tv = true ∧
    ({ twoLeaves with inp := ⟨[0x80#8], 0⟩ } : State).root ≠ Config.nil ∧
    (nodeAt twoLeaves.node twoLeaves.root).kind = .internal ∧
    (∀ p ∈ [([true], 0x61#8), ([false], 0x62#8)], leafPath twoLeaves.node twoLeaves.root p.1 = some p.2) ∧
    [([true], 0x61#8), ([false], (0x62#8 : Byte))].length = (nodeAt twoLeaves.node twoLeaves.root).freq.toNat ∧
    bits ({ twoLeaves with inp := ⟨[0x80#8], 0⟩ } : State).inp.rest =
      [([true], 0x61#8), ([false], (0x62#8 : Byte))].flatMap Prod.fst ++ [false, false, false, false, false, false] := by
  decide

/-- V-D11: no body at all, at the root. -/
theorem witness_DecodeTruncatedFaults : twoLeaves.phase = .idle ∧ twoLeaves.tv = true ∧ twoLeaves.root ≠ Config.nil ∧
    (∀ p ∈ ([] : List (List Bool × Byte)), leafPath twoLeaves.node twoLeaves.root p.1 = some p.2) ∧
    innerPath twoLeaves.node twoLeaves.root [] = true ∧
    ([] : List (List Bool × Byte)).length < (nodeAt twoLeaves.node twoLeaves.root).freq.toNat ∧
    bits twoLeaves.inp.rest = ([] : List (List Bool × Byte)).flatMap Prod.fst ++ [] := by
  refine ⟨rfl, rfl, by decide, by simp, by decide, by decide, rfl⟩

/-- One symbol, then the bit of the missing child. -/
theorem witness_DecodeMalformedTree : ({ brokenTree 2#64 with inp := ⟨[0x40#8], 0⟩ } : State).phase = .idle ∧
    ({ brokenTree 2#64 with inp := ⟨[0x40#8], 0⟩ } : State).tv = true ∧
    ({ brokenTree 2#64 with inp := ⟨[0x40#8], 0⟩ } : State).root ≠ Config.nil ∧
    (∀ p ∈ [([false], 0x61#8)], leafPath (brokenTree 2#64).node (brokenTree 2#64).root p.1 = some p.2) ∧
    innerPath (brokenTree 2#64).node (brokenTree 2#64).root [] = true ∧
    childOf (nodeAt (brokenTree 2#64).node ([].foldl (fun i x => childOf (nodeAt (brokenTree 2#64).node i) x)
      (brokenTree 2#64).root)) true = Config.nil ∧
    [([false], (0x61#8 : Byte))].length < (nodeAt (brokenTree 2#64).node (brokenTree 2#64).root).freq.toNat ∧
    bits ({ brokenTree 2#64 with inp := ⟨[0x40#8], 0⟩ } : State).inp.rest =
      [([false], (0x61#8 : Byte))].flatMap Prod.fst ++ [] ++ true :: [false, false, false, false, false, false] := by decide

theorem witness_CompressWritesHeaderAndBody : State.reset.phase = .idle ∧ [0x61#8, (0x62#8 : Byte)] ≠ [] ∧
    [0x61#8, (0x62#8 : Byte)].dedup.length ≤ 255 ∧ [0x61#8, (0x62#8 : Byte)].length < 2 ^ 64 :=
  ⟨rfl, by decide, by decide, by decide⟩

/-- Both clauses of CompressRejectsUnfitInputs: the empty input and all 256 values. -/
theorem witness_CompressRejectsUnfitInputs : State.reset.phase = .idle ∧ ([] : List Byte) = [] ∧ (∀ b, b ∈ symbols) ∧
    symbols.length < 2 ^ 64 := ⟨rfl, rfl, mem_symbols, by rw [length_symbols]; decide⟩

theorem witness_CompressDecompressRoundTrip : State.reset.phase = .idle ∧ twoCodes.phase = .idle ∧ [(0x00#8 : Byte)] ≠ [] ∧
    [(0x00#8 : Byte)].dedup.length ≤ 255 ∧ [(0x00#8 : Byte)].length < 2 ^ 64 := ⟨rfl, rfl, by decide, by decide, by decide⟩

theorem witness_CommandsWriteOnlyTheirOperands : ∃ t, exec .decode { twoLeaves with inp := ⟨[0x80#8], 0⟩ } = .next t := by
  obtain ⟨t, h, -⟩ := exists_next (p := fun _ => true)
    (by decide : holdsNext (exec .decode { twoLeaves with inp := ⟨[0x80#8], 0⟩ }) (fun _ => true) = true)
  exact ⟨t, h⟩

/-- The clause of CommandsWriteOnlyTheirOperands about PHASE, ERR and ERRINFO: a command that ends in IDLE, and one discarded. -/
theorem witness_CommandsWriteOnlyTheirOperands_noRaise :
    (∃ t, exec .decode { twoLeaves with inp := ⟨[0x80#8], 0⟩ } = .next t ∧ t.phase ≠ .fault) ∧
    (exec .count faulted = .next faulted ∧ faulted.phase = .fault) := by
  obtain ⟨t, h, hp⟩ := exists_next (p := fun t => t.phase == .idle)
    (by decide : holdsNext (exec .decode { twoLeaves with inp := ⟨[0x80#8], 0⟩ }) (fun t => t.phase == .idle) = true)
  exact ⟨⟨t, h, by rw [beq_iff_eq.1 hp]; decide⟩, rfl, rfl⟩

/-- Each clause of FlagsChangeOnlyAsListed. -/
theorem witness_FlagsChangeOnlyAsListed :
    (∃ t, twoLeaves.phase = .idle ∧ exec .buildDict twoLeaves = .next t) ∧
    (faulted.phase = .fault ∧ Instr.count ≠ .clear ∧ exec .count faulted = .next faulted) ∧
    ((∀ w, HostEvent.rewind ≠ .command w) ∧ (∀ w k, HostEvent.rewind ≠ .commandThenReset w k) ∧
      HostEvent.rewind ≠ .reset ∧ hostStep .rewind State.reset = .next State.reset) ∧
    hostStep .reset twoLeaves = .next (resetBlock twoLeaves) := by
  obtain ⟨t, h, -⟩ := exists_next (p := fun _ => true)
    (by decide : holdsNext (exec .buildDict twoLeaves) (fun _ => true) = true)
  exact ⟨⟨t, rfl, h⟩, ⟨rfl, by decide, rfl⟩, ⟨by simp, by simp, by simp, rfl⟩, rfl⟩

theorem witness_StreamsMoveOnlyByAccesses : ∃ t, exec .encMeta twoLeaves = .next t := by
  obtain ⟨t, h, -⟩ := exists_next (p := fun _ => true)
    (by decide : holdsNext (exec .encMeta twoLeaves) (fun _ => true) = true)
  exact ⟨t, h⟩

theorem witness_OnlyClearAndResetLeaveFault : ∃ t, faulted.phase = .fault ∧
    step { faulted with pending := [.command 0x01#8] } = .next t ∧ t.phase ≠ .fault :=
  ⟨resetBlock { faulted with pending := [] }, rfl, rfl, by decide⟩

/-- The invariant holds in a state with a tree and its dictionary. -/
theorem twoCodes_inv : Inv twoCodes := by
  constructor
  · decide
  · decide
  · decide
  · decide
  · decide
  · decide
  · decide
  · exact fun _ => ⟨rfl, rfl⟩
  · exact ⟨rfl, rfl⟩
  · decide
  · decide
  · decide
  · decide
  · exact fun _ => ⟨twoLeaves_tree.1, twoLeaves_tree.2, twoLeaves_tree.3, twoLeaves_tree.4, twoLeaves_tree.5,
      twoLeaves_tree.6, twoLeaves_tree.7, twoLeaves_tree.8⟩
  · exact fun _ => ⟨twoLeaves_leaves.1, twoLeaves_leaves.2, twoLeaves_leaves.3⟩
  · exact fun _ => twoCodes_dict

theorem witness_StepKeepsInvariant : ∃ t, Inv twoCodes ∧ step twoCodes = .next t := ⟨twoCodes, twoCodes_inv, rfl⟩

theorem witness_StepAlwaysAnswers : Inv twoCodes := twoCodes_inv

end Sys2Proof.Tests
end

section
/-! SUPPORT. The state (spec/10_state.md): the host port and reset, what a command does to the flags and the streams, and the
invariant of the machine between two steps. -/

namespace Sys2Proof.Machine

/-! ### Every command as its pseudocode (R222) -/

/-- The pseudocode that a command accepted in IDLE runs (R222). -/
def bodyOf : Instr → State → Run
  | .clear => fun s => .done (resetBlock s)
  | .count => countBody
  | .buildTree => buildTreeBody
  | .buildDict => buildDictBody
  | .encMeta => encMetaBody
  | .decMeta => decMetaBody
  | .pack => packBody Config.chunk
  | .decode => decodeBody
  | .nop => .done

/-- Every command but CLEAR is its pseudocode under the acceptance rule (R222). -/
theorem exec_eq_accept {i : Instr} (hi : i ≠ .clear) (s : State) : exec i s = accept (bodyOf i) s := by
  cases i with
  | clear => exact absurd rfl hi
  | _ => rfl

theorem exec_idle {s : State} (hp : s.phase = .idle) (i : Instr) :
    exec i s = finish (bodyOf i { s with phase := .busy }) := by
  by_cases hi : i = .clear
  · subst hi
    simp only [exec, execClear, hp]
    rfl
  · rw [exec_eq_accept hi, accept_idle hp]

theorem exec_busy {s : State} (hp : s.phase = .busy) (i : Instr) : exec i s = .refused .cmdNotReady := by
  by_cases hi : i = .clear
  · subst hi
    simp only [exec, execClear, hp]
  · rw [exec_eq_accept hi, accept_busy hp]

theorem exec_fault {s : State} (hp : s.phase = .fault) {i : Instr} (hi : i ≠ .clear) : exec i s = .next s := by
  rw [exec_eq_accept hi, accept_fault hp]

theorem exec_clear_next {s t : State} (h : exec .clear s = .next t) : t = resetBlock s := by
  simp only [exec, execClear] at h
  split at h
  · exact (Host.Outcome.next.inj h).symm
  · exact (Host.Outcome.next.inj h).symm
  · simp at h

theorem exec_nop_next {s t : State} (h : exec .nop s = .next t) : t = s := by
  rw [exec_eq_accept (by simp)] at h
  rcases accept_next h with ⟨-, rfl⟩ | ⟨hp, u, hu, rfl⟩ | ⟨-, hu⟩
  · rfl
  · cases hu
    rw [← hp]
  · cases hu

/-! ### The host port and reset (R21, R37, R40, R62, R221, R222, R280) -/

theorem step_of_pending {s : State} {e : HostEvent} {es : List HostEvent} (h : s.pending = e :: es) :
    step s = hostStep e { s with pending := es } := by
  simp only [step, takeMove, h]

theorem step_of_no_pending {s : State} (h : s.pending = []) : step s = .next s := by
  simp only [step, takeMove, h]

theorem streamAction_ready {s : State} (h : s.phase ≠ .busy) (f : State → State) : streamAction f s = .next (f s) := by
  cases hp : s.phase with
  | idle => simp only [streamAction, hp]
  | fault => simp only [streamAction, hp]
  | busy => exact absurd hp h

theorem streamAction_busy {s : State} (h : s.phase = .busy) (f : State → State) :
    streamAction f s = .refused .streamsNotReady := by
  simp only [streamAction, h]

theorem streamAction_next {f : State → State} {s t : State} (h : streamAction f s = .next t) : t = f s := by
  by_cases hp : s.phase = .busy
  · rw [streamAction_busy hp] at h
    cases h
  · rw [streamAction_ready hp] at h
    exact (Host.Outcome.next.inj h).symm

theorem hostRead_of_hostReg {r : HostReg} {s : State} {v : BitVec 64} (h : hostReg s r = some v) :
    hostRead r s = .next { s with replies := s.replies ++ [.reg r v] } := by
  simp only [hostRead, h]

theorem hostRead_next {r : HostReg} {s t : State} (h : hostRead r s = .next t) :
    ∃ v, t = { s with replies := s.replies ++ [.reg r v] } := by
  cases hv : hostReg s r with
  | none => simp [hostRead, hv] at h
  | some v =>
    rw [hostRead_of_hostReg hv] at h
    exact ⟨v, (Host.Outcome.next.inj h).symm⟩

/-- Where there is a root, TOTAL has a value (R38). -/
theorem totalReg_eq {s : State} (h : s.tv = true → s.root ≠ Config.nil) :
    totalReg s = some (if s.tv then (nodeAt s.node s.root).freq else 0#64) := by
  by_cases htv : s.tv = true
  · simp only [totalReg, htv, if_true, if_neg (h htv)]
  · simp only [totalReg, if_neg htv]

/-- A reserved word (R92): discarded in FAULT, BadCommand in IDLE. -/
theorem execReserved_next {w : Byte} {s t : State} (h : execReserved w s = .next t) :
    t = s ∨ t = raise .badCommand w s := by
  rcases accept_next h with ⟨-, rfl⟩ | ⟨-, u, hu, -⟩ | ⟨-, hu⟩
  · exact .inl rfl
  · cases hu
  · exact .inr (Run.raised.inj hu).symm

/-- A word written to CMD runs the command it decodes to, or is reserved (R222). -/
theorem issue_next {w : Byte} {s t : State} (h : issue w s = .next t) :
    (∃ i, exec i s = .next t) ∨ t = s ∨ t = raise .badCommand w s := by
  cases hd : decodeWord w with
  | ok i => simp only [issue, hd] at h; exact .inl ⟨i, h⟩
  | error r => simp only [issue, hd] at h; exact .inr (execReserved_next h)

theorem issue_busy {s : State} (hp : s.phase = .busy) (w : Byte) : issue w s = .refused .cmdNotReady := by
  cases hd : decodeWord w with
  | ok i => simp only [issue, hd]; exact exec_busy hp i
  | error r => simp only [issue, hd]; exact accept_busy hp _

theorem blockAtReset_resetBlock (s : State) : BlockAtReset (resetBlock s) := by
  constructor
  case freq => intro b; simp [freqAt]
  case dict => intro b; simp [dictAt, DictEntry.blank]
  all_goals rfl

/-- The machine right after reset is a reset block (R40, R280). -/
theorem resetBlock_reset : resetBlock State.reset = State.reset := rfl

/-- META is two bytes side by side: N low, W high (R21, R31). -/
theorem toNat_metaReg (s : State) : (metaReg s).toNat = s.hdrN.toNat + 256 * s.hdrW.toNat := by
  rw [metaReg, BitVec.toNat_append, ← Nat.shiftLeft_add_eq_or_of_lt s.hdrN.isLt, Nat.shiftLeft_eq]
  omega

/-! ### The fields of STATUS (R37) -/

theorem statusReg_phase (s : State) : (statusReg s).extractLsb' 0 2 = s.phase.code := by
  rw [statusReg, BitVec.extractLsb'_append_eq_of_add_le (by decide), BitVec.extractLsb'_eq_self]

theorem statusReg_flags (s : State) :
    (statusReg s).getLsbD 2 = s.fv ∧ (statusReg s).getLsbD 3 = s.tv ∧ (statusReg s).getLsbD 4 = s.dv := by
  simp only [statusReg, BitVec.getLsbD_append]
  simp

/-- A field above the low part of a register is a field of its high part. -/
theorem extractLsb'_append_high {v w : Nat} (hi : BitVec v) (lo : BitVec w) (n len : Nat) :
    (hi ++ lo).extractLsb' (w + n) len = hi.extractLsb' n len := by
  rw [BitVec.extractLsb'_append_eq_of_le (Nat.le_add_right w n), Nat.add_sub_cancel_left]

/-- Above PHASE and the three flags STATUS holds ERR between its zeros. -/
theorem statusReg_above_flags (s : State) (k len : Nat) :
    (statusReg s).extractLsb' (5 + k) len = (0#4 ++ s.err ++ 0#3).extractLsb' k len := by
  rw [statusReg, show 5 + k = 2 + (1 + (1 + (1 + k))) by omega]
  simp only [extractLsb'_append_high]

theorem statusReg_err (s : State) : (statusReg s).extractLsb' 8 4 = s.err := by
  rw [statusReg_above_flags s 3, BitVec.extractLsb'_append_eq_of_le (by decide),
    BitVec.extractLsb'_append_eq_of_add_le (by decide), BitVec.extractLsb'_eq_self]

theorem statusReg_zeros (s : State) :
    (statusReg s).extractLsb' 5 3 = 0#3 ∧ (statusReg s).extractLsb' 12 4 = 0#4 := by
  rw [statusReg_above_flags s 0, statusReg_above_flags s 7,
    BitVec.extractLsb'_append_eq_of_add_le (by decide), BitVec.extractLsb'_append_eq_of_le (by decide),
    BitVec.extractLsb'_append_eq_of_le (by decide)]
  decide

/-- Settles O8: a command, a reserved word and a stream action are each refused by name in BUSY. -/
theorem busyRefuses : Obligations.BusyRefuses := by
  unfold Obligations.BusyRefuses
  intro s hp
  exact ⟨exec_busy hp, issue_busy hp, streamAction_busy hp⟩

/-- Settles O10: truncating is a stream action, which happens outside BUSY. -/
theorem hostTruncatesOutput : Obligations.HostTruncatesOutput := by
  unfold Obligations.HostTruncatesOutput
  intro s n es hp hpend
  rw [step_of_pending hpend]
  exact streamAction_ready (s := { s with pending := es }) hp (hostTruncateOutput n)

/-- Settles O11: each of HR1 to HR6 has a value, and the read records it and nothing else. -/
theorem hostRegisterReads : Obligations.HostRegisterReads := by
  unfold Obligations.HostRegisterReads
  intro s r es hpend hroot
  have read : ∀ v, hostReg { s with pending := es } r = some v →
      step s = .next { s with pending := es, replies := s.replies ++ [.reg r v] } := by
    intro v hv
    rw [step_of_pending hpend]
    exact hostRead_of_hostReg hv
  have widen : ∀ {w : Nat} (x : BitVec w), w ≤ 64 → (x.setWidth 64).toNat = x.toNat := fun x hw =>
    BitVec.toNat_setWidth_of_le hw
  cases r with
  | status => exact ⟨_, read _ rfl, by simp [statusReg]⟩
  | header => exact ⟨_, read _ rfl, by simp [widen, toNat_metaReg]⟩
  | nleaf => exact ⟨_, read _ rfl, by simp [widen]⟩
  | total => exact ⟨_, read _ (totalReg_eq (s := { s with pending := es }) hroot), by simp⟩
  | remain => exact ⟨_, read _ rfl, by simp⟩
  | errinfo => exact ⟨_, read _ rfl, by simp [widen]⟩

/-- Settles O12: STATUS is its fields side by side, so each is read back at its place. -/
theorem statusFields : Obligations.StatusFields := by
  unfold Obligations.StatusFields
  refine ⟨by decide, fun s => ?_⟩
  obtain ⟨hfv, htv, hdv⟩ := statusReg_flags s
  obtain ⟨hlow, hhigh⟩ := statusReg_zeros s
  refine ⟨?_, ?_, ?_, hfv, htv, hdv, hlow, statusReg_err s, hhigh⟩
  all_goals
    intro hp
    rw [statusReg_phase, hp]
    rfl

/-- Settles O13: reset answers in every phase, with the block at its reset values and the streams untouched. -/
theorem resetLeavesResetValues : Obligations.ResetLeavesResetValues := by
  unfold Obligations.ResetLeavesResetValues
  refine ⟨resetBlock_reset ▸ blockAtReset_resetBlock _, fun s es hpend => ?_⟩
  rw [step_of_pending hpend]
  exact ⟨_, rfl, blockAtReset_resetBlock _, rfl, rfl, rfl, rfl, rfl⟩


/-! ### A property for each way a piece may end -/

/-- `r` completes in a state with `D` or raises in a state with `R`; a stop of the model says nothing. -/
def Run.Splits (D R : State → Prop) : Run → Prop
  | .done s => D s
  | .raised s => R s
  | .stuck _ => True

theorem Run.All.splits {P : State → Prop} {r : Run} (h : r.All P) : r.Splits P P := by
  cases r with
  | done s => exact h
  | raised s => exact h
  | stuck f => trivial

theorem Run.Splits.andThen {P D R : State → Prop} {r : Run} {k : State → Run} (h : r.Splits P R)
    (hk : ∀ s, P s → (k s).Splits D R) : (r.andThen k).Splits D R := by
  cases r with
  | done s => exact hk s h
  | raised s => exact h
  | stuck f => trivial

/-- The precondition check adds one raise of BadCommand (R223). -/
theorem splits_require {D R : State → Prop} {c : Bool} {w : Byte} {body : State → Run} {s : State}
    (hb : c = true → (body s).Splits D R) (hr : c = false → R (raise .badCommand w s)) :
    (require c w body s).Splits D R := by
  cases c with
  | true => exact hb rfl
  | false => exact hr rfl

/-- A command ended with a raise (R22, R240, R250). -/
def TookFault (s : State) : Prop := s.phase = .fault ∧ s.err ≠ 0#4 ∧ s.err.toNat ≤ 8

theorem tookFault_raise (k : ErrKind) (info : Byte) (s : State) : TookFault (raise k info s) := by
  refine ⟨rfl, ?_⟩
  rw [raise_err]
  cases k <;> decide

theorem Run.Ends.splits {s : State} {r : Run} (h : r.Ends s) :
    r.Splits (fun u => u.err = s.err ∧ u.errinfo = s.errinfo) TookFault := by
  cases r with
  | done u => exact h
  | raised u =>
    obtain ⟨k, info, v, -, rfl⟩ := h
    exact tookFault_raise k info v
  | stuck f => trivial

/-- Every command's pseudocode completes with ERR and ERRINFO as they were, or raises. -/
theorem bodyOf_splits {i : Instr} (hi : i ≠ .clear) {s : State} {r : Run} (hr : bodyOf i s = r) :
    r.Splits (fun u => u.err = s.err ∧ u.errinfo = s.errinfo) TookFault := by
  have req {c : Bool} {w : Byte} {body : State → Run} (h : ∀ r, body s = r → r.Ends s) :
      (require c w body s).Splits (fun u => u.err = s.err ∧ u.errinfo = s.errinfo) TookFault :=
    splits_require (fun _ => (h _ rfl).splits) fun _ => tookFault_raise _ w s
  subst hr
  cases i with
  | clear => exact absurd rfl hi
  | count => exact (ends_countBody s).splits
  | buildTree => exact req fun r => ends_buildTreeMain
  | buildDict => exact req fun r hr => hr ▸ ends_buildDictMain s
  | encMeta => exact req fun r hr => hr ▸ ends_encMetaMain s
  | decMeta => exact (ends_decMetaBody s).splits
  | pack => exact req fun r hr => hr ▸ ends_packMain _ s
  | decode => exact req fun r hr => hr ▸ ends_decodeMain s
  | nop => exact ⟨rfl, rfl⟩

/-- What a command accepted in IDLE can answer (R222): it completed, back in IDLE with no fault recorded, or it raised. -/
theorem exec_idle_cases {i : Instr} (hi : i ≠ .clear) {s t : State} (hp : s.phase = .idle) (h : exec i s = .next t) :
    (∃ u, bodyOf i { s with phase := .busy } = .done u ∧ t = { u with phase := .idle } ∧
      t.err = s.err ∧ t.errinfo = s.errinfo) ∨
    (bodyOf i { s with phase := .busy } = .raised t ∧ TookFault t) := by
  rw [exec_idle hp] at h
  cases hb : bodyOf i { s with phase := .busy } with
  | done u =>
    rw [hb] at h
    obtain rfl := Host.Outcome.next.inj h
    obtain ⟨herr, hinfo⟩ := bodyOf_splits hi hb
    exact .inl ⟨u, rfl, rfl, herr, hinfo⟩
  | raised u =>
    rw [hb] at h
    obtain rfl := Host.Outcome.next.inj h
    exact .inr ⟨rfl, bodyOf_splits hi hb⟩
  | stuck f =>
    rw [hb] at h
    cases h

/-- From what a command's pseudocode leaves to what the command leaves, by the phase it ends in. -/
theorem exec_splits {i : Instr} (hi : i ≠ .clear) {D R : State → Prop} {s t : State} (hp : s.phase = .idle)
    (h : exec i s = .next t) (hb : ∀ r, bodyOf i { s with phase := .busy } = r → r.Splits D R) :
    (t.phase = .idle ∧ ∃ u, D u ∧ t = { u with phase := .idle }) ∨ (t.phase = .fault ∧ R t) := by
  rcases exec_idle_cases hi hp h with ⟨u, hu, rfl, -⟩ | ⟨hu, hf, -⟩
  · exact .inl ⟨rfl, u, hb _ hu, rfl⟩
  · exact .inr ⟨hf, hb _ hu⟩

/-- A command whose required flag is clear raises BadCommand and changes nothing else (R223). -/
theorem exec_flag_clear {i : Instr} {s : State} (hp : s.phase = .idle) (h : requiredFlag i s = false) :
    exec i s = .next (raise .badCommand (encodeWord i) s) := by
  have req {c : Bool} {w : Byte} {body : State → Run} (hc : c = false) :
      finish (require c w body { s with phase := .busy }) = .next (raise .badCommand w s) := by
    subst hc
    rfl
  rw [exec_idle hp]
  cases i with
  | clear => cases h
  | count => cases h
  | decMeta => cases h
  | nop => cases h
  | buildTree => exact req h
  | buildDict => exact req h
  | encMeta => exact req h
  | pack => exact req h
  | decode => exact req h

/-! ### The streams (R34, R61, R63, R69) -/

/-- Every command but CLEAR writes its operands only, and moves the streams by accesses. -/
theorem keeps_exec {i : Instr} (hi : i ≠ .clear) {s t : State} (h : exec i s = .next t) : Keeps i s t := by
  by_cases hn : i = .nop
  · subst hn
    obtain rfl := exec_nop_next h
    exact keeps_refl (by simp) _
  · rw [exec_eq_accept hi] at h
    refine keeps_accept hi hn (fun u r hr => ?_) h
    cases i with
    | clear => exact absurd rfl hi
    | count => exact hr ▸ keeps_countBody u
    | buildTree => exact keeps_buildTreeBody hr
    | buildDict => exact hr ▸ keeps_buildDictBody u
    | encMeta => exact hr ▸ keeps_encMetaBody u
    | decMeta => exact hr ▸ keeps_decMetaBody u
    | pack => exact hr ▸ keeps_packBody _ u
    | decode => exact hr ▸ keeps_decodeBody u
    | nop => exact absurd rfl hn

theorem streamsMovedBy_exec {i : Instr} {s t : State} (h : exec i s = .next t) : ∃ as, StreamsMovedBy as s t := by
  by_cases hi : i = .clear
  · subst hi
    obtain rfl := exec_clear_next h
    exact ⟨[], (StreamsMovedBy.refl s).congr rfl rfl rfl⟩
  · exact (keeps_exec hi h).2

/-- A word written to CMD moves the streams as its command does; a reserved word not at all. -/
theorem streamsMovedBy_issue {w : Byte} {s t : State} (h : issue w s = .next t) : ∃ as, StreamsMovedBy as s t := by
  rcases issue_next h with ⟨i, hi⟩ | rfl | rfl
  · exact streamsMovedBy_exec hi
  · exact ⟨[], .refl _⟩
  · exact ⟨[], (StreamsMovedBy.refl s).congr rfl rfl rfl⟩

/-- Settles O54: each command's frame says it, and CLEAR leaves the streams alone. -/
theorem streamsMoveOnlyByAccesses : Obligations.StreamsMoveOnlyByAccesses := by
  unfold Obligations.StreamsMoveOnlyByAccesses
  intro i s t h
  exact streamsMovedBy_exec h

/-! ### The flags (R24) -/

/-- No flag is set. -/
def FlagsDown (s : State) : Prop := s.fv = false ∧ s.tv = false ∧ s.dv = false

/-- FV alone is set. -/
def TableOnly (s : State) : Prop := s.fv = true ∧ s.tv = false ∧ s.dv = false

/-- The three flags are as they were. -/
def SameFlags (s t : State) : Prop := t.fv = s.fv ∧ t.tv = s.tv ∧ t.dv = s.dv

/-- The end of COUNT and of DEC_META (R24): FV is set when the part before it completed. -/
theorem splits_setFV {r : Run} (h : r.Splits FlagsDown FlagsDown) :
    (r.andThen fun s => .done (setFV s)).Splits TableOnly FlagsDown := by
  refine h.andThen fun s hs => ?_
  obtain ⟨-, htv, hdv⟩ := hs
  exact ⟨rfl, htv, hdv⟩

theorem flags_countBody (s : State) : (countBody s).Splits TableOnly FlagsDown := by
  refine splits_setFV (loop_all (P := FlagsDown) (fun u hu => ?_) _ _ ⟨rfl, rfl, rfl⟩).splits
  rcases countStep_cases u with ⟨-, h⟩ | ⟨b, l, -, ⟨-, h⟩ | ⟨-, h⟩⟩ <;> rw [h] <;> exact hu

theorem flags_readHeaderByte {D : State → Prop} {s : State} {k : Byte → State → Run} (hs : FlagsDown s)
    (hk : ∀ b t, FlagsDown t → (k b t).Splits D FlagsDown) : (readHeaderByte s k).Splits D FlagsDown := by
  rcases inRead_cases s with ⟨h, -⟩ | ⟨b, l, h, -⟩
  · rw [readHeaderByte_eof h]
    exact hs
  · rw [readHeaderByte_byte h]
    exact hk b _ hs

theorem flags_readFreq {D : State → Prop} {k : Nat → State → Run}
    (hk : ∀ f t, FlagsDown t → (k f t).Splits D FlagsDown) (w : Nat) : ∀ (f : Nat) (s : State), FlagsDown s →
    (readFreq w f s k).Splits D FlagsDown := by
  induction w with
  | zero => exact hk
  | succ w ih =>
    intro f s hs
    rw [readFreq]
    exact flags_readHeaderByte hs fun b t ht => ih _ t ht

theorem flags_storeRecord {y : Byte} {f : Nat} {s : State} (hs : FlagsDown s) :
    (storeRecord y f s).Splits FlagsDown FlagsDown := by
  rw [storeRecord]
  split
  · exact hs
  · split <;> exact hs

theorem flags_decRecords (w n : Nat) : ∀ s : State, FlagsDown s → (decRecords w n s).Splits FlagsDown FlagsDown := by
  induction n with
  | zero => exact fun s hs => hs
  | succ n ih =>
    intro s hs
    rw [decRecords]
    refine Run.Splits.andThen ?_ ih
    exact flags_readHeaderByte hs fun y t ht => flags_readFreq (fun f u hu => flags_storeRecord hu) w 0 t ht

theorem flags_decMetaBody (s : State) : (decMetaBody s).Splits TableOnly FlagsDown := by
  rw [decMetaBody]
  refine flags_readHeaderByte ⟨rfl, rfl, rfl⟩ fun n t ht => flags_readHeaderByte ht fun w u hu => ?_
  rw [decHeader]
  split
  · exact hu
  · exact splits_setFV (flags_decRecords _ _ _ hu)

/-- BUILD_DICT after its check sets DV when it completes; a raise leaves DV clear (R24). -/
theorem flags_buildDictMain (s : State) :
    (buildDictMain s).Splits (fun t => t.dv = true) (fun t => t.dv = false) := by
  rw [buildDictMain]
  split
  · trivial
  · rcases walk_cases (Config.codeLenMax + 1) s.root [] (invalidateEntries (clearDictFlag s)) with
      ⟨t, h, -⟩ | ⟨t, h, ht, -⟩ | ⟨h, -⟩
    · rw [h]; rfl
    · rw [h]
      show t.dv = false
      rw [ht]; rfl
    · rw [h]; trivial

/-- The work list is never longer than the leaves are many. -/
theorem MergeInv.work_le {s1 s : State} (h : MergeInv s1 s) : s.work.length ≤ s1.ncount.toNat := by
  have hcount := h.count
  have honce := h.once.length_eq
  simp only [List.length_append, List.length_flatMap, List.length_cons, List.length_nil, List.map_const',
    List.length_range, List.sum_replicate, List.length_map, smul_eq_mul] at honce
  omega

/-- BUILD_TREE gave up (R130, R135): no tree is claimed, and the counters are in their ranges. -/
def TreeGivenUp (t : State) : Prop :=
  t.tv = false ∧ t.dv = false ∧ t.nleaf.toNat ≤ 256 ∧ t.ncount.toNat ≤ 511 ∧ t.work.length ≤ 256

/-- BUILD_TREE built its tree (R41, R134). -/
def TreeBuilt (t : State) : Prop :=
  t.tv = true ∧ t.dv = false ∧ TreeOk t ∧ LeavesOk t ∧ t.work.length = 1

/-- BUILD_TREE after its check builds the tree or gives it up. -/
theorem buildTreeMain_splits {s : State} {r : Run} (hr : buildTreeMain s = r) : r.Splits TreeBuilt TreeGivenUp := by
  by_cases h0 : ∀ b, freqAt s b = 0#64
  · rw [← hr, buildTreeMain_zero h0]
    refine ⟨rfl, rfl, ?_, ?_, ?_⟩ <;> simp
  · obtain ⟨u, hu, ⟨hw, hu'⟩ | ⟨-, l, a, b, hw, -, hu'⟩⟩ := buildTreeMain_cases s (not_forall.1 h0)
    · obtain ⟨htree, hleaves, hfr⟩ := treeOk_of_mergeInv hu hw
      rw [← hr, hu']
      exact ⟨rfl, by rw [hfr], htree, hleaves, hw⟩
    · have hscan := addLeaves_scan s
      rw [← hr, hu']
      generalize addLeaves (startTree s) = s1 at hu hscan
      have htv : u.tv = s1.tv := (congrArg State.tv hu.frame :)
      have hdv : u.dv = s1.dv := (congrArg State.dv hu.frame :)
      have hnleaf : u.nleaf = BitVec.ofNat 9 s1.work.length := (congrArg State.nleaf hu.frame :)
      have hs1 : s1.work.length ≤ 256 := by
        rw [hscan.work_length]
        exact length_presentSymbols _
      have hcount := hu.count
      have hfew := hu.few
      have hle := hu.work_le
      have hlen : u.work.length = l.length + 2 := by rw [hw]; simp
      refine ⟨htv.trans (congrArg State.tv hscan.frame), hdv.trans (congrArg State.dv hscan.frame), ?_, ?_, ?_⟩
      · show u.nleaf.toNat ≤ 256
        rw [hnleaf, toNat_ofNat_length hs1]
        exact hs1
      · show u.ncount.toNat ≤ 511
        omega
      · show l.length ≤ 256
        omega

/-- The flags of a command that started with FV <- 0, by the phase it ends in. -/
theorem flagsFollow_of_splits {i : Instr} (hi : i ≠ .clear) {s t : State} (hp : s.phase = .idle)
    (h : exec i s = .next t) (hb : ∀ u, (bodyOf i u).Splits TableOnly FlagsDown) :
    t.fv = decide (t.phase = .idle) ∧ t.tv = false ∧ t.dv = false := by
  rcases exec_splits hi hp h (fun r hr => hr ▸ hb _) with ⟨hq, u, ⟨hfv, htv, hdv⟩, rfl⟩ | ⟨hq, hfv, htv, hdv⟩
  · exact ⟨by rw [hq]; exact hfv, htv, hdv⟩
  · exact ⟨by rw [hq]; exact hfv, htv, hdv⟩

/-- A command that writes no flag (R24, R93). -/
theorem sameFlags_exec {i : Instr} (hi : i = .encMeta ∨ i = .pack ∨ i = .decode ∨ i = .nop) {s t : State}
    (h : exec i s = .next t) : SameFlags s t := by
  rcases hi with rfl | rfl | rfl | rfl
  · obtain ⟨hf, -⟩ := keeps_exec (by simp) h
    rw [hf]
    exact ⟨rfl, rfl, rfl⟩
  · obtain ⟨⟨-, hf⟩, -⟩ := keeps_exec (by simp) h
    rw [hf]
    exact ⟨rfl, rfl, rfl⟩
  · obtain ⟨⟨-, hf⟩, -⟩ := keeps_exec (by simp) h
    rw [hf]
    exact ⟨rfl, rfl, rfl⟩
  · rw [exec_nop_next h]
    exact ⟨rfl, rfl, rfl⟩

/-- With FV set BUILD_TREE passes its check (R223). -/
theorem buildTreeBody_eq {s : State} (h : s.fv = true) : buildTreeBody s = buildTreeMain s := by
  rw [buildTreeBody, h, require_true]

/-- With TV set BUILD_DICT passes its check (R223). -/
theorem buildDictBody_eq {s : State} (h : s.tv = true) : buildDictBody s = buildDictMain s := by
  rw [buildDictBody, h, require_true]

/-- What BUILD_TREE answers when FV is set. -/
theorem exec_buildTree_splits {s t : State} (hp : s.phase = .idle) (hfv : s.fv = true)
    (h : exec .buildTree s = .next t) :
    (t.phase = .idle ∧ ∃ u, TreeBuilt u ∧ t = { u with phase := .idle }) ∨ (t.phase = .fault ∧ TreeGivenUp t) := by
  refine exec_splits (by simp) hp h fun r hr => ?_
  rw [bodyOf, buildTreeBody_eq (s := { s with phase := .busy }) hfv] at hr
  exact buildTreeMain_splits hr

/-- What BUILD_DICT answers when TV is set. -/
theorem exec_buildDict_dv {s t : State} (hp : s.phase = .idle) (htv : s.tv = true)
    (h : exec .buildDict s = .next t) : t.dv = decide (t.phase = .idle) := by
  have hb : ∀ r, bodyOf .buildDict { s with phase := .busy } = r →
      r.Splits (fun t => t.dv = true) (fun t => t.dv = false) := by
    intro r hr
    rw [bodyOf, buildDictBody_eq (s := { s with phase := .busy }) htv] at hr
    exact hr ▸ flags_buildDictMain _
  rcases exec_splits (by simp) hp h hb with ⟨hq, u, hu, rfl⟩ | ⟨hq, ht⟩
  · rw [hq]; exact hu
  · rw [hq]; exact ht

theorem flagsFollow_exec {i : Instr} {s t : State} (hp : s.phase = .idle) (h : exec i s = .next t) :
    FlagsFollow i s t := by
  have off (hc : requiredFlag i s = false) : t = raise .badCommand (encodeWord i) s := by
    rw [exec_flag_clear hp hc] at h
    exact (Host.Outcome.next.inj h).symm
  cases i with
  | clear => rw [exec_clear_next h]; exact ⟨rfl, rfl, rfl⟩
  | count => exact flagsFollow_of_splits (by simp) hp h flags_countBody
  | decMeta => exact flagsFollow_of_splits (by simp) hp h flags_decMetaBody
  | buildTree =>
    obtain ⟨⟨-, hf⟩, -⟩ := keeps_exec (by simp) h
    refine ⟨by rw [hf], fun hfv => ?_, fun hfv => ?_⟩
    · rcases exec_buildTree_splits hp hfv h with ⟨hq, u, ⟨htv, hdv, -⟩, rfl⟩ | ⟨hq, htv, hdv, -⟩
      · exact ⟨by rw [hq]; exact htv, hdv⟩
      · exact ⟨by rw [hq]; exact htv, hdv⟩
    · rw [off hfv]
      exact ⟨rfl, rfl⟩
  | buildDict =>
    obtain ⟨hf, -⟩ := keeps_exec (by simp) h
    refine ⟨by rw [hf], by rw [hf], fun htv => exec_buildDict_dv hp htv h, fun htv => ?_⟩
    rw [off htv]
    rfl
  | encMeta => exact sameFlags_exec (by simp) h
  | pack => exact sameFlags_exec (by simp) h
  | decode => exact sameFlags_exec (by simp) h
  | nop => exact sameFlags_exec (by simp) h

/-- The host's moves on the streams and the registers leave the flags alone. -/
theorem sameFlags_hostStep {e : HostEvent} (h1 : ∀ w, e ≠ .command w) (h2 : ∀ w k, e ≠ .commandThenReset w k)
    (h3 : e ≠ .reset) {s t : State} (h : hostStep e s = .next t) : SameFlags s t := by
  cases e with
  | command w => exact absurd rfl (h1 w)
  | commandThenReset w k => exact absurd rfl (h2 w k)
  | reset => exact absurd rfl h3
  | setInput bytes => rw [streamAction_next h]; exact ⟨rfl, rfl, rfl⟩
  | rewind => rw [streamAction_next h]; exact ⟨rfl, rfl, rfl⟩
  | takeOutput => rw [streamAction_next h]; exact ⟨rfl, rfl, rfl⟩
  | truncateOutput n => rw [streamAction_next h]; exact ⟨rfl, rfl, rfl⟩
  | readReg r =>
    obtain ⟨v, rfl⟩ := hostRead_next h
    exact ⟨rfl, rfl, rfl⟩

/-- Settles O53: by command in IDLE; in FAULT a command is discarded; no other host move writes a flag; reset clears them. -/
theorem flagsChangeOnlyAsListed : Obligations.FlagsChangeOnlyAsListed := by
  unfold Obligations.FlagsChangeOnlyAsListed
  refine ⟨fun i s t hp h => flagsFollow_exec hp h, fun i s t hp hi h => ?_,
    fun e s t h1 h2 h3 h => sameFlags_hostStep h1 h2 h3 h, fun s t h => ?_⟩
  · rw [exec_fault hp hi] at h
    obtain rfl := Host.Outcome.next.inj h
    exact ⟨rfl, rfl, rfl⟩
  · obtain rfl := Host.Outcome.next.inj h
    exact ⟨rfl, rfl, rfl⟩

/-! ### The invariant, part by part -/

/-- PHASE, ERR and ERRINFO agree (R22, R23, R240). -/
def ControlOk (s : State) : Prop :=
  s.phase ≠ .busy ∧ s.err.toNat ≤ 8 ∧ (s.phase = .fault ↔ s.err ≠ 0#4) ∧ (s.phase = .idle → s.errinfo = 0#8)

/-- The counters and BITPOS are in their ranges (R27, R29, R33). -/
def RangesOk (s : State) : Prop :=
  s.nleaf.toNat ≤ 256 ∧ s.ncount.toNat ≤ 511 ∧ s.work.length ≤ 256 ∧ s.bitpos.toNat ≤ 8

/-- No bit stands in the packer's buffer (R32). -/
def BufEmpty (s : State) : Prop := s.buf = [] ∧ s.bitlen = 0

/-- The flags say the truth about the tables (R24, R41, R134, R151). -/
structure TablesOk (s : State) : Prop where
  treeFlag : s.tv = true → s.fv = true
  dictFlag : s.dv = true → s.tv = true
  tree     : s.tv = true → TreeOk s
  leaves   : s.tv = true → LeavesOk s
  dict     : s.dv = true → DictOk s

/-- The parts make the invariant. -/
theorem inv_of_parts {s : State} (hc : ControlOk s) (hpos : s.inp.pos ≤ s.inp.data.length) (hr : RangesOk s)
    (he : s.phase = .idle → BufEmpty s) (hb : BufOk s) (ht : TablesOk s) : Inv s := by
  obtain ⟨hbusy, herr, hfault, hinfo⟩ := hc
  obtain ⟨hnleaf, hncount, hwork, hbitpos⟩ := hr
  obtain ⟨htree, hdict, htreeOk, hleavesOk, hdictOk⟩ := ht
  constructor <;> assumption

theorem Inv.control {s : State} (h : Inv s) : ControlOk s := ⟨h.notBusy, h.errCode, h.errFault, h.info⟩

theorem Inv.ranges {s : State} (h : Inv s) : RangesOk s := ⟨h.nleafLe, h.ncountLe, h.workLe, h.bitposLe⟩

theorem Inv.tables {s : State} (h : Inv s) : TablesOk s := ⟨h.treeFlag, h.dictFlag, h.tree, h.leaves, h.dict⟩

theorem BufEmpty.bufOk {s : State} (h : BufEmpty s) : BufOk s := by
  obtain ⟨hb, hl⟩ := h
  exact BufHas.bufOk (v := []) ⟨hl, hb⟩

theorem BufOk.congr {s t : State} (h : BufOk s) (hb : t.buf = s.buf) (hl : t.bitlen = s.bitlen) : BufOk t := by
  obtain ⟨h1, h2⟩ := h.has
  exact BufHas.bufOk ⟨hl.trans h1, hb.trans h2⟩

/-- The flags and the tables of a state, all else at its reset value: what TablesOk looks at. -/
def tablesOf (s : State) : State :=
  { State.reset with
    fv := s.fv
    tv := s.tv
    dv := s.dv
    freq := s.freq
    node := s.node
    ncount := s.ncount
    nleaf := s.nleaf
    root := s.root
    leaflist := s.leaflist
    dict := s.dict }

theorem TablesOk.congr {s t : State} (h : TablesOk s) (ht : tablesOf t = tablesOf s) : TablesOk t := by
  have hfv : t.fv = s.fv := (congrArg State.fv ht :)
  have htv : t.tv = s.tv := (congrArg State.tv ht :)
  have hdv : t.dv = s.dv := (congrArg State.dv ht :)
  have hfreq : t.freq = s.freq := (congrArg State.freq ht :)
  have hnode : t.node = s.node := (congrArg State.node ht :)
  have hncount : t.ncount = s.ncount := (congrArg State.ncount ht :)
  have hnleaf : t.nleaf = s.nleaf := (congrArg State.nleaf ht :)
  have hroot : t.root = s.root := (congrArg State.root ht :)
  have hlist : t.leaflist = s.leaflist := (congrArg State.leaflist ht :)
  have hdict : t.dict = s.dict := (congrArg State.dict ht :)
  constructor
  · rw [hfv, htv]; exact h.treeFlag
  · rw [htv, hdv]; exact h.dictFlag
  · rw [htv]; exact fun hs => (h.tree hs).congr hnode hncount hnleaf hroot
  · rw [htv]; exact fun hs => (h.leaves hs).congr hfreq hnode hnleaf hlist
  · rw [hdv]; exact fun hs => (h.dict hs).congr hfreq hnode hroot hdict

/-- With TV and DV clear nothing is claimed of the tables. -/
theorem tablesOk_of_down {s : State} (htv : s.tv = false) (hdv : s.dv = false) : TablesOk s := by
  constructor <;> simp [htv, hdv]

/-- The block's own state, the streams and the host's side left out: what the invariant looks at but for IN's position. -/
def blockOf (s : State) : State :=
  { s with
    inp := ⟨[], 0⟩
    out := []
    accesses := []
    pending := []
    replies := [] }

/-- The invariant looks at nothing of the host but IN's position. -/
theorem Inv.congr {s t : State} (h : Inv s) (ht : blockOf t = blockOf s) (hpos : t.inp.pos ≤ t.inp.data.length) :
    Inv t := by
  have hphase : t.phase = s.phase := (congrArg State.phase ht :)
  have herr : t.err = s.err := (congrArg State.err ht :)
  have hinfo : t.errinfo = s.errinfo := (congrArg State.errinfo ht :)
  have hbuf : t.buf = s.buf := (congrArg State.buf ht :)
  have hbitlen : t.bitlen = s.bitlen := (congrArg State.bitlen ht :)
  refine inv_of_parts ?_ hpos ?_ ?_ (h.bufOk.congr hbuf hbitlen) (h.tables.congr (congrArg tablesOf ht :))
  · rw [ControlOk, hphase, herr, hinfo]
    exact h.control
  · exact (congrArg RangesOk ht :).mpr h.ranges
  · rw [hphase, BufEmpty, hbuf, hbitlen]
    exact h.idleBuf

/-- A raise keeps the invariant: it writes PHASE, ERR and ERRINFO (R250). -/
theorem Inv.raise {s : State} (h : Inv s) (k : ErrKind) (info : Byte) : Inv (raise k info s) := by
  obtain ⟨hphase, herr, hle⟩ := tookFault_raise k info s
  exact inv_of_parts ⟨by simp, hle, iff_of_true hphase herr, by simp⟩ h.pos h.ranges (by simp)
    (h.bufOk.congr rfl rfl) (h.tables.congr rfl)

/-- The reset state of the block satisfies the invariant, wherever IN stands inside its data. -/
theorem inv_resetBlock {s : State} (hpos : s.inp.pos ≤ s.inp.data.length) : Inv (resetBlock s) :=
  inv_of_parts (by simp [ControlOk]) hpos (by simp [RangesOk])
    (fun _ => ⟨rfl, rfl⟩) (BufEmpty.bufOk ⟨rfl, rfl⟩) (tablesOk_of_down rfl rfl)

/-- Settles O57: the state at reset is a reset block. -/
theorem invariantAtReset : Obligations.InvariantAtReset := by
  unfold Obligations.InvariantAtReset
  rw [← resetBlock_reset]
  exact inv_resetBlock (Nat.le_refl 0)

/-! ### What a command keeps of the invariant -/

/-- After a command accepted in IDLE, PHASE, ERR and ERRINFO agree. -/
theorem controlOk_exec {i : Instr} (hi : i ≠ .clear) {s t : State} (hp : s.phase = .idle) (hs : ControlOk s)
    (h : exec i s = .next t) : ControlOk t := by
  obtain ⟨-, -, hfault, hinfo⟩ := hs
  rcases exec_idle_cases hi hp h with ⟨u, -, ht, herr, hinfo'⟩ | ⟨-, hq, herr, hle⟩
  · have h0 : s.err = 0#4 := by
      by_contra hne
      have := hfault.2 hne
      rw [hp] at this
      cases this
    rw [h0] at herr
    rw [hinfo hp] at hinfo'
    have hq : t.phase = .idle := by rw [ht]
    exact ⟨by simp [hq], by simp [herr], by simp [hq, herr], fun _ => hinfo'⟩
  · exact ⟨by simp [hq], hle, by simp [hq, herr], by simp [hq]⟩

/-- However DECODE ends, BITPOS stays in its range (R33). -/
theorem bitpos_decodeBody {s : State} (h : s.bitpos.toNat ≤ 8) : (decodeBody s).All fun t => t.bitpos.toNat ≤ 8 := by
  rw [decodeBody, require]
  split
  · exact bitpos_decodeMain s
  · exact h

theorem rangesOk_exec {i : Instr} (hi : i ≠ .clear) {s t : State} (hp : s.phase = .idle) (hs : RangesOk s)
    (h : exec i s = .next t) : RangesOk t := by
  obtain ⟨hw, -⟩ := keeps_exec hi h
  cases i with
  | clear => exact absurd rfl hi
  | count => rw [hw.2]; exact hs
  | buildTree =>
    have hbitpos : t.bitpos = s.bitpos := by rw [hw.2]
    cases hfv : s.fv with
    | false =>
      rw [exec_flag_clear (i := .buildTree) hp hfv] at h
      obtain rfl := Host.Outcome.next.inj h
      exact hs
    | true =>
      obtain ⟨-, -, -, hb⟩ := hs
      rcases exec_buildTree_splits hp hfv h with
        ⟨-, u, ⟨-, -, htree, -, hwork⟩, rfl⟩ | ⟨-, -, -, hnleaf, hncount, hwork⟩
      · have := htree.leaves_le
        have := htree.count
        exact ⟨htree.leaves_le, by show u.ncount.toNat ≤ 511; omega, by show u.work.length ≤ 256; omega,
          by rw [hbitpos]; exact hb⟩
      · exact ⟨hnleaf, hncount, hwork, by rw [hbitpos]; exact hb⟩
  | buildDict => rw [hw]; exact hs
  | encMeta => rw [hw]; exact hs
  | decMeta => rw [hw.2]; exact hs
  | pack => rw [hw.2]; exact hs
  | decode =>
    obtain ⟨hnleaf, hncount, hwork, hbitpos⟩ := hs
    have hb : t.bitpos.toNat ≤ 8 := accept_all (P := fun u => u.bitpos.toNat ≤ 8) h hbitpos (fun u p hu => hu)
      fun u hu => bitpos_decodeBody hu
    rw [hw.2]
    exact ⟨hnleaf, hncount, hwork, hb⟩
  | nop => rw [hw]; exact hs

/-! ### The packer's buffer (R32) -/

theorem bufOk_packSymbol {s : State} (h : BufOk s) : (packSymbol s).All BufOk := by
  rcases inRead_cases s with ⟨hr, -⟩ | ⟨b, l, hr, -⟩
  · rw [packSymbol_eof hr]
    exact h
  · have htook : BufOk (tookByte b s) := h.congr rfl rfl
    cases hb : (dictAt s b).valid with
    | true =>
      rw [packSymbol_valid hr hb]
      exact (appendCode_bufHas htook.has _).bufOk
    | false =>
      rw [packSymbol_miss hr hb]
      exact htook.congr rfl rfl

theorem bufOk_packChunk (k : Nat) : ∀ s : State, BufOk s → (packChunk k s).All BufOk := by
  induction k with
  | zero => exact fun s hs => hs
  | succ k ih =>
    intro s hs
    have h := bufOk_packSymbol hs
    rw [packChunk]
    cases hsym : packSymbol s with
    | again t => rw [hsym] at h; exact ih t h
    | exit t => rw [hsym] at h; exact h
    | raised t => rw [hsym] at h; exact h
    | stuck f => trivial

theorem bufOk_flushComplete {s : State} (h : BufOk s) : BufOk (flushComplete s) := by
  obtain ⟨-, hb⟩ := flushComplete_bufHas h.has
  exact hb.bufOk

theorem bufOk_packPass (chunk : Nat) {s : State} (hs : BufOk s) : (packPass chunk s).All BufOk := by
  have h := bufOk_packChunk chunk s hs
  rw [packPass]
  cases hc : packChunk chunk s with
  | again t => rw [hc] at h; exact bufOk_flushComplete h
  | exit t => rw [hc] at h; exact bufOk_flushComplete h
  | raised t => rw [hc] at h; exact h
  | stuck f => trivial

/-- PACK ends with an empty buffer, or raises with a well-formed one. -/
theorem buf_packBody (chunk : Nat) {s : State} (hs : BufEmpty s) : (packBody chunk s).Splits BufEmpty BufOk := by
  refine splits_require (fun _ => ?_) fun _ => hs.bufOk.congr rfl rfl
  rw [packMain]
  have h := loop_all (P := BufOk) (fun t => bufOk_packPass chunk) (s.inp.left + 1) { s with buf := [], bitlen := 0 }
    (BufEmpty.bufOk ⟨rfl, rfl⟩)
  exact h.splits.andThen fun t _ => ⟨rfl, rfl⟩

/-- A command other than PACK, accepted with an empty buffer, leaves it empty. -/
theorem bufEmpty_exec {i : Instr} (hi : i ≠ .clear) (hn : i ≠ .pack) {s t : State} (hs : BufEmpty s)
    (h : exec i s = .next t) : BufEmpty t := by
  obtain ⟨hw, -⟩ := keeps_exec hi h
  cases i with
  | clear => exact absurd rfl hi
  | pack => exact absurd rfl hn
  | count => rw [hw.2]; exact hs
  | buildTree => rw [hw.2]; exact hs
  | buildDict => rw [hw]; exact hs
  | encMeta => rw [hw]; exact hs
  | decMeta => rw [hw.2]; exact hs
  | decode => rw [hw.2]; exact hs
  | nop => rw [hw]; exact hs

theorem buf_exec {i : Instr} (hi : i ≠ .clear) {s t : State} (hp : s.phase = .idle) (hs : BufEmpty s)
    (h : exec i s = .next t) : (t.phase = .idle → BufEmpty t) ∧ BufOk t := by
  by_cases hn : i = .pack
  · subst hn
    have hb : ∀ r, bodyOf .pack { s with phase := .busy } = r → r.Splits BufEmpty BufOk := by
      rintro r rfl
      exact buf_packBody Config.chunk (s := { s with phase := .busy }) hs
    rcases exec_splits hi hp h hb with ⟨-, u, hu, rfl⟩ | ⟨hq, hb⟩
    · exact ⟨fun _ => hu, hu.bufOk.congr rfl rfl⟩
    · exact ⟨by simp [hq], hb⟩
  · have ht := bufEmpty_exec hi hn hs h
    exact ⟨fun _ => ht, ht.bufOk⟩

/-! ### The flags and the tables -/

theorem tablesOk_buildTree {s t : State} (hp : s.phase = .idle) (hs : TablesOk s) (h : exec .buildTree s = .next t) :
    TablesOk t := by
  obtain ⟨⟨-, hf⟩, -⟩ := keeps_exec (by simp) h
  cases hfv : s.fv with
  | false =>
    rw [exec_flag_clear (i := .buildTree) hp hfv] at h
    obtain rfl := Host.Outcome.next.inj h
    exact hs.congr rfl
  | true =>
    have hfv' : t.fv = true := by rw [hf]; exact hfv
    rcases exec_buildTree_splits hp hfv h with ⟨-, u, ⟨-, hdv, htree, hleaves, -⟩, rfl⟩ | ⟨-, htv, hdv, -⟩
    · have hu : TablesOk u := ⟨fun _ => hfv', by simp [hdv], fun _ => htree, fun _ => hleaves, by simp [hdv]⟩
      exact hu.congr rfl
    · exact tablesOk_of_down htv hdv

theorem tablesOk_buildDict {s t : State} (hp : s.phase = .idle) (hs : TablesOk s) (h : exec .buildDict s = .next t) :
    TablesOk t := by
  cases htv : s.tv with
  | false =>
    rw [exec_flag_clear (i := .buildDict) hp htv] at h
    obtain rfl := Host.Outcome.next.inj h
    exact hs.congr rfl
  | true =>
    have hb : TablesOk { s with phase := .busy } := hs.congr rfl
    obtain ⟨u, hu, hdict, hf, -⟩ := buildDictMain_ok (hb.tree htv) (hb.leaves htv)
    have hmain : bodyOf .buildDict { s with phase := .busy } = .done u := by
      rw [bodyOf, buildDictBody_eq (s := { s with phase := .busy }) htv, hu]
    rw [exec_idle hp, hmain] at h
    obtain rfl := Host.Outcome.next.inj h
    have htv' : u.tv = true := by rw [hf]; exact htv
    constructor
    · intro _
      show u.fv = true
      rw [hf]
      exact hs.treeFlag htv
    · exact fun _ => htv'
    · intro _
      exact (hs.tree htv).congr (by rw [hf]) (by rw [hf]) (by rw [hf]) (by rw [hf])
    · intro _
      exact (hs.leaves htv).congr (by rw [hf]) (by rw [hf]) (by rw [hf]) (by rw [hf])
    · exact fun _ => hdict.congr rfl rfl rfl rfl

theorem tablesOk_exec {i : Instr} (hi : i ≠ .clear) {s t : State} (hp : s.phase = .idle) (hs : TablesOk s)
    (h : exec i s = .next t) : TablesOk t := by
  obtain ⟨hw, -⟩ := keeps_exec hi h
  have hflags := flagsFollow_exec hp h
  cases i with
  | clear => exact absurd rfl hi
  | count =>
    obtain ⟨-, htv, hdv⟩ := hflags
    exact tablesOk_of_down htv hdv
  | decMeta =>
    obtain ⟨-, htv, hdv⟩ := hflags
    exact tablesOk_of_down htv hdv
  | buildTree => exact tablesOk_buildTree hp hs h
  | buildDict => exact tablesOk_buildDict hp hs h
  | encMeta => exact hs.congr (by rw [hw]; rfl)
  | pack => exact hs.congr (by rw [hw.2]; rfl)
  | decode => exact hs.congr (by rw [hw.2]; rfl)
  | nop => exact hs.congr (by rw [hw])

/-! ### Every step keeps the invariant -/

theorem inv_exec {i : Instr} {s t : State} (hs : Inv s) (h : exec i s = .next t) : Inv t := by
  obtain ⟨as, hstreams⟩ := streamsMovedBy_exec h
  have hpos := hstreams.pos_le hs.pos
  by_cases hi : i = .clear
  · subst hi
    obtain rfl := exec_clear_next h
    exact inv_resetBlock hs.pos
  · cases hp : s.phase with
    | busy => exact absurd hp hs.notBusy
    | fault =>
      rw [exec_fault hp hi] at h
      obtain rfl := Host.Outcome.next.inj h
      exact hs
    | idle =>
      obtain ⟨hempty, hbuf⟩ := buf_exec hi hp (hs.idleBuf hp) h
      exact inv_of_parts (controlOk_exec hi hp hs.control h) hpos (rangesOk_exec hi hp hs.ranges h) hempty hbuf
        (tablesOk_exec hi hp hs.tables h)

theorem inv_issue {w : Byte} {s t : State} (hs : Inv s) (h : issue w s = .next t) : Inv t := by
  rcases issue_next h with ⟨i, hi⟩ | rfl | rfl
  · exact inv_exec hs hi
  · exact hs
  · exact hs.raise _ _

/-- The first accesses of a history that moved the streams leave IN's position inside its data. -/
theorem pos_replay_take {as : List StreamAccess} {s t : State} (h : StreamsMovedBy as s t)
    (hs : s.inp.pos ≤ s.inp.data.length) (k : Nat) :
    (replay (as.take k) s).inp.pos ≤ (replay (as.take k) s).inp.data.length := by
  obtain ⟨-, -, hread, -, -⟩ := h
  have hle := hread.length_le
  rw [← List.take_append_drop k as, readBytes_append, List.length_append, InStream.rest, List.length_drop] at hle
  rw [replay_eq]
  show s.inp.pos + (readBytes (as.take k)).length ≤ s.inp.data.length
  omega

/-- A command abandoned by reset leaves a reset block (R280). -/
theorem inv_abandon {w : Byte} {k : Nat} {s t : State} (hs : Inv s) (h : abandon w k s = .next t) : Inv t := by
  rw [abandon] at h
  cases hi : issue w s with
  | next u =>
    rw [hi] at h
    obtain rfl := Host.Outcome.next.inj h
    obtain ⟨as, hstreams⟩ := streamsMovedBy_issue hi
    have hdrop : u.accesses.drop s.accesses.length = as := by rw [hstreams.1, List.drop_left]
    rw [hdrop]
    exact inv_resetBlock (pos_replay_take hstreams hs.pos k)
  | fault f => rw [hi] at h; cases h
  | refused r => rw [hi] at h; cases h

theorem inv_hostStep {e : HostEvent} {s t : State} (hs : Inv s) (h : hostStep e s = .next t) : Inv t := by
  cases e with
  | command w => exact inv_issue hs h
  | setInput bytes => rw [streamAction_next h]; exact hs.congr rfl (Nat.zero_le _)
  | rewind => rw [streamAction_next h]; exact hs.congr rfl (Nat.zero_le _)
  | takeOutput => rw [streamAction_next h]; exact hs.congr rfl hs.pos
  | truncateOutput n => rw [streamAction_next h]; exact hs.congr rfl hs.pos
  | readReg r =>
    obtain ⟨v, rfl⟩ := hostRead_next h
    exact hs.congr rfl hs.pos
  | reset =>
    obtain rfl := Host.Outcome.next.inj h
    exact inv_resetBlock hs.pos
  | commandThenReset w k => exact inv_abandon hs h

/-- Settles O58: with no move pending nothing changes; every move of the host keeps the invariant, a command part by part. -/
theorem stepKeepsInvariant : Obligations.StepKeepsInvariant := by
  unfold Obligations.StepKeepsInvariant
  intro s t hs h
  cases hpend : s.pending with
  | nil =>
    rw [step_of_no_pending hpend] at h
    obtain rfl := Host.Outcome.next.inj h
    exact hs
  | cons e es =>
    rw [step_of_pending hpend] at h
    exact inv_hostStep (hs.congr (t := { s with pending := es }) rfl hs.pos) h

end Sys2Proof.Machine
end

section
/-! SUPPORT. The host's actions on the streams as steps (spec/20_memory.md R62), and IN under a command (R34, R61). -/

namespace Sys2Proof.Machine

section

variable {s t : State} {e : HostEvent} {es : List HostEvent} {f : State → State}

/-- Outside BUSY a move that is a stream action is that action, at the state without the move (R62). -/
theorem step_streamAction_ready (he : hostStep e = streamAction f) (hp : s.phase ≠ .busy) (hpend : s.pending = e :: es) :
    step s = .next (f { s with pending := es }) := by
  rw [step_of_pending hpend, he]
  exact streamAction_ready (s := { s with pending := es }) hp f

/-- In BUSY a move that is a stream action is refused (R62; log entry 10). -/
theorem step_streamAction_busy (he : hostStep e = streamAction f) (hp : s.phase = .busy) (hpend : s.pending = e :: es) :
    step s = .refused .streamsNotReady := by
  rw [step_of_pending hpend, he]
  exact streamAction_busy (s := { s with pending := es }) hp f

/-- The block reads IN forward only: its data stay and its position is never moved back (R61). -/
theorem StreamsMovedBy.inp_forward {as : List StreamAccess} (h : StreamsMovedBy as s t) :
    t.inp.data = s.inp.data ∧ s.inp.pos ≤ t.inp.pos := by
  obtain ⟨-, hdata, -, hpos, -⟩ := h
  exact ⟨hdata, by omega⟩

end

/-- Settles O9: each of the three moves is a stream action, taken outside BUSY and refused in it; a command only reads IN on. -/
theorem hostStreamActions : Obligations.HostStreamActions := by
  unfold Obligations.HostStreamActions
  refine ⟨fun s es hp => ⟨fun bytes hpend => ?_, fun hpend => ?_, fun hpend => ?_⟩, fun s t es hp hpend => ?_,
    fun i s t h => ?_⟩
  · exact step_streamAction_ready (f := hostSetInput bytes) rfl hp hpend
  · exact step_streamAction_ready (f := hostRewind) rfl hp hpend
  · exact step_streamAction_ready (f := hostTakeOutput) rfl hp hpend
  · have refused : step s = .refused .streamsNotReady := by
      rcases hpend with ⟨bytes, hpend⟩ | hpend | hpend
      · exact step_streamAction_busy (f := hostSetInput bytes) rfl hp hpend
      · exact step_streamAction_busy (f := hostRewind) rfl hp hpend
      · exact step_streamAction_busy (f := hostTakeOutput) rfl hp hpend
    simp [refused]
  · obtain ⟨as, hstreams⟩ := streamsMovedBy_exec h
    exact hstreams.inp_forward

end Sys2Proof.Machine
end

section
/-! SUPPORT. Command words (spec/30_encoding.md R90 to R94, R101): encoder and decoder are inverse, on one word and on a sequence of
words; a reserved word at the host port (R92, R222); and what a command leaves of the state outside its row of R93. -/

namespace Sys2Proof.Machine

/-! ### One word (R90, R91, R92) -/

/-- Every command's word has the fields of R90 and selects no other command. -/
theorem wordFields : ∀ i : Instr, Laws.WordFields.Statement i
  | .clear => Laws.WordFields.clear
  | .count => Laws.WordFields.count
  | .buildTree => Laws.WordFields.buildTree
  | .buildDict => Laws.WordFields.buildDict
  | .encMeta => Laws.WordFields.encMeta
  | .decMeta => Laws.WordFields.decMeta
  | .pack => Laws.WordFields.pack
  | .decode => Laws.WordFields.decode
  | .nop => Laws.WordFields.nop

theorem decodeWord_eq_ok_iff {w : Byte} {i : Instr} : decodeWord w = .ok i ↔ w = encodeWord i := by
  obtain ⟨-, -, -, -, -, honly⟩ := wordFields i
  exact honly w

@[simp] theorem decodeWord_encodeWord (i : Instr) : decodeWord (encodeWord i) = .ok i := decodeWord_eq_ok_iff.2 rfl

/-- The words of the opcode map are those from 0x01 to 0x09 (R91). -/
theorem exists_eq_encodeWord_iff {w : Byte} : (∃ i, w = encodeWord i) ↔ 0x01#8 ≤ w ∧ w ≤ 0x09#8 := by
  constructor
  · rintro ⟨i, rfl⟩
    cases i <;> decide
  · rintro ⟨hlow, hhigh⟩
    have hw : w = 0x01#8 ∨ w = 0x02#8 ∨ w = 0x03#8 ∨ w = 0x04#8 ∨ w = 0x05#8 ∨ w = 0x06#8 ∨ w = 0x07#8 ∨ w = 0x08#8 ∨
        w = 0x09#8 := by bv_omega
    rcases hw with rfl | rfl | rfl | rfl | rfl | rfl | rfl | rfl | rfl
    exacts [⟨.clear, rfl⟩, ⟨.count, rfl⟩, ⟨.buildTree, rfl⟩, ⟨.buildDict, rfl⟩, ⟨.encMeta, rfl⟩, ⟨.decMeta, rfl⟩,
      ⟨.pack, rfl⟩, ⟨.decode, rfl⟩, ⟨.nop, rfl⟩]

theorem exists_decodeWord_iff {w : Byte} : (∃ i, decodeWord w = .ok i) ↔ 0x01#8 ≤ w ∧ w ≤ 0x09#8 := by
  simp only [decodeWord_eq_ok_iff, exists_eq_encodeWord_iff]

theorem decodeWord_zeroField {w : Byte} (hz : w.extractLsb' 4 4 ≠ 0#4) : decodeWord w = .error (.zeroField w) := by
  rw [decodeWord, if_pos hz]

/-- A word whose bits 7:4 are 0 and which is no command has a reserved operation number (R92). -/
theorem decodeWord_reservedOp {w : Byte} (hz : w.extractLsb' 4 4 = 0#4) (hn : ∀ i, decodeWord w ≠ .ok i) :
    decodeWord w = .error (.reservedOp w) := by
  rw [decodeWord, if_neg (not_not.2 hz)] at hn ⊢
  cases hop : decodeOp (w.extractLsb' 0 4) with
  | none => rfl
  | some i => exact absurd (by rw [hop]) (hn i)

/-- The words with bits 7:4 zero are those below 0x10 (R90). -/
theorem zeroField_eq_zero_of_le {w : Byte} (h : w ≤ 0x0F#8) : w.extractLsb' 4 4 = 0#4 := by
  apply BitVec.eq_of_toNat_eq
  have hw : w.toNat ≤ 15 := h
  rw [BitVec.extractLsb'_toNat, Nat.shiftRight_eq_div_pow, Nat.div_eq_of_lt (by omega)]
  rfl

/-! ### One command from a sequence of words (R90, R101) -/

theorem decode_encode_append (i : Instr) (rest : List Byte) :
    Sys2Proof.decode (encode i ++ rest) = .ok (i, rest) := by
  simp [encode, Sys2Proof.decode]

/-! ### All commands of a sequence of words (R94) -/

@[simp] theorem encodeAll_nil : encodeAll [] = [] := rfl

@[simp] theorem encodeAll_cons (i : Instr) (is : List Instr) : encodeAll (i :: is) = encodeWord i :: encodeAll is := rfl

@[simp] theorem decodeAll_nil : decodeAll [] = .ok [] := rfl

/-- A sequence of words is a command sequence when its first word is a command and the others are a command sequence. -/
theorem decodeAll_cons_eq_ok_iff {w : Byte} {ws : List Byte} {is : List Instr} :
    decodeAll (w :: ws) = .ok is ↔ ∃ i js, decodeWord w = .ok i ∧ decodeAll ws = .ok js ∧ is = i :: js := by
  rw [decodeAll]
  cases decodeWord w with
  | error r => simp
  | ok i =>
    cases decodeAll ws with
    | error r => simp
    | ok js => simp [eq_comm]

theorem decodeAll_eq_ok_iff {ws : List Byte} {is : List Instr} : decodeAll ws = .ok is ↔ ws = encodeAll is := by
  induction ws generalizing is with
  | nil => cases is <;> simp
  | cons w ws ih =>
    rw [decodeAll_cons_eq_ok_iff]
    simp only [decodeWord_eq_ok_iff, ih]
    cases is with
    | nil => simp
    | cons i is =>
      constructor
      · rintro ⟨j, js, rfl, rfl, h⟩
        obtain ⟨rfl, rfl⟩ := List.cons.inj h
        rfl
      · intro h
        obtain ⟨hw, hws⟩ := List.cons.inj h
        exact ⟨i, is, hw, hws, rfl⟩

/-- Settles O4: by induction on the words; each word is a command exactly when it is that command's encoding. -/
theorem commandSequencesRoundTrip : Obligations.CommandSequencesRoundTrip := by
  unfold Obligations.CommandSequencesRoundTrip
  exact fun ws is => decodeAll_eq_ok_iff

/-- Settles O1: the words of the opcode map are the encodings of its commands. -/
theorem commandWordsDecode : Obligations.CommandWordsDecode := by
  unfold Obligations.CommandWordsDecode
  exact ⟨decode_encode_append .clear [], decode_encode_append .count [], decode_encode_append .buildTree [],
    decode_encode_append .buildDict [], decode_encode_append .encMeta [], decode_encode_append .decMeta [],
    decode_encode_append .pack [], decode_encode_append .decode [], decode_encode_append .nop []⟩

/-- Settles O2: the words of commands are 0x01 to 0x09; a word below 0x10 outside them has a reserved operation number. -/
theorem reservedWordsRefused : Obligations.ReservedWordsRefused := by
  unfold Obligations.ReservedWordsRefused
  refine fun w => ⟨decodeWord_zeroField, fun hw => ?_, exists_decodeWord_iff⟩
  have hfield : w ≤ 0x0F#8 := by bv_omega
  have hout : ¬(0x01#8 ≤ w ∧ w ≤ 0x09#8) := by bv_omega
  exact decodeWord_reservedOp (zeroField_eq_zero_of_le hfield) fun i hi => hout (exists_decodeWord_iff.1 ⟨i, hi⟩)

/-- Settles O3: a command's word decodes to it, and decoding reads no further word. -/
theorem decodeInvertsEncode : Obligations.DecodeInvertsEncode := by
  unfold Obligations.DecodeInvertsEncode
  exact fun i rest _ => ⟨rfl, decode_encode_append i rest⟩

/-! ### A reserved word at the host port (R92, R222) -/

theorem issue_reserved {w : Byte} {r : Reject} (h : decodeWord w = .error r) (s : State) :
    issue w s = execReserved w s := by
  simp only [issue, h]

theorem execReserved_idle {s : State} (hp : s.phase = .idle) (w : Byte) :
    execReserved w s = .next (raise .badCommand w s) := by
  rw [execReserved, accept_idle hp]
  rfl

/-- Settles O6: the refused word goes to the reserved arm, which in IDLE raises BadCommand and nothing else. -/
theorem reservedWordRaisesBadCommand : Obligations.ReservedWordRaisesBadCommand := by
  unfold Obligations.ReservedWordRaisesBadCommand
  intro s w es r hpend hp hw
  rw [step_of_pending hpend, hostStep, issue_reserved hw, execReserved_idle (s := { s with pending := es }) hp]
  rfl

/-! ### What a command leaves as it was (R93, R250) -/

/-- Every command writes its operands only, CLEAR all of the block. -/
theorem writesOnly_exec {i : Instr} {s t : State} (h : exec i s = .next t) : WritesOnly i s t := by
  by_cases hi : i = .clear
  · subst hi
    obtain rfl := exec_clear_next h
    exact rfl
  · exact (keeps_exec hi h).1

/-- A command's pseudocode completes with ERR and ERRINFO as they were, or raises into FAULT. -/
theorem bodyOf_settles {i : Instr} (hi : i ≠ .clear) {s : State} {r : Run} (hr : bodyOf i s = r) : r.Settles s := by
  have h := bodyOf_splits hi hr
  cases r with
  | done u => exact h
  | raised u =>
    obtain ⟨hphase, -⟩ := h
    exact hphase
  | stuck f => trivial

/-- A command other than CLEAR that did not raise, or was discarded in FAULT, leaves PHASE, ERR and ERRINFO alone. -/
theorem control_same_of_not_raised {i : Instr} (hi : i ≠ .clear) {s t : State} (h : exec i s = .next t)
    (hr : s.phase = .fault ∨ t.phase ≠ .fault) : t.phase = s.phase ∧ t.err = s.err ∧ t.errinfo = s.errinfo := by
  rw [exec_eq_accept hi] at h
  exact accept_settles (fun u r => bodyOf_settles hi) h hr

/-- Settles O52: the frame of each command, and the two ways in which a command ends without a raise. -/
theorem commandsWriteOnlyTheirOperands : Obligations.CommandsWriteOnlyTheirOperands := by
  unfold Obligations.CommandsWriteOnlyTheirOperands
  exact fun i s t h => ⟨writesOnly_exec h, fun hi hr => control_same_of_not_raised hi h hr⟩

end Sys2Proof.Machine
end

section
/-! SUPPORT. COUNT (spec/40_histogram.md R120 to R123): one pass of its loop, its state after a prefix of IN, and the two ways it
ends. -/

namespace Sys2Proof.Machine

/-! ### One pass (R121, R123) -/

section

variable {s : State} {b : Byte} {l : List Byte}

theorem countStep_eof (h : s.inp.rest = []) : countStep s = .exit s := by
  simp only [countStep, inRead_eof h]

/-- A bin with room goes up by one, and the byte is consumed. -/
theorem countStep_room (h : s.inp.rest = b :: l) (hroom : freqAt s b ≠ BitVec.allOnes 64) :
    countStep s = .again (setFreq (tookByte b s) b (freqAt s b + 1#64)) := by
  have hroom' : freqAt (tookByte b s) b ≠ BitVec.allOnes 64 := hroom
  simp only [countStep, inRead_byte h, if_neg hroom']
  rfl

/-- A full bin raises; the byte is consumed and no bin is written. -/
theorem countStep_full (h : s.inp.rest = b :: l) (hfull : freqAt s b = BitVec.allOnes 64) :
    countStep s = .raised (raise .countOverflow (encodeWord .count) (tookByte b s)) := by
  have hfull' : freqAt (tookByte b s) b = BitVec.allOnes 64 := hfull
  simp only [countStep, inRead_byte h, if_pos hfull']

end

theorem eq_allOnes_iff {v : Count} : v = BitVec.allOnes 64 ↔ v.toNat = 2 ^ 64 - 1 := by
  rw [← BitVec.toNat_inj, BitVec.toNat_allOnes]

/-- Settles O18: a bin below 2^64 - 1 has room for one more, and a full one raises before it is written. -/
theorem binStep : Obligations.BinStep := by
  unfold Obligations.BinStep
  intro s b r hr
  refine ⟨fun hlt => ?_, fun hmax => ?_⟩
  · have hroom : (freqAt s b).toNat + 1 < 2 ^ 64 := by omega
    refine ⟨_, countStep_room hr (toNat_ne_allOnes.2 hroom), ?_, fun c hc => ?_, ?_⟩
    · rw [freqAt_setFreq_same, BitVec.toNat_add, BitVec.toNat_ofNat]
      omega
    · exact freqAt_setFreq_other (tookByte b s) _ hc
    · exact rest_tookByte hr
  · exact ⟨_, countStep_full hr (eq_allOnes_iff.2 hmax), rfl, rfl, rfl, rest_tookByte hr⟩

/-! ### The histogram (R122) -/

theorem getElem_histogram (l : List Byte) (b : Byte) : (histogram l)[b.toNat]'(b.isLt) = BitVec.ofNat 64 (l.count b) := by
  simp [histogram]

theorem histogram_nil : histogram [] = Vector.replicate 256 0#64 := by
  refine freq_ext fun b => ?_
  rw [getElem_histogram, Vector.getElem_replicate, List.count_nil]

/-- One more byte is one more in its bin. -/
theorem histogram_concat (l : List Byte) (b : Byte) :
    histogram (l ++ [b]) = (histogram l).set b.toNat (BitVec.ofNat 64 (l.count b) + 1#64) b.isLt := by
  refine freq_ext fun c => ?_
  rw [getElem_histogram, Vector.getElem_set, getElem_histogram, List.count_append]
  by_cases hc : b = c
  · subst hc
    rw [if_pos rfl, List.count_singleton_self, BitVec.ofNat_add]
  · rw [if_neg fun h => hc (BitVec.eq_of_toNat_eq h), List.count_singleton, if_neg (by simpa using hc), Nat.add_zero]

/-! ### A prefix of IN counted (R120) -/

/-- COUNT, begun in `s`, after it has counted the bytes `l`. -/
def counted (l : List Byte) (s : State) : State :=
  { clearFlags s with
    freq := histogram l
    inp := ⟨s.inp.data, s.inp.pos + l.length⟩
    accesses := s.accesses ++ l.map .read }

theorem counted_nil (s : State) : counted [] s = clearFreq (clearFlags s) := by
  simp [counted, histogram_nil, clearFreq]

theorem freqAt_counted (l : List Byte) (s : State) (b : Byte) : freqAt (counted l s) b = BitVec.ofNat 64 (l.count b) :=
  getElem_histogram l b

/-- The bin step takes `counted l s` to `counted (l ++ [b]) s`. -/
theorem counted_concat (l : List Byte) (b : Byte) (s : State) :
    counted (l ++ [b]) s = setFreq (tookByte b (counted l s)) b (freqAt (counted l s) b + 1#64) := by
  rw [freqAt_counted, counted, histogram_concat, List.length_append, List.map_append, ← List.append_assoc,
    ← Nat.add_assoc]
  rfl

section

variable {s : State} {a r : List Byte}

theorem rest_counted (h : s.inp.rest = a ++ r) : (counted a s).inp.rest = r := by
  rw [InStream.rest] at h
  rw [counted, InStream.rest, ← List.drop_drop, h, List.drop_left]

/-- The loop counts a prefix of IN in one pass per byte, when no byte stands in it 2^64 times or more: both ends of COUNT start
from here, where `loop_countStep` speaks of the whole of IN only. -/
theorem loop_countStep_prefix (hfit : ∀ c, a.count c < 2 ^ 64) (h : s.inp.rest = a ++ r) (n : Nat) :
    loop countStep (a.length + n) (counted [] s) = loop countStep n (counted a s) := by
  induction a using List.reverseRecOn generalizing r n with
  | nil => rw [List.length_nil, Nat.zero_add]
  | append_singleton a b ih =>
    have hcount : ∀ c, (a ++ [b]).count c = a.count c + [b].count c := fun c => List.count_append
    have hfit' : ∀ c, a.count c < 2 ^ 64 := fun c => by have := hfit c; rw [hcount] at this; omega
    have h' : s.inp.rest = a ++ b :: r := by rw [h, List.append_assoc, List.singleton_append]
    have hroom : freqAt (counted a s) b ≠ BitVec.allOnes 64 := by
      have := hfit b
      rw [hcount, List.count_singleton_self] at this
      rwa [toNat_ne_allOnes, freqAt_counted, BitVec.toNat_ofNat, Nat.mod_eq_of_lt (hfit' b)]
    rw [List.length_append, List.length_singleton, Nat.add_assoc, Nat.add_comm 1, ih hfit' h',
      loop_of_again (countStep_room (rest_counted h') hroom), ← counted_concat]

/-- COUNT's loop, from its start to the end of a prefix of IN. -/
theorem countBody_prefix (hfit : ∀ c, a.count c < 2 ^ 64) (h : s.inp.rest = a ++ r) :
    countBody s = (loop countStep (r.length + 1) (counted a s)).andThen fun t => .done (setFV t) := by
  rw [countBody, left_eq_length_rest, h, List.length_append, Nat.add_assoc, ← counted_nil, loop_countStep_prefix hfit h]

/-! ### The two ends of COUNT -/

theorem countBody_done (hfit : ∀ c, s.inp.rest.count c < 2 ^ 64) : countBody s = .done (setFV (counted s.inp.rest s)) := by
  have h : s.inp.rest = s.inp.rest ++ [] := (List.append_nil _).symm
  rw [countBody_prefix hfit h, loop_of_exit (countStep_eof (rest_counted h)), andThen_done]

theorem countBody_overflow {b : Byte} (hfit : ∀ c, a.count c < 2 ^ 64) (hfull : a.count b = 2 ^ 64 - 1)
    (h : s.inp.rest = a ++ b :: r) :
    countBody s = .raised (raise .countOverflow (encodeWord .count) (tookByte b (counted a s))) := by
  have hbin : freqAt (counted a s) b = BitVec.allOnes 64 := by
    rw [eq_allOnes_iff, freqAt_counted, BitVec.toNat_ofNat, Nat.mod_eq_of_lt (hfit b), hfull]
  rw [countBody_prefix hfit h, loop_of_raised (countStep_full (rest_counted h) hbin), andThen_raised]

end

/-- Settles O19: all of IN is a prefix of it, counted with no overflow; the loop then meets EOF. -/
theorem countResult : Obligations.CountResult := by
  unfold Obligations.CountResult
  intro s hp hfit
  rw [exec_idle hp, bodyOf, countBody_done (s := { s with phase := .busy }) hfit, counted, finish, ← hp]
  rfl

/-- Settles O20: the bytes before are counted, which fills the bin, and the next byte meets it full. -/
theorem countOverflowFaults : Obligations.CountOverflowFaults := by
  unfold Obligations.CountOverflowFaults
  intro s a r b hp h hfit hfull
  rw [exec_idle hp, bodyOf, countBody_overflow (s := { s with phase := .busy }) hfit hfull h]
  rfl

end Sys2Proof.Machine
end

section
/-! SUPPORT. BUILD_TREE (spec/41_tree_builder.md R130 to R135): where Insert puts an index, the three ends of one merge,
and the three ends of the command, by what FREQ holds. -/

namespace Sys2Proof.Machine

/-! ### Insert (R131) -/

section

variable (nodes : Vector Node 511) (i : NodeIx)

/-- The place of Insert is found by walking over the elements that are not strictly smaller. -/
theorem insertWork_place (l : List NodeIx) :
    ∃ p, p ≤ l.length ∧
      (∀ j ∈ l.take p, (nodeAt nodes i).freq ≤ (nodeAt nodes j).freq) ∧
      (∀ j, l[p]? = some j → (nodeAt nodes j).freq < (nodeAt nodes i).freq) ∧
      insertWork nodes i l = l.take p ++ i :: l.drop p := by
  induction l with
  | nil => exact ⟨0, by simp [insertWork]⟩
  | cons j l ih =>
    rw [insertWork]
    by_cases hlt : (nodeAt nodes j).freq < (nodeAt nodes i).freq
    · exact ⟨0, by simp [hlt]⟩
    · obtain ⟨p, hp, hbefore, hat, heq⟩ := ih
      refine ⟨p + 1, by simpa using hp, ?_, by simpa using hat, ?_⟩
      · simpa using ⟨BitVec.not_lt.1 hlt, hbefore⟩
      · rw [if_neg hlt, heq, List.take_succ_cons, List.drop_succ_cons, List.cons_append]

variable {nodes i}

/-- `insertWork_pairwise` for the order by frequency alone, where the new index may stand anywhere among the others. -/
theorem insertWork_descending {l : List NodeIx}
    (h : l.Pairwise fun j k => (nodeAt nodes k).freq ≤ (nodeAt nodes j).freq) :
    (insertWork nodes i l).Pairwise fun j k => (nodeAt nodes k).freq ≤ (nodeAt nodes j).freq := by
  induction l with
  | nil => simp [insertWork]
  | cons j l ih =>
    obtain ⟨hj, hl⟩ := List.pairwise_cons.1 h
    rw [insertWork]
    split
    · next hlt =>
      refine List.pairwise_cons.2 ⟨fun k hk => ?_, h⟩
      rcases List.mem_cons.1 hk with rfl | hk
      · exact BitVec.le_of_lt hlt
      · exact BitVec.le_trans (hj k hk) (BitVec.le_of_lt hlt)
    · next hge =>
      refine List.pairwise_cons.2 ⟨fun k hk => ?_, ih hl⟩
      rcases mem_insertWork.1 hk with rfl | hk
      · exact BitVec.not_lt.1 hge
      · exact hj k hk

end

/-- Settles O22: the place is where the walk over the greater or equal elements stops; the order by induction on the
list. -/
theorem insertPlacesAfterEquals : Obligations.InsertPlacesAfterEquals := by
  unfold Obligations.InsertPlacesAfterEquals
  intro nodes i l
  obtain ⟨p, hp, hbefore, hat, heq⟩ := insertWork_place nodes i l
  exact ⟨p, hp, hbefore, hat, heq, insertWork_descending⟩

/-! ### One merge (R130, R132, R133) -/

section

variable {s : State} {a b : NodeIx}

/-- A WORK of two or more loses its last two to the merge. -/
theorem mergeStep_pop {l : List NodeIx} (h : s.work = l ++ [b, a]) :
    mergeStep s = mergeNodes a b { s with work := l } := by
  simp [mergeStep, h]

theorem mergeNodes_fits (ha : a ≠ Config.nil) (hb : b ≠ Config.nil)
    (hf : (nodeAt s.node a).freq.toNat + (nodeAt s.node b).freq.toNat < 2 ^ 64) :
    mergeNodes a b s = .again (addNode
      (mkInternal a b (BitVec.ofNat 64 ((nodeAt s.node a).freq.toNat + (nodeAt s.node b).freq.toNat))) s) := by
  simp only [mergeNodes, if_neg (Nat.not_le.2 hf), if_neg (not_or.2 ⟨ha, hb⟩)]

theorem mergeNodes_overflow (hf : 2 ^ 64 ≤ (nodeAt s.node a).freq.toNat + (nodeAt s.node b).freq.toNat) :
    mergeNodes a b s = .raised (raise .countOverflow (encodeWord .buildTree) s) := by
  simp only [mergeNodes, if_pos hf]

theorem mergeNodes_missing (hnil : a = Config.nil ∨ b = Config.nil)
    (hf : (nodeAt s.node a).freq.toNat + (nodeAt s.node b).freq.toNat < 2 ^ 64) :
    mergeNodes a b s = .raised (raise .malformedTree (encodeWord .buildTree) s) := by
  simp only [mergeNodes, if_neg (Nat.not_le.2 hf), if_pos hnil]

end

/-- Settles O23: the popped pair is merged; a sum that fits makes a node by `addNode`, and the two checks raise before
it. -/
theorem mergeStepMakesParent : Obligations.MergeStepMakesParent := by
  unfold Obligations.MergeStepMakesParent
  intro s l a b hw
  rw [mergeStep_pop hw]
  refine ⟨fun ha hb hc hf => ?_, fun hf => ?_, fun hnil hf => ?_⟩
  · have hnew {k : Nat} (hk : k < 512) := nodeN_addNode (s := { s with work := l }) (n := mkInternal a b
      (BitVec.ofNat 64 ((nodeAt s.node a).freq.toNat + (nodeAt s.node b).freq.toNat))) hc hk
    refine ⟨_, _, mergeNodes_fits ha hb hf, ncount_addNode hc, (hnew (by omega)).trans (if_pos rfl), rfl, rfl, rfl, rfl,
      ?_, fun k hk hne => (hnew (by omega)).trans (if_neg hne), rfl, rfl⟩
    exact Nat.mod_eq_of_lt hf
  · exact mergeNodes_overflow (s := { s with work := l }) hf
  · exact mergeNodes_missing (s := { s with work := l }) hnil hf

/-! ### The three ends of the command -/

section

variable {s t u : State}

theorem exec_buildTree (hp : s.phase = .idle) (hfv : s.fv = true) :
    exec .buildTree s = finish (buildTreeMain { s with phase := .busy }) := by
  rw [exec_idle hp, bodyOf, buildTreeBody_eq (s := { s with phase := .busy }) hfv]

/-- What the merge loop leaves alone, from the start of the command. -/
theorem MergeInv.frame_start (hu : MergeInv (recordLeaves (addLeaves (startTree s))) u) :
    u = { startTree s with
      node := u.node
      ncount := u.ncount
      nleaf := u.nleaf
      leaflist := u.leaflist
      work := u.work } := by
  have hscan := (addLeaves_scan s).frame
  have hfr := hu.frame
  generalize addLeaves (startTree s) = s1 at hscan hfr
  rw [hscan] at hfr
  rw [hfr]
  rfl

/-- A table with a nonzero bin and a total that fits: the command builds the tree (R134). -/
theorem buildTreeMain_built (h0 : ∃ b, freqAt s b ≠ 0#64) (hf : freqTotal s < 2 ^ 64) :
    ∃ u, buildTreeMain s = .done u ∧ TreeOk u ∧ LeavesOk u ∧ u.work = [u.root] ∧
      u = { s with
        tv := true
        dv := false
        node := u.node
        ncount := u.ncount
        nleaf := u.nleaf
        root := u.root
        leaflist := u.leaflist
        work := u.work
        dict := (invalidateEntries s).dict } := by
  obtain ⟨u, hu, ⟨hw, hrun⟩ | ⟨hge, -⟩⟩ := buildTreeMain_cases s h0
  · obtain ⟨htree, hleaves, hfr⟩ := treeOk_of_mergeInv hu hw
    exact ⟨_, hrun, htree, hleaves, finishTree_work_eq hw, hfr⟩
  · omega

theorem exists_bin_of_freqTotal_ne_zero (h : freqTotal s ≠ 0) : ∃ b, freqAt s b ≠ 0#64 := by
  by_contra hz
  refine h (List.sum_eq_zero fun n hn => ?_)
  obtain ⟨b, -, rfl⟩ := List.mem_map.1 hn
  rw [not_exists_not.1 hz b]
  rfl

/-- A total of 2^64 or more: no root can hold it, so some merge raises (R246). -/
theorem buildTreeMain_overflow (hf : 2 ^ 64 ≤ freqTotal s) :
    ∃ u, buildTreeMain s = .raised (raise .countOverflow (encodeWord .buildTree) u) ∧
      u = { startTree s with
        node := u.node
        ncount := u.ncount
        nleaf := u.nleaf
        leaflist := u.leaflist
        work := u.work } := by
  have h0 := exists_bin_of_freqTotal_ne_zero (s := s) (by omega)
  obtain ⟨u, hu, ⟨hw, -⟩ | ⟨-, l, a, b, -, -, hrun⟩⟩ := buildTreeMain_cases s h0
  · obtain ⟨htree, hleaves, hfr⟩ := treeOk_of_mergeInv hu hw
    have hfreq : (finishTree u).freq = s.freq := (congrArg State.freq hfr :)
    have hroot := freqTotal_root htree hleaves
    rw [freqTotal_congr hfreq] at hroot
    omega
  · refine ⟨_, hrun, ?_⟩
    rw [hu.frame_start]

/-- FREQ alone decides which fault BUILD_TREE raises (R135). -/
theorem buildTreeMain_raised (h : buildTreeMain s = .raised t) :
    ((∀ b, freqAt s b = 0#64) → t.err = 2#4 ∧ t.errinfo = 0x00#8) ∧
    ((∃ b, freqAt s b ≠ 0#64) → t.err = 6#4 ∧ t.errinfo = 0x03#8) := by
  refine ⟨fun hz => ?_, fun h0 => ?_⟩
  · rw [buildTreeMain_zero hz] at h
    obtain rfl := Run.raised.inj h
    exact ⟨rfl, rfl⟩
  · obtain ⟨u, -, ⟨-, hrun⟩ | ⟨-, l, a, b, -, -, hrun⟩⟩ := buildTreeMain_cases s h0
    · rw [hrun] at h
      cases h
    · rw [hrun] at h
      obtain rfl := Run.raised.inj h
      exact ⟨rfl, rfl⟩

/-- What BUILD_TREE can answer when FV is set. -/
theorem exec_buildTree_next (hp : s.phase = .idle) (hfv : s.fv = true) (h : exec .buildTree s = .next t) :
    (∃ u, buildTreeMain { s with phase := .busy } = .done u ∧ t = { u with phase := .idle }) ∨
    (buildTreeMain { s with phase := .busy } = .raised t ∧ t.phase = .fault) := by
  have hb : bodyOf .buildTree { s with phase := .busy } = buildTreeMain { s with phase := .busy } := buildTreeBody_eq hfv
  rcases exec_idle_cases (by simp) hp h with ⟨u, hu, ht, -⟩ | ⟨hu, hf, -⟩
  · exact .inl ⟨u, hb.symm.trans hu, ht⟩
  · exact .inr ⟨hb.symm.trans hu, hf⟩

end

/-- Settles O24: with no bin to make a leaf of, WORK stays empty and the command raises from its start. -/
theorem emptyInputFaults : Obligations.EmptyInputFaults := by
  unfold Obligations.EmptyInputFaults
  intro s hp hfv hz
  rw [exec_buildTree hp hfv, buildTreeMain_zero (s := { s with phase := .busy }) hz]
  rfl

/-- Settles O25: the total fits, so no merge raises, and the tree the loop leaves is that of its invariant. -/
theorem buildTreeResult : Obligations.BuildTreeResult := by
  unfold Obligations.BuildTreeResult
  intro s hp hfv h0 hf
  obtain ⟨u, hrun, htree, hleaves, hw, hfr⟩ := buildTreeMain_built (s := { s with phase := .busy }) h0 hf
  have hfreq : u.freq = s.freq := (congrArg State.freq hfr :)
  refine ⟨{ u with phase := .idle }, ?_, htree.congr rfl rfl rfl rfl, hleaves.congr rfl rfl rfl rfl, ?_, ?_, hw, ?_⟩
  · rw [exec_buildTree hp hfv, hrun, finish]
  · rw [← presentSymbols_congr hfreq]
    exact hleaves.nleaf_eq
  · rw [← freqTotal_congr hfreq]
    exact (freqTotal_root htree hleaves :)
  · rw [hfr, ← hp]
    rfl

/-- Settles O26: the loop ends with one node only when the total fits in that node, so here it raises. -/
theorem buildTreeOverflowFaults : Obligations.BuildTreeOverflowFaults := by
  unfold Obligations.BuildTreeOverflowFaults
  intro s hp hfv hf
  obtain ⟨u, hrun, hfr⟩ := buildTreeMain_overflow (s := { s with phase := .busy }) hf
  refine ⟨_, by rw [exec_buildTree hp hfv, hrun, finish], rfl, rfl, rfl, ?_⟩
  rw [hfr]
  exact ⟨rfl, rfl, rfl, rfl, rfl, rfl⟩

/-! ### Two runs from one table (R134) -/

/-- States that BUILD_TREE cannot tell apart show the same tree. -/
theorem TreeEq.same_tree {t t' : State} (h : TreeEq t t') :
    t'.ncount = t.ncount ∧ t'.nleaf = t.nleaf ∧ t'.root = t.root ∧ leafList t' = leafList t ∧
      ∀ k, k < t.ncount.toNat → nodeN t' k = nodeN t k := by
  refine ⟨h.ncount, h.nleaf, h.root, h.leaves, fun k hk => h.nodes _ ?_⟩
  rw [BitVec.toNat_ofNat]
  exact (Nat.mod_le k _).trans_lt hk

/-- From the same table the same fault is raised. -/
theorem same_fault_of_raised {s s' t t' : State} (hfreq : s'.freq = s.freq) (h : buildTreeMain s = .raised t)
    (h' : buildTreeMain s' = .raised t') : t'.err = t.err ∧ t'.errinfo = t.errinfo := by
  have hbins := freqAt_congr hfreq
  obtain ⟨hzero, hsome⟩ := buildTreeMain_raised h
  obtain ⟨hzero', hsome'⟩ := buildTreeMain_raised h'
  by_cases h0 : ∀ b, freqAt s b = 0#64
  · obtain ⟨herr, hinfo⟩ := hzero h0
    obtain ⟨herr', hinfo'⟩ := hzero' fun b => (hbins b).trans (h0 b)
    exact ⟨herr'.trans herr.symm, hinfo'.trans hinfo.symm⟩
  · obtain ⟨b, hb⟩ := not_forall.1 h0
    obtain ⟨herr, hinfo⟩ := hsome ⟨b, hb⟩
    obtain ⟨herr', hinfo'⟩ := hsome' ⟨b, by rwa [hbins b]⟩
    exact ⟨herr'.trans herr.symm, hinfo'.trans hinfo.symm⟩

/-- Settles O27: the two runs stay in step, and the table says which fault both raise. -/
theorem buildTreeReadsOnlyFreq : Obligations.BuildTreeReadsOnlyFreq := by
  unfold Obligations.BuildTreeReadsOnlyFreq
  intro s s' t t' hp hp' hfv hfv' hfreq h h'
  have hsame {r r' : Run} : buildTreeMain { s with phase := .busy } = r →
      buildTreeMain { s' with phase := .busy } = r' → r.Rel TreeEq r' :=
    treeEq_buildTreeMain (s := { s with phase := .busy }) (t := { s' with phase := .busy }) hfreq
  rcases exec_buildTree_next hp hfv h with ⟨u, hu, rfl⟩ | ⟨hu, hf⟩
  · rcases exec_buildTree_next hp' hfv' h' with ⟨u', hu', rfl⟩ | ⟨hu', -⟩
    · have htree : TreeEq u u' := hsame hu hu'
      exact ⟨rfl, nofun, htree.same_tree⟩
    · exact (hsame hu hu').elim
  · rcases exec_buildTree_next hp' hfv' h' with ⟨u', hu', rfl⟩ | ⟨hu', hf'⟩
    · exact (hsame hu hu').elim
    · have htree : TreeEq t t' := hsame hu hu'
      have hfault : t'.err = t.err ∧ t'.errinfo = t.errinfo :=
        same_fault_of_raised (s := { s with phase := .busy }) (s' := { s' with phase := .busy }) hfreq hu hu'
      exact ⟨hf'.trans hf.symm, fun _ => hfault, htree.same_tree⟩

end Sys2Proof.Machine
end

section
/-! SUPPORT. BUILD_DICT (spec/42_dictionary_builder.md R150 to R152): how the command ends, by the end of its walk, and
what a dictionary of a valid tree looks like. -/

namespace Sys2Proof.Machine

/-! ### The ends of the command (R150, R222) -/

/-- The state from which BUILD_DICT's walk starts, when the command was accepted in `s`. -/
def dictStart (s : State) : State := invalidateEntries (clearDictFlag { s with phase := .busy })

@[simp] theorem dictStart_node (s : State) : (dictStart s).node = s.node := rfl

theorem valid_dictStart (s : State) (b : Byte) : (dictAt (dictStart s) b).valid = false := by
  rw [dictStart, dictAt_invalidateEntries]

theorem exec_buildDict {s : State} (hp : s.phase = .idle) (htv : s.tv = true) :
    exec .buildDict s = finish (buildDictMain { s with phase := .busy }) := by
  rw [exec_idle hp, bodyOf, buildDictBody_eq (s := { s with phase := .busy }) htv]

/-- From a root that is a node, BUILD_DICT is its walk, and DV is set when the walk completes. -/
theorem exec_buildDict_walk {s : State} (hp : s.phase = .idle) (htv : s.tv = true) (hroot : s.root ≠ Config.nil) :
    exec .buildDict s =
      finish ((walk (Config.codeLenMax + 1) s.root [] (dictStart s)).andThen fun t => .done (setDV t)) := by
  rw [exec_buildDict hp htv, buildDictMain, if_neg hroot]
  rfl

/-- The walk at a leaf stores the code that led there (R150). -/
theorem walk_leaf {i : NodeIx} {s : State} (h : (nodeAt s.node i).kind = .leaf) (d : Nat) (c : List Bool) :
    walk (d + 1) i c s = .done (setDict s (nodeAt s.node i).sym (DictEntry.ofCode c)) := by
  rw [walk, h]

/-- Settles O30: the walk ends at the root, where it stores the empty code. -/
theorem singleLeafDictionary : Obligations.SingleLeafDictionary := by
  unfold Obligations.SingleLeafDictionary
  intro s hp htv hroot hleaf
  have hentry := dictAt_setDict (dictStart s) (nodeAt s.node s.root).sym (e := DictEntry.ofCode [])
  have hsym := (hentry (nodeAt s.node s.root).sym).trans (if_pos rfl)
  refine ⟨{ s with dv := true, dict := (setDict (dictStart s) (nodeAt s.node s.root).sym (DictEntry.ofCode [])).dict },
    ?_, congrArg DictEntry.valid hsym, congrArg DictEntry.len hsym, ?_, fun b hb => ?_, rfl⟩
  · rw [exec_buildDict_walk hp htv hroot, walk_leaf (s := dictStart s) hleaf, andThen_done, finish, ← hp]
    rfl
  · exact (congrArg DictEntry.code hsym).trans (code_ofCode [] (Nat.zero_le _))
  · exact (congrArg DictEntry.valid ((hentry b).trans (if_neg hb))).trans (valid_dictStart s b)

/-! ### A missing child (R150, R241) -/

/-- Walking from the root into a dictionary without valid entries, every valid entry is the path to a leaf of its symbol. -/
theorem Walked.leafPath_code {i : NodeIx} {s t : State} (h : Walked (Config.codeLenMax + 1) i [] s t)
    (hs : ∀ b, (dictAt s b).valid = false) {b : Byte} (hb : (dictAt t b).valid = true) :
    leafPath s.node i (dictAt t b).code = some b := by
  obtain ⟨-, hentry⟩ := h
  rcases hentry b with hsame | ⟨p, hlen, hpath, hcode⟩
  · rw [hsame, hs b] at hb
    cases hb
  · rw [hcode, List.nil_append, code_ofCode p (Nat.le_of_lt_succ hlen)]
    exact hpath

/-- Settles O31: at the root the walk raises before it stores; below it, `walk_raises` says that the walk meets the node at `q` or
another that lacks a child, and what it has stored by then. -/
theorem buildDictMalformedTree : Obligations.BuildDictMalformedTree := by
  unfold Obligations.BuildDictMalformedTree
  refine ⟨fun s hp htv hroot hint hlacks => ?_, fun s q hp htv hroot hq hlacks hlen hleft => ?_⟩
  · rw [exec_buildDict_walk hp htv hroot, walk_internal (s := dictStart s) hint, dictStart_node,
      if_pos (lacksChild_eq_true.2 hlacks)]
    rfl
  · obtain ⟨t, hrun, hw⟩ := walk_raises q (Config.codeLenMax + 1) s.root [] (dictStart s) hq hlacks
      (Nat.lt_succ_of_le hlen) fun p x r hsplit hinner hboth => Nat.succ_lt_succ (hleft p x r hsplit hinner hboth)
    refine ⟨raise .malformedTree (encodeWord .buildDict) t, ?_, fun b => hw.leafPath_code (valid_dictStart s), ?_⟩
    · rw [exec_buildDict_walk hp htv hroot, hrun, andThen_raised, finish]
    · obtain ⟨hframe, -⟩ := hw
      rw [hframe]
      rfl

/-! ### The dictionary of a valid tree (R151) -/

/-- Settles O29: were one code a prefix of the other, both paths would end at the same leaf. -/
theorem codesArePrefixFree : Obligations.CodesArePrefixFree := by
  unfold Obligations.CodesArePrefixFree
  rintro s b c hdict hb hc hne ⟨q, hq⟩
  have hpath := hdict.path c hc
  rw [← hq] at hpath
  obtain ⟨-, heq⟩ := leafPath_prefix _ _ q b c (hdict.path b hb) hpath
  exact hne heq

section

variable {s : State} {b : Byte}

/-- The valid entries are as many as the leaves. -/
theorem DictOk.count_valid (h : DictOk s) (hl : LeavesOk s) :
    (symbols.filter fun b => (dictAt s b).valid).length = s.nleaf.toNat := by
  have hvalid : (symbols.filter fun b => (dictAt s b).valid) = presentSymbols s :=
    List.filter_congr fun b _ => Bool.eq_iff_iff.2 ((h.valid b).trans decide_eq_true_iff.symm)
  rw [hvalid, hl.nleaf_eq]

/-- With two leaves or more the root is Internal, so a code has at least one bit, and at most one for each Internal node. -/
theorem DictOk.len_bounds (h : DictOk s) (ht : TreeOk s) (h2 : 2 ≤ s.nleaf.toNat) (hb : (dictAt s b).valid = true) :
    1 ≤ (dictAt s b).len.toNat ∧ (dictAt s b).len.toNat ≤ s.nleaf.toNat - 1 := by
  have hpath := h.path b hb
  have hcount := ht.count
  have hroot := ht.root
  obtain ⟨-, hnodes⟩ := ht.walkOk
  obtain ⟨-, hinner⟩ := hnodes s.root ht.root_lt
  obtain ⟨hint, -⟩ := hinner (by omega)
  rw [← length_code]
  constructor
  · refine List.length_pos_of_ne_nil fun hnil => ?_
    rw [hnil, leafPath_internal_nil hint] at hpath
    cases hpath
  · have hle := leafPath_length ht.walkOk _ s.root ht.root_lt b hpath
    rw [walkDepth, if_neg (by omega)] at hle
    omega

end

/-- Settles O28: the walk completes on a valid tree; the counts and lengths are those of any dictionary of such a tree. -/
theorem buildDictResult : Obligations.BuildDictResult := by
  unfold Obligations.BuildDictResult
  intro s hp htv ht hl
  obtain ⟨u, hrun, hdict, hframe, hkept⟩ := buildDictMain_ok (s := { s with phase := .busy })
    (ht.congr rfl rfl rfl rfl) (hl.congr rfl rfl rfl rfl)
  rw [hframe] at hdict
  have hdict' : DictOk { s with dv := true, dict := u.dict } := hdict.congr rfl rfl rfl rfl
  refine ⟨{ s with dv := true, dict := u.dict }, ?_, hdict', hdict'.count_valid (hl.congr rfl rfl rfl rfl),
    fun h2 b => hdict'.len_bounds (ht.congr rfl rfl rfl rfl) h2, fun b hb => ?_, rfl⟩
  · rw [exec_buildDict hp htv, hrun, finish, hframe, ← hp]
  · refine hkept b ?_
    by_contra hbin
    exact Bool.false_ne_true (hb.symm.trans ((hdict'.valid b).2 hbin))

end Sys2Proof.Machine
end

section
/-! SUPPORT. The metadata codec (spec/43_metadata_codec.md R160 to R165): the header ENC_META writes and the leaf list behind it,
the ends of DEC_META, and that reading the header gives the table back. -/

namespace Sys2Proof.Machine

/-! ### Headers and records as bytes (R96, R97) -/

@[simp] theorem recordsImage_nil (w : Nat) : recordsImage w [] = [] := rfl

theorem length_recordsImage (w : Nat) (rs : List (Byte × Nat)) : (recordsImage w rs).length = rs.length * (w + 1) := by
  induction rs with
  | nil => simp
  | cons r rs ih =>
    rw [recordsImage, List.flatMap_cons, List.length_append, ← recordsImage, ih, List.length_cons, length_be,
      List.length_cons]
    ring

theorem recordsImage_concat (w : Nat) (rs : List (Byte × Nat)) (y : Byte) (f : Nat) :
    recordsImage w (rs ++ [(y, f)]) = recordsImage w rs ++ (y :: be f w) := by
  rw [recordsImage, List.flatMap_append, List.flatMap_singleton, ← recordsImage]

/-- The records a leaf list is written as (R97). -/
def leafRecords (nodes : Vector Node 511) (l : List NodeIx) : List (Byte × Nat) :=
  l.map fun i => ((nodeAt nodes i).sym, (nodeAt nodes i).freq.toNat)

@[simp] theorem length_leafRecords (nodes : Vector Node 511) (l : List NodeIx) : (leafRecords nodes l).length = l.length :=
  List.length_map _

/-- A header is N, W and the image of the leaves' records. -/
theorem headerBytes_eq (nodes : Vector Node 511) (l : List NodeIx) (w : Nat) :
    headerBytes nodes l w =
      BitVec.ofNat 8 l.length :: BitVec.ofNat 8 w :: recordsImage w (leafRecords nodes l) := by
  rw [headerBytes, recordsImage, leafRecords, List.flatMap_map]
  rfl

theorem length_headerBytes (nodes : Vector Node 511) (l : List NodeIx) (w : Nat) :
    (headerBytes nodes l w).length = 2 + l.length * (w + 1) := by
  rw [headerBytes_eq, List.length_cons, List.length_cons, length_recordsImage, length_leafRecords]
  omega

theorem length_leafList {s : State} (h : s.nleaf.toNat ≤ 256) : (leafList s).length = s.nleaf.toNat := by
  rw [leafList, List.length_take, Vector.length_toList]
  omega

/-! ### ENC_META (R160, R165) -/

section

variable {s : State}

/-- The W that ENC_META records: the width of the first leaf's frequency (R161). -/
def headerWidth (s : State) : Nat := fieldWidth (nodeAt s.node s.leaflist[0]).freq.toNat

/-- The header that ENC_META writes (R160). -/
def headerOf (s : State) : List Byte := headerBytes s.node (leafList s) (headerWidth s)

/-- The state after ENC_META has run its main path (R160). -/
def headerWritten (s : State) : State :=
  { s with
    hdrN := BitVec.ofNat 8 s.nleaf.toNat
    hdrW := BitVec.ofNat 8 (headerWidth s)
    out := s.out ++ headerOf s
    accesses := s.accesses ++ (headerOf s).map .write }

theorem encMetaBody_eq (h : s.tv = true) : encMetaBody s = encMetaMain s := by
  rw [encMetaBody, h, require_true]

theorem exec_encMeta (hp : s.phase = .idle) (htv : s.tv = true) :
    exec .encMeta s = finish (encMetaMain { s with phase := .busy }) := by
  rw [exec_idle hp, bodyOf, encMetaBody_eq (s := { s with phase := .busy }) htv]

theorem encMetaMain_overflow (h : 255 < s.nleaf.toNat) :
    encMetaMain s = .raised (raise .symbolCountOverflow 0x00#8 s) :=
  if_pos h

theorem encMetaMain_fits (hle : s.nleaf.toNat ≤ 255) (h0 : s.leaflist[0] ≠ Config.nil) :
    encMetaMain s = encHeader (headerWidth s) s :=
  (if_neg (Nat.not_lt.2 hle)).trans (if_neg h0)

/-- N and W are recorded, and the header of the leaf list goes out (R160, R96). -/
theorem encHeader_eq (w : Nat) (hle : s.nleaf.toNat ≤ 256) (hl : ∀ i ∈ leafList s, i ≠ Config.nil) :
    encHeader w s = .done (outWriteAll (headerBytes s.node (leafList s) w)
      { s with hdrN := BitVec.ofNat 8 s.nleaf.toNat, hdrW := BitVec.ofNat 8 w }) := by
  rw [headerBytes, length_leafList hle, outWriteAll_append]
  exact encRecords_eq w (leafList s) _ hl

theorem exec_encMeta_header (hp : s.phase = .idle) (htv : s.tv = true) (hle : s.nleaf.toNat ≤ 255)
    (h0 : s.leaflist[0] ≠ Config.nil) (hl : ∀ i ∈ leafList s, i ≠ Config.nil) :
    exec .encMeta s = .next (headerWritten s) := by
  rw [exec_encMeta hp htv, encMetaMain_fits (s := { s with phase := .busy }) hle h0,
    encHeader_eq (s := { s with phase := .busy }) _ (hle.trans (by decide)) hl, outWriteAll_eq, finish, headerWritten, ← hp]
  rfl

end

/-- Settles O33: the count is checked before anything is recorded or written. -/
theorem encMetaTooManySymbols : Obligations.EncMetaTooManySymbols := by
  unfold Obligations.EncMetaTooManySymbols
  intro s hp htv h
  rw [exec_encMeta hp htv, encMetaMain_overflow (s := { s with phase := .busy }) h]
  rfl

/-- Settles O32: the main path of the command; its bytes are N, W and one record for each leaf. -/
theorem encMetaResult : Obligations.EncMetaResult := by
  unfold Obligations.EncMetaResult
  intro s hp htv hle h0 hl
  refine ⟨headerWidth s, headerOf s, rfl, rfl, ?_, exec_encMeta_header hp htv hle h0 hl⟩
  rw [headerOf, length_headerBytes, length_leafList (by omega)]

/-! ### The leaf list of a tree of FREQ (R134, R161) -/

section

variable {s : State}

/-- With a leaf there is a first entry, and it is entry 0 of LEAFLIST. -/
theorem exists_leafList_eq_cons (h : 1 ≤ s.nleaf.toNat) : ∃ l, leafList s = s.leaflist[0] :: l := by
  have h0 : 0 < s.leaflist.toList.length := by simp
  obtain ⟨k, hk⟩ := Nat.exists_eq_add_of_le' h
  refine ⟨(s.leaflist.toList.drop 1).take k, ?_⟩
  conv_lhs =>
    rw [leafList, hk, ← List.drop_zero (l := s.leaflist.toList), List.drop_eq_getElem_cons h0, List.take_succ_cons]
  rfl

theorem LeavesOk.leaf_lt (h : LeavesOk s) {i : NodeIx} (hi : i ∈ leafList s) : i.toNat < s.nleaf.toNat :=
  List.mem_range.1 (h.listed.mem_iff.1 (List.mem_map_of_mem hi))

theorem LeavesOk.ne_nil (h : LeavesOk s) (hle : s.nleaf.toNat ≤ 255) {i : NodeIx} (hi : i ∈ leafList s) :
    i ≠ Config.nil :=
  ne_nil_of_lt (by have := h.leaf_lt hi; omega)

/-- The first leaf has the greatest frequency (R161). -/
theorem LeavesOk.freq_le_first (h : LeavesOk s) (hpos : 1 ≤ s.nleaf.toNat) {i : NodeIx} (hi : i ∈ leafList s) :
    (nodeAt s.node i).freq.toNat ≤ (nodeAt s.node s.leaflist[0]).freq.toNat := by
  have hsorted := h.sorted
  obtain ⟨l, hl⟩ := exists_leafList_eq_cons hpos
  rw [hl] at hi hsorted
  rcases List.mem_cons.1 hi with rfl | hi
  · exact Nat.le_refl _
  · rcases List.rel_of_pairwise_cons hsorted hi with hlt | ⟨heq, -⟩
    · exact Nat.le_of_lt hlt
    · rw [heq]

theorem LeavesOk.freq_lt_headerWidth (h : LeavesOk s) (hpos : 1 ≤ s.nleaf.toNat) {i : NodeIx} (hi : i ∈ leafList s) :
    (nodeAt s.node i).freq.toNat < 256 ^ headerWidth s :=
  (h.freq_le_first hpos hi).trans_lt (lt_fieldWidth _)

theorem one_le_headerWidth (s : State) : 1 ≤ headerWidth s := one_le_fieldWidth _

theorem headerWidth_le_eight (s : State) : headerWidth s ≤ 8 := fieldWidth_le_eight (BitVec.isLt _)

/-- W fits its register. -/
theorem toNat_ofNat_headerWidth (s : State) : (BitVec.ofNat 8 (headerWidth s)).toNat = headerWidth s := by
  have := headerWidth_le_eight s
  rw [BitVec.toNat_ofNat]
  omega

/-- On a tree of FREQ with at most 255 leaves ENC_META takes its main path. -/
theorem exec_encMeta_tree (hp : s.phase = .idle) (htv : s.tv = true) (ht : TreeOk s) (hl : LeavesOk s)
    (hle : s.nleaf.toNat ≤ 255) :
    exec .encMeta s = .next (headerWritten s) := by
  obtain ⟨l, hcons⟩ := exists_leafList_eq_cons ht.leaves_pos
  exact exec_encMeta_header hp htv hle (hl.ne_nil hle (hcons ▸ List.mem_cons_self)) fun i => hl.ne_nil hle

end

/-- Settles O34: W is the least width of the first leaf's frequency, which is the greatest. -/
theorem headerWidthIsLeast : Obligations.HeaderWidthIsLeast := by
  unfold Obligations.HeaderWidthIsLeast
  intro s t hp htv ht hl hle h
  rw [exec_encMeta_tree hp htv ht hl hle] at h
  obtain rfl := Host.Outcome.next.inj h
  obtain ⟨l, hcons⟩ := exists_leafList_eq_cons ht.leaves_pos
  have hfirst : s.leaflist[0] ∈ leafList s := hcons ▸ List.mem_cons_self
  rw [headerWritten, toNat_ofNat_headerWidth]
  exact ⟨one_le_headerWidth s, headerWidth_le_eight s, fun i => hl.freq_lt_headerWidth ht.leaves_pos,
    fun w hw hfit => (fieldWidth_le_iff _ w).2 ⟨hw, hfit _ hfirst⟩⟩

/-! ### DEC_META: what is read (R162) -/

/-- A bin of the table of records is that of the first record of its symbol. -/
theorem getElem_recordsTable (rs : List (Byte × Nat)) (b : Byte) : (recordsTable rs)[b.toNat]'(b.isLt) =
    BitVec.ofNat 64 (((rs.find? fun r => r.1 == b).map Prod.snd).getD 0) := by
  simp [recordsTable]

theorem recordsTable_nil : recordsTable [] = Vector.replicate 256 0#64 :=
  freq_ext fun b => by rw [getElem_recordsTable, Vector.getElem_replicate]; rfl

theorem tookBytes_inp (l : List Byte) (s : State) : (tookBytes l s).inp = ⟨s.inp.data, s.inp.pos + l.length⟩ := by
  rw [tookBytes_eq]

/-- The state after DEC_META, started in `s`, has read N, W and the good records `rs`. -/
def recordsRead (n w : Byte) (rs : List (Byte × Nat)) (s : State) : State :=
  { s with
    fv := false
    tv := false
    dv := false
    freq := recordsTable rs
    hdrN := n
    hdrW := w
    inp := ⟨s.inp.data, s.inp.pos + 2 + rs.length * (w.toNat + 1)⟩
    accesses := s.accesses ++ (n :: w :: recordsImage w.toNat rs).map .read }

section

variable {s : State} {n w : Byte} {rs : List (Byte × Nat)} {r : List Byte}

theorem recordsRead_inp (n w : Byte) (rs : List (Byte × Nat)) (s : State) :
    (recordsRead n w rs s).inp = (tookBytes (n :: w :: recordsImage w.toNat rs) s).inp := by
  rw [tookBytes_inp, List.length_cons, List.length_cons, length_recordsImage, Nat.add_comm _ 2, ← Nat.add_assoc]
  rfl

theorem rest_recordsRead (h : s.inp.rest = n :: w :: (recordsImage w.toNat rs ++ r)) :
    (recordsRead n w rs s).inp.rest = r := by
  rw [recordsRead_inp]
  exact rest_tookBytes _ r s h

/-- Before the first record FREQ is empty. -/
theorem recordsRead_nil (n w : Byte) (s : State) :
    recordsRead n w [] s = { tookBytes [n, w] (clearFreq (clearFlags s)) with hdrN := n, hdrW := w } := by
  rw [recordsRead, recordsTable_nil, List.length_nil, Nat.zero_mul, tookBytes_eq]
  rfl

theorem freqAt_recordsRead_nil (n w : Byte) (s : State) (b : Byte) : freqAt (recordsRead n w [] s) b = 0#64 := by
  rw [recordsRead_nil]
  exact freqAt_clearFreq (clearFlags s) b

/-- Reading good records and storing them gives their table. -/
theorem storeAll_recordsRead (hok : RecordsOk w.toNat rs) :
    storeAll rs (tookBytes (recordsImage w.toNat rs) (recordsRead n w [] s)) = recordsRead n w rs s := by
  obtain ⟨hnodup, -⟩ := hok
  rw [storeAll_frame, storeAll_freq hnodup, tookBytes_eq]
  · simp [recordsRead, length_recordsImage]
  · rw [tookBytes_eq]
    exact freqAt_recordsRead_nil n w s

end

/-! ### DEC_META: the two header bytes (R162, R163 (a), (d)) -/

section

variable {s : State} {n w : Byte} {rs : List (Byte × Nat)} {r : List Byte}

theorem exec_decMeta (hp : s.phase = .idle) : exec .decMeta s = finish (decMetaBody { s with phase := .busy }) :=
  exec_idle hp .decMeta

/-- IN ends before both header bytes are there. -/
theorem decMetaBody_short (h : s.inp.rest.length < 2) :
    decMetaBody s = .raised (raise .truncatedStream 0x06#8 (tookBytes s.inp.rest (clearFreq (clearFlags s)))) := by
  have hrest : (clearFreq (clearFlags s)).inp.rest = s.inp.rest := rfl
  rw [decMetaBody]
  match hr : s.inp.rest, h with
  | [], _ => rw [readHeaderByte_eof (hrest.trans hr), tookBytes_nil]
  | [b], _ =>
    rw [readHeaderByte_byte (hrest.trans hr), readHeaderByte_eof (rest_tookByte (hrest.trans hr)), tookBytes_cons,
      tookBytes_nil]

/-- Both header bytes are there. -/
theorem decMetaBody_header {x : List Byte} (h : s.inp.rest = n :: w :: x) :
    decMetaBody s = decHeader n w (tookBytes [n, w] (clearFreq (clearFlags s))) := by
  have h1 : (clearFreq (clearFlags s)).inp.rest = n :: w :: x := h
  rw [decMetaBody, readHeaderByte_byte h1, readHeaderByte_byte (rest_tookByte h1)]
  rfl

theorem decMetaBody_badWidth {x : List Byte} (h : s.inp.rest = n :: w :: x) (hw : w.toNat = 0 ∨ 8 < w.toNat) :
    decMetaBody s = .raised (raise .badHeader 1#8 (recordsRead n w [] s)) := by
  rw [decMetaBody_header h, recordsRead_nil]
  exact if_pos (hw.imp_left Nat.lt_one_iff.2)

theorem decMetaBody_goodWidth {x : List Byte} (h : s.inp.rest = n :: w :: x) (h1 : 1 ≤ w.toNat) (h8 : w.toNat ≤ 8) :
    decMetaBody s =
      (decRecords w.toNat n.toNat (recordsRead n w [] s)).andThen fun t => .done (setFV t) := by
  rw [decMetaBody_header h, recordsRead_nil]
  exact if_neg (not_or.2 ⟨Nat.not_lt.2 h1, Nat.not_lt.2 h8⟩)

/-! ### DEC_META: the records (R162, R163 (b) to (d)) -/

/-- After good records DEC_META goes on with those that are left. -/
theorem decMetaBody_records {k : Nat} (h : s.inp.rest = n :: w :: (recordsImage w.toNat rs ++ r)) (h1 : 1 ≤ w.toNat)
    (h8 : w.toNat ≤ 8) (hok : RecordsOk w.toNat rs) (hn : n.toNat = rs.length + k) :
    decMetaBody s = (decRecords w.toNat k (recordsRead n w rs s)).andThen fun t => .done (setFV t) := by
  rw [decMetaBody_goodWidth h h1 h8, hn,
    decRecords_ok rs _ r k hok (fun _ _ => freqAt_recordsRead_nil n w s _) (rest_recordsRead h), storeAll_recordsRead hok]

/-- DEC_META from IDLE, after good records. -/
theorem exec_decMeta_records {k : Nat} (hp : s.phase = .idle)
    (h : s.inp.rest = n :: w :: (recordsImage w.toNat rs ++ r)) (h1 : 1 ≤ w.toNat) (h8 : w.toNat ≤ 8)
    (hok : RecordsOk w.toNat rs) (hn : n.toNat = rs.length + k) :
    exec .decMeta s =
      finish ((decRecords w.toNat k (recordsRead n w rs { s with phase := .busy })).andThen fun t => .done (setFV t)) := by
  rw [exec_decMeta hp, decMetaBody_records (s := { s with phase := .busy }) h h1 h8 hok hn]

/-- A record with either defect raises, the zero frequency before the repeated symbol (R163 (b), (c)). -/
theorem storeRecord_bad {y : Byte} {f : Nat} (h : f = 0 ∨ freqAt s y ≠ 0#64) :
    storeRecord y f s = .raised (raise .badHeader (if f = 0 then 3#8 else 2#8) s) := by
  by_cases h0 : f = 0
  · rw [storeRecord, if_pos h0, if_pos h0]
  · rw [storeRecord, if_neg h0, if_pos (h.resolve_left h0), if_neg h0]

/-- A bad record is read whole before it raises (R163 (b), (c)). -/
theorem decRecords_bad {w k f : Nat} {y : Byte} (hf : f < 256 ^ w) (h : s.inp.rest = (y :: be f w) ++ r)
    (hbad : f = 0 ∨ freqAt s y ≠ 0#64) :
    decRecords w (k + 1) s =
      .raised (raise .badHeader (if f = 0 then 3#8 else 2#8) (tookBytes (y :: be f w) s)) := by
  have hsame : freqAt (tookBytes (y :: be f w) s) y = freqAt s y := freqAt_congr (by rw [tookBytes_eq]) y
  rw [decRecords_step hf h, storeRecord_bad (by rwa [hsame]), andThen_raised]

/-- A symbol of good records has a bin that is not 0: its frequency is not, and fits 64 bits. -/
theorem recordsTable_ne_zero {w : Nat} {y : Byte} (hok : RecordsOk w rs) (h8 : w ≤ 8) (hy : y ∈ rs.map Prod.fst) :
    (recordsTable rs)[y.toNat]'(y.isLt) ≠ 0#64 := by
  obtain ⟨hnodup, hfreq⟩ := hok
  obtain ⟨q, hq, rfl⟩ := List.mem_map.1 hy
  obtain ⟨hne, hlt⟩ := hfreq q hq
  have hfit : q.2 < 2 ^ 64 := hlt.trans_le (Nat.pow_le_pow_right (by decide) h8)
  rw [getElem_recordsTable, find_record rs hnodup q hq]
  intro h0
  have := congrArg BitVec.toNat h0
  rw [Option.map_some, Option.getD_some, BitVec.toNat_ofNat, Nat.mod_eq_of_lt hfit] at this
  exact hne this

/-- IN ends inside the next record (R163 (d)). -/
theorem decRecords_truncated {w k : Nat} (h : s.inp.rest.length ≤ w) :
    decRecords w (k + 1) s = .raised (raise .truncatedStream 0x06#8 (tookBytes s.inp.rest s)) := by
  rw [decRecords]
  match hr : s.inp.rest, h with
  | [], _ => rw [readHeaderByte_eof hr, andThen_raised, tookBytes_nil]
  | b :: l, h =>
    rw [readHeaderByte_byte hr, readFreq_truncated l w 0 _ _ (rest_tookByte hr) h, andThen_raised, tookBytes_cons]

end

/-- Settles O35: no record is left after the good ones, so FV is set. -/
theorem decMetaResult : Obligations.DecMetaResult := by
  unfold Obligations.DecMetaResult
  intro s n w rs r hp h hn h1 h8 hok
  rw [exec_decMeta_records (k := 0) hp h h1 h8 hok hn.symm, decRecords, andThen_done, finish, ← hn, ← hp]
  rfl

/-- Settles O36: the width is checked on the second byte, a record when it has been read whole. -/
theorem decMetaBadHeaders : Obligations.DecMetaBadHeaders := by
  unfold Obligations.DecMetaBadHeaders
  refine fun s n w x hp h => ⟨fun hw => ?_, fun rs y f r h1 h8 hok hlt hf hx hbad => ?_⟩
  · refine ⟨raise .badHeader 1#8 (recordsRead n w [] { s with phase := .busy }), ?_,
      rfl, rfl, rfl, rfl, rfl, rfl, rfl, ?_⟩
    · rw [exec_decMeta hp, decMetaBody_badWidth (s := { s with phase := .busy }) h hw, finish]
    · simp [recordsRead]
  · obtain ⟨k, hk⟩ := Nat.exists_eq_add_of_lt hlt
    rw [hx, recordsImage_concat, List.append_assoc] at h
    have hrest : (recordsRead n w rs { s with phase := .busy }).inp.rest = (y :: be f w.toNat) ++ r := rest_recordsRead h
    have hpos : s.inp.pos + 2 + rs.length * (w.toNat + 1) + (y :: be f w.toNat).length =
        s.inp.pos + 2 + (rs.length + 1) * (w.toNat + 1) := by
      rw [List.length_cons, length_be]
      ring
    refine ⟨raise .badHeader (if f = 0 then 3#8 else 2#8)
      (tookBytes (y :: be f w.toNat) (recordsRead n w rs { s with phase := .busy })), ?_, ?_⟩
    · rw [exec_decMeta_records (k := k + 1) hp h h1 h8 hok hk, decRecords_bad hf hrest
        (hbad.imp_right fun hy => recordsTable_ne_zero hok h8 hy), andThen_raised, finish]
    · rw [tookBytes_eq]
      exact ⟨rfl, rfl, rfl, rfl, rfl, rfl, rfl, hpos⟩

/-- Settles O37: the missing byte is a header byte or one of the next record, and all before it is read. -/
theorem decMetaTruncated : Obligations.DecMetaTruncated := by
  unfold Obligations.DecMetaTruncated
  refine fun s hp => ⟨fun h => ?_, fun n w rs p h1 h8 hok hlt hle h => ?_⟩
  · refine ⟨raise .truncatedStream 0x06#8
      (tookBytes s.inp.rest (clearFreq (clearFlags { s with phase := .busy }))), ?_, ?_⟩
    · rw [exec_decMeta hp, decMetaBody_short (s := { s with phase := .busy }) h, finish]
    · rw [tookBytes_eq, recordsTable_nil]
      exact ⟨rfl, rfl, rfl, rfl, rfl, rfl, rfl, rfl⟩
  · obtain ⟨k, hk⟩ := Nat.exists_eq_add_of_lt hlt
    have hrest : (recordsRead n w rs { s with phase := .busy }).inp.rest = p := rest_recordsRead h
    have hpos : s.inp.pos + 2 + rs.length * (w.toNat + 1) + p.length = s.inp.pos + s.inp.rest.length := by
      rw [h, List.length_cons, List.length_cons, List.length_append, length_recordsImage]
      ring
    refine ⟨raise .truncatedStream 0x06#8 (tookBytes p (recordsRead n w rs { s with phase := .busy })), ?_, ?_⟩
    · rw [exec_decMeta_records (k := k + 1) hp h h1 h8 hok hk, decRecords_truncated (by rwa [hrest]), hrest,
        andThen_raised, finish]
    · rw [tookBytes_eq]
      exact ⟨rfl, rfl, rfl, rfl, rfl, rfl, rfl, hpos⟩

/-! ### The round trip (R164) -/

/-- Records that name every bin that is not 0, with what it holds, have the table they name. -/
theorem recordsTable_eq_freq {rs : List (Byte × Nat)} {s : State}
    (hall : ∀ b, freqAt s b ≠ 0#64 → b ∈ rs.map Prod.fst) (hfreq : ∀ r ∈ rs, r.2 = (freqAt s r.1).toNat) :
    recordsTable rs = s.freq := by
  refine freq_ext fun b => ?_
  rw [getElem_recordsTable]
  cases hfind : rs.find? fun r => r.1 == b with
  | some r =>
    obtain rfl : r.1 = b := eq_of_beq (List.find?_some hfind :)
    rw [Option.map_some, Option.getD_some, hfreq r (List.mem_of_find?_eq_some hfind), BitVec.ofNat_toNat]
    exact BitVec.setWidth_eq _
  | none =>
    have hzero : freqAt s b = 0#64 := by
      by_contra hb
      obtain ⟨r, hr, rfl⟩ := List.mem_map.1 (hall b hb)
      exact List.find?_eq_none.1 hfind r hr (beq_self_eq_true _)
    exact hzero.symm

section

variable {s : State}

/-- The records of the leaf list are the bins that are not 0, in another order (R134). -/
theorem LeavesOk.records_perm (h : LeavesOk s) :
    (leafRecords s.node (leafList s)).Perm ((presentSymbols s).map fun b => (b, (freqAt s b).toNat)) := by
  have hrec : leafRecords s.node (leafList s) =
      ((leafList s).map BitVec.toNat).map fun i => ((nodeN s i).sym, (nodeN s i).freq.toNat) := by
    rw [List.map_map, leafRecords]
    refine List.map_congr_left fun i _ => ?_
    simp [nodeN]
  have hbins := congrArg (List.map (Prod.map id BitVec.toNat)) h.ofFreq
  rw [List.map_map, List.map_map] at hbins
  rw [hrec]
  exact (h.listed.map _).trans (.of_eq hbins)

theorem LeavesOk.mem_records (h : LeavesOk s) {r : Byte × Nat} :
    r ∈ leafRecords s.node (leafList s) ↔ freqAt s r.1 ≠ 0#64 ∧ r.2 = (freqAt s r.1).toNat := by
  rw [h.records_perm.mem_iff, List.mem_map]
  constructor
  · rintro ⟨b, hb, rfl⟩
    exact ⟨by simpa [presentSymbols] using (List.mem_filter.1 hb).2, rfl⟩
  · rintro ⟨hne, hfreq⟩
    exact ⟨r.1, List.mem_filter.2 ⟨mem_symbols _, by simpa using hne⟩, Prod.ext rfl hfreq.symm⟩

/-- DEC_META accepts the records that ENC_META writes. -/
theorem LeavesOk.recordsOk (h : LeavesOk s) (hpos : 1 ≤ s.nleaf.toNat) :
    RecordsOk (headerWidth s) (leafRecords s.node (leafList s)) := by
  refine ⟨?_, fun r hr => ⟨?_, ?_⟩⟩
  · rw [(h.records_perm.map Prod.fst).nodup_iff, List.map_map]
    exact (List.map_id _).symm ▸ symbols_nodup.filter _
  · obtain ⟨hne, hfreq⟩ := h.mem_records.1 hr
    rw [hfreq]
    exact fun h0 => hne (BitVec.eq_of_toNat_eq h0)
  · obtain ⟨i, hi, rfl⟩ := List.mem_map.1 hr
    exact h.freq_lt_headerWidth hpos hi

/-- The table of those records is FREQ. -/
theorem LeavesOk.recordsTable_eq (h : LeavesOk s) : recordsTable (leafRecords s.node (leafList s)) = s.freq :=
  recordsTable_eq_freq (fun b hb => List.mem_map.2 ⟨(b, (freqAt s b).toNat), h.mem_records.2 ⟨hb, rfl⟩, rfl⟩)
    fun _ hr => (h.mem_records.1 hr).2

end

/-- Settles O38: ENC_META writes good records whose table is FREQ, and DEC_META reads good records into their table. -/
theorem metadataRoundTrip : Obligations.MetadataRoundTrip := by
  unfold Obligations.MetadataRoundTrip
  intro s t u h x hp htv ht hl hle henc hout hpu hin
  rw [exec_encMeta_tree hp htv ht hl hle] at henc
  obtain rfl := Host.Outcome.next.inj henc
  obtain rfl : headerOf s = h := List.append_cancel_left hout
  have hlen : (leafList s).length = s.nleaf.toNat := length_leafList (by omega)
  have hN : (BitVec.ofNat 8 s.nleaf.toNat).toNat = s.nleaf.toNat := by rw [BitVec.toNat_ofNat]; omega
  have hW := toNat_ofNat_headerWidth s
  have hrest : u.inp.rest = BitVec.ofNat 8 s.nleaf.toNat :: BitVec.ofNat 8 (headerWidth s) ::
      (recordsImage (BitVec.ofNat 8 (headerWidth s)).toNat (leafRecords s.node (leafList s)) ++ x) := by
    rw [hin, hW, headerOf, headerBytes_eq, hlen]
    rfl
  refine ⟨_, decMetaResult u _ _ _ x hpu hrest (by rw [hN, length_leafRecords, hlen]) ?_ ?_ ?_, hpu, rfl,
    hl.recordsTable_eq, rfl, rfl, ?_⟩
  · rw [hW]; exact one_le_headerWidth s
  · rw [hW]; exact headerWidth_le_eight s
  · rw [hW]; exact hl.recordsOk ht.leaves_pos
  · rw [hin, hN, hW, headerOf, length_headerBytes, hlen, Nat.zero_add]

end Sys2Proof.Machine
end

section
/-! SUPPORT. PACK (spec/44_packer.md R180 to R188): what Append and the two flushes leave in the buffer, how much a chunk
can put there, and the two ends of the command, at EOF and at a symbol without a code. -/

namespace Sys2Proof.Machine

/-! ### Append and the flushes (R181 to R184) -/

/-- A buffer holds as many bits as BITLEN says. -/
theorem BufOk.length_validBits {s : State} (h : BufOk s) : (validBits s).length = s.bitlen := by
  obtain ⟨hbitlen, -⟩ := h.has
  exact hbitlen.symm

/-- Settles O39: the bits are the old ones and the code, and a buffer is the packed form of its bits. -/
theorem appendLaw : Obligations.AppendLaw := by
  unfold Obligations.AppendLaw
  intro s c hs
  have happ := appendCode_bufHas hs.has c
  have ⟨hbitlen, hbuf⟩ := happ
  exact ⟨_, rfl, by rw [hbitlen, List.length_append, hs.length_validBits], hbuf, happ.bufOk.length, happ.validBits,
    appendCode_frame c s⟩

/-- Whole bytes' worth of bits need no pad. -/
theorem bits_pack_aligned {b : List Bool} (h : b.length % 8 = 0) : bits (pack b) = b := by
  have hpad : 8 * ceil8 b.length - b.length = 0 := by rw [ceil8]; omega
  rw [bits_pack, hpad, List.replicate_zero, List.append_nil]

/-- The bytes that FlushComplete writes hold the front of the valid bits, and the buffer keeps the rest (R183). -/
theorem validBits_flushComplete {s : State} (h : BufOk s) :
    validBits s = bits (s.buf.take (s.bitlen / 8)) ++ validBits (flushComplete s) := by
  obtain ⟨hout, hkept⟩ := flushComplete_bufHas h.has
  have hwritten : s.buf.take (s.bitlen / 8) = pack ((validBits s).take (8 * ((validBits s).length / 8))) := by
    rw [flushComplete_eq] at hout
    exact List.append_cancel_left hout
  have haligned : ((validBits s).take (8 * ((validBits s).length / 8))).length % 8 = 0 := by
    rw [List.length_take]
    omega
  rw [hwritten, hkept.validBits, bits_pack_aligned haligned, List.take_append_drop]

theorem ceil8_of_le_seven {n : Nat} (h : n ≤ 7) : ceil8 n = if n = 0 then 0 else 1 := by
  rw [ceil8]
  split <;> omega

/-- Settles O40: the flush cuts the bits behind the last complete byte, so fewer than 8 are left. -/
theorem flushCompleteKeepsCarry : Obligations.FlushCompleteKeepsCarry := by
  unfold Obligations.FlushCompleteKeepsCarry
  intro s hs
  have hok := bufOk_flushComplete hs
  have hframe := flushComplete_eq s
  have hbitlen : (flushComplete s).bitlen = s.bitlen % 8 := by rw [hframe]
  have hcarry : (flushComplete s).bitlen ≤ 7 := by omega
  exact ⟨_, rfl, by rw [hframe], by rw [hframe], hbitlen, hcarry, hok.length.trans (ceil8_of_le_seven hcarry),
    validBits_flushComplete hs, hok⟩

/-- Settles O41: at most 7 bits pack into one byte, which is the buffer's, or into none. -/
theorem flushFinalPadsWithZeros : Obligations.FlushFinalPadsWithZeros := by
  unfold Obligations.FlushFinalPadsWithZeros
  intro s hs h7
  obtain ⟨hbitlen, hbuf⟩ := hs.has
  have hlen : (pack (validBits s)).length = if s.bitlen = 0 then 0 else 1 := by
    rw [length_pack, ← hbitlen, ceil8_of_le_seven h7]
  have hflush := flushFinal_bufHas hs.has (by omega)
  refine ⟨_, rfl, by rw [hflush], by rw [hflush], by rw [hflush], fun h0 => ?_, fun hpos => ?_⟩
  · rw [if_pos h0] at hlen
    rw [hflush, List.eq_nil_of_length_eq_zero hlen]
    exact List.append_nil _
  · rw [if_neg hpos.ne'] at hlen
    rw [hflush, hbuf, List.take_of_length_le hlen.le]

/-! ### How full the buffer gets (R188) -/

theorem bitlen_appendCode (c : List Bool) (s : State) : (appendCode c s).bitlen = s.bitlen + c.length := by
  rw [appendCode]
  split
  · next h0 => rw [h0, Nat.add_zero]
  · split <;> rfl

/-- One symbol adds at most the 255 bits a dictionary entry can hold. -/
theorem bitlen_packSymbol (s : State) : (packSymbol s).All fun t => t.bitlen ≤ s.bitlen + 255 := by
  rcases inRead_cases s with ⟨hr, -⟩ | ⟨b, l, hr, -⟩
  · rw [packSymbol_eof hr]
    exact Nat.le_add_right _ _
  · cases hb : (dictAt s b).valid with
    | true =>
      have hcode : (dictAt s b).code.length ≤ 255 := by
        rw [length_code]
        exact Nat.le_of_lt_succ (dictAt s b).len.isLt
      rw [packSymbol_valid hr hb, Iter.All_again, bitlen_appendCode]
      exact Nat.add_le_add_left hcode _
    | false =>
      rw [packSymbol_miss hr hb]
      exact Nat.le_add_right _ _

theorem bitlen_packChunk (k : Nat) : ∀ (s : State) (n : Nat), s.bitlen ≤ n →
    (packChunk k s).All fun t => t.bitlen ≤ n + 255 * k := by
  induction k with
  | zero => exact fun s n hs => hs
  | succ k ih =>
    intro s n hs
    have hsucc : n + 255 * (k + 1) = n + 255 + 255 * k := by ring
    have h := bitlen_packSymbol s
    have hone {t : State} (ht : t.bitlen ≤ s.bitlen + 255) : t.bitlen ≤ n + 255 :=
      ht.trans (Nat.add_le_add_right hs _)
    rw [packChunk, hsucc]
    cases hsym : packSymbol s with
    | again t => rw [hsym] at h; exact ih t _ (hone h)
    | exit t => rw [hsym] at h; exact Nat.le_add_right_of_le (hone h)
    | raised t => rw [hsym] at h; exact Nat.le_add_right_of_le (hone h)
    | stuck f => trivial

theorem ceil8_mono {m n : Nat} (h : m ≤ n) : ceil8 m ≤ ceil8 n := Nat.div_le_div_right (Nat.add_le_add_right h 7)

/-- A property of every state a pass may end in, at the three ends by name. -/
theorem Iter.All.of_end {P : State → Prop} {i : Iter} {t : State} (h : i.All P)
    (ht : i = .again t ∨ i = .exit t ∨ i = .raised t) : P t := by
  rcases ht with rfl | rfl | rfl <;> exact h

/-- Settles O44: a chunk keeps the buffer well formed and adds at most 255 bits per symbol; BITLEN gives the bytes. -/
theorem packBufferIsBounded : Obligations.PackBufferIsBounded := by
  unfold Obligations.PackBufferIsBounded
  intro k s t hs h7 ht
  have hok := (bufOk_packChunk k s hs).of_end ht
  have hbits := (bitlen_packChunk k s 7 h7).of_end ht
  exact ⟨hok, hbits, hok.length.le.trans (ceil8_mono hbits)⟩

/-! ### PACK from IDLE (R222, R223) -/

section

variable {s t : State} {chunk : Nat}

theorem accept_packBody (hp : s.phase = .idle) (hdv : s.dv = true) :
    accept (packBody chunk) s = finish (packMain chunk { s with phase := .busy }) := by
  rw [accept_idle hp, packBody, hdv, require_true]

/-- PACK is its pseudocode at the configuration's CHUNK (R11). -/
theorem exec_pack_of_accept (h : accept (packBody chunk) s = .next t) (hc : chunk = Config.chunk) :
    exec .pack s = .next t := by
  rw [exec_eq_accept (by simp), ← h, hc]
  rfl

theorem streamsMovedBy_accept_packBody (h : accept (packBody chunk) s = .next t) : ∃ as, StreamsMovedBy as s t := by
  obtain ⟨-, hstreams⟩ :=
    keeps_accept (i := .pack) (by simp) (by simp) (fun u r hr => hr ▸ keeps_packBody chunk u) h
  exact hstreams

/-- A block that moved IN to its end has read what was left, once and in order (R61). -/
theorem StreamsMovedBy.readBytes_eq_rest {as : List StreamAccess} (h : StreamsMovedBy as s t)
    (hpos : t.inp.pos = s.inp.pos + s.inp.rest.length) :
    readBytes (t.accesses.drop s.accesses.length) = s.inp.rest := by
  obtain ⟨haccesses, -, hnext, hmoved, -⟩ := h
  rw [haccesses, List.drop_left]
  exact hnext.eq_of_length (by omega)

end

/-- Settles O42: with a code for every byte the main path completes at the end of IN, and its reads are those that moved
IN there. -/
theorem packResult : Obligations.PackResult := by
  unfold Obligations.PackResult
  refine ⟨Nat.le_add_left _ _, fun chunk s hc hp hdv hvalid => ?_⟩
  obtain ⟨u, hrun, hframe⟩ := packMain_valid hc (s := { s with phase := .busy }) hvalid
  have hacc : accept (packBody chunk) s = .next { u with phase := .idle } := by
    rw [accept_packBody hp hdv, hrun, finish]
  obtain ⟨as, hstreams⟩ := streamsMovedBy_accept_packBody hacc
  refine ⟨_, hacc, exec_pack_of_accept hacc, hstreams.readBytes_eq_rest ?_, ?_⟩
  · rw [hframe]
  · rw [hframe, ← hp]
    rfl

/-! ### A symbol without a code (R187) -/

/-- Whole bytes followed by fewer than 8 bits are the complete bytes of the joined bits. -/
theorem eq_take_pack {x : List Byte} {w u : List Bool} (h : bits x ++ w = u) (hw : w.length < 8) :
    x = (pack u).take (u.length / 8) := by
  have hlen : x.length = u.length / 8 := by
    rw [← h, List.length_append, length_bits]
    omega
  rw [← hlen, ← h, pack_bits_append, List.take_left]

section

variable {s t : State} {a r : List Byte} {b : Byte} {chunk : Nat}

/-- What whole chunks leave, packed from an empty buffer: the complete bytes of their codes in OUT. -/
theorem ChunksTo.frame (h : ChunksTo s a [] t) : t = { s with
    buf := t.buf
    bitlen := t.bitlen
    inp := ⟨s.inp.data, s.inp.pos + a.length⟩
    out := s.out ++ (pack (codesOf s a)).take ((codesOf s a).length / 8)
    accesses := t.accesses } := by
  obtain ⟨x, w, hbits, hw, -, hframe⟩ := h
  rw [List.nil_append] at hbits
  rwa [← eq_take_pack hbits hw]

/-- PACK takes whole chunks `a`, then meets `b` in the chunk that starts with `c`. -/
theorem packMain_miss {c : List Byte} {q : Nat} (h : s.inp.rest = a ++ (c ++ b :: r))
    (ha : ∀ x ∈ a, (dictAt s x).valid = true) (hc : ∀ x ∈ c, (dictAt s x).valid = true)
    (hb : (dictAt s b).valid = false) (hq : a.length = q * chunk) (hlt : c.length < chunk) :
    ∃ t, packMain chunk s = .raised (raise .dictMiss b (tookByte b t)) ∧ t = { s with
      buf := t.buf
      bitlen := t.bitlen
      inp := ⟨s.inp.data, s.inp.pos + (a ++ c).length⟩
      out := s.out ++ (pack (codesOf s a)).take ((codesOf s a).length / 8)
      accesses := t.accesses } := by
  have hpasses : q ≤ s.inp.left := by
    rw [left_eq_length_rest, h, List.length_append, hq]
    exact Nat.le_add_right_of_le (Nat.le_mul_of_pos_right q (Nat.zero_lt_of_lt hlt))
  obtain ⟨n, hn⟩ := Nat.exists_eq_add_of_le hpasses
  obtain ⟨u, hu, hrest, hloop⟩ := loop_packPass_full chunk q { s with buf := [], bitlen := 0 } [] a (c ++ b :: r)
    (n + 1) h ha ⟨rfl, rfl⟩ (by simp) hq
  have hframe := hu.frame
  obtain ⟨-, w, -, -, hw, -⟩ := hu
  have hdict : ∀ x, dictAt u x = dictAt s x := dictAt_congr (by rw [hframe])
  obtain ⟨t, ⟨-, ht⟩, hpass⟩ :=
    packPass_miss hrest (fun x hx => (hdict x).symm ▸ hc x hx) ((hdict b).symm ▸ hb) hlt hw
  refine ⟨t, ?_, ?_⟩
  · rw [packMain, hn, Nat.add_assoc, hloop, loop_of_raised hpass, andThen_raised]
  · rw [ht, hframe, List.length_append, ← Nat.add_assoc]
    rfl

end

/-- Settles O43: the symbols before the miss are whole chunks, which were flushed, and less than a chunk, which was not. -/
theorem packDictMissFaults : Obligations.PackDictMissFaults := by
  unfold Obligations.PackDictMissFaults
  intro chunk s a r b hc hp hdv h ha hb
  have hsplit := List.take_append_drop (a.length / chunk * chunk) a
  have hwhole : (a.take (a.length / chunk * chunk)).length = a.length / chunk * chunk :=
    List.length_take_of_le (Nat.div_mul_le_self _ _)
  have hshort : (a.drop (a.length / chunk * chunk)).length < chunk := by
    rw [List.length_drop, ← Nat.mod_eq_sub_div_mul]
    exact Nat.mod_lt _ hc
  have hrest : s.inp.rest =
      a.take (a.length / chunk * chunk) ++ (a.drop (a.length / chunk * chunk) ++ b :: r) := by
    rw [← List.append_assoc, hsplit, h]
  obtain ⟨t, hrun, hframe⟩ := packMain_miss (s := { s with phase := .busy }) hrest
    (fun x hx => ha x (List.mem_of_mem_take hx)) (fun x hx => ha x (List.mem_of_mem_drop hx)) hb hwhole hshort
  have hacc : accept (packBody chunk) s = .next (raise .dictMiss b (tookByte b t)) := by
    rw [accept_packBody hp hdv, hrun, finish]
  rw [hsplit] at hframe
  refine ⟨_, hacc, exec_pack_of_accept hacc, rfl, rfl, rfl, ?_⟩
  rw [hframe]
  exact ⟨rfl, rfl, rfl, rfl, rfl, rfl⟩

end Sys2Proof.Machine
end

section
/-! SUPPORT. DECODE (spec/45_decoder.md R200 to R206): the command at its start, what it leaves when whole code paths are taken,
and its four ends: a root that is a leaf, the last symbol, the end of IN, and a missing child. -/

namespace Sys2Proof.Machine

/-! ### DECODE from IDLE (R200, R222) -/

section

variable {s : State}

/-- DECODE as its walk starts (R200). -/
def decodeStart (s : State) : State :=
  { s with
    phase := .busy
    remain := (nodeAt s.node s.root).freq
    cur := s.root
    shift := 0#8
    bitpos := 0#4 }

/-- At the start every bit of the rest of IN is unread. -/
theorem unreadBits_decodeStart (s : State) : unreadBits (decodeStart s) = bits s.inp.rest := rfl

theorem decodeBody_eq (h : s.tv = true) : decodeBody s = decodeMain s := by
  rw [decodeBody, h, require_true]

theorem exec_decode (hp : s.phase = .idle) (htv : s.tv = true) (hroot : s.root ≠ Config.nil) :
    exec .decode s = finish (decodeWalk (decodeStart s)) := by
  have hmain : decodeMain { s with phase := .busy } = decodeWalk (decodeStart s) := if_neg hroot
  rw [exec_idle hp, bodyOf, decodeBody_eq (s := { s with phase := .busy }) htv, hmain]

theorem decodeWalk_leaf (h : (nodeAt s.node s.root).kind = .leaf) :
    decodeWalk s = .done (emitRun s.remain.toNat s) := by
  rw [decodeWalk, h]

theorem decodeWalk_internal (h : (nodeAt s.node s.root).kind = .internal) :
    decodeWalk s = loop decodeStep (8 * s.inp.left + 1) s := by
  rw [decodeWalk, h]

end

/-- Settles O45: the run of the root's symbol, which takes no bit. -/
theorem decodeSingleLeaf : Obligations.DecodeSingleLeaf := by
  unfold Obligations.DecodeSingleLeaf
  intro s run hp htv hroot hk hrun
  rw [exec_decode hp htv hroot, decodeWalk_leaf (s := decodeStart s) hk, emitRun_eq _ _ rfl, finish, hrun, ← hp]
  rfl

/-! ### Where a number of bits stands in IN (R203) -/

section

variable {s t : State} {k n : Nat}

theorem BitsTaken.inp_eq (h : BitsTaken k s t) (hn : 8 * n + s.bitpos.toNat = k + t.bitpos.toNat) :
    t.inp = ⟨s.inp.data, s.inp.pos + n⟩ := by
  obtain ⟨hdata, -, hpos⟩ := h
  have hmoved : t.inp.pos = s.inp.pos + n := by omega
  rw [← hdata, ← hmoved]

theorem bitpos_of_unreadBits_nil (h : unreadBits s = []) : s.bitpos.toNat = 0 := by
  have hshift := (List.append_eq_nil_iff.1 h).1
  simpa [bitsOf_ne_nil] using hshift

end

/-! ### Whole code paths (R202) -/

/-- DECODE, started in `s`, has taken the code paths `ps` whole and put their symbols out; it stands at the root, before the
bits `r`. -/
structure PathsTaken (s : State) (ps : List (List Bool × Byte)) (r : List Bool) (t : State) : Prop where
  unread : unreadBits t = r
  taken  : BitsTaken (ps.flatMap Prod.fst).length (decodeStart s) t
  bitpos : t.bitpos.toNat ≤ 7
  frame  : WalkFrame (decodeStart s) t
  out    : t.out = s.out ++ ps.map Prod.snd
  remain : t.remain.toNat + ps.length = (nodeAt s.node s.root).freq.toNat
  cur    : t.cur = s.root

section

variable {s t : State} {ps : List (List Bool × Byte)} {r : List Bool}

/-- DECODE takes whole code paths while symbols are owed, and has passes enough for the bits behind them (R225). -/
theorem exec_decode_paths (hp : s.phase = .idle) (htv : s.tv = true) (hroot : s.root ≠ Config.nil)
    (hk : (nodeAt s.node s.root).kind = .internal) (hps : ∀ p ∈ ps, leafPath s.node s.root p.1 = some p.2)
    (hlen : ps.length ≤ (nodeAt s.node s.root).freq.toNat) (hbits : bits s.inp.rest = ps.flatMap Prod.fst ++ r) :
    ∃ t, PathsTaken s ps r t ∧ exec .decode s = finish (loop decodeStep (r.length + 1) t) := by
  have hpasses : 8 * s.inp.left + 1 = (ps.flatMap Prod.fst).length + (r.length + 1) := by
    rw [left_eq_length_rest, ← length_bits, hbits, List.length_append, Nat.add_assoc]
  obtain ⟨t, hunread, htaken, hbitpos, hframe, hout, hremain, hcur, hloop⟩ :=
    loop_paths ps (decodeStart s) r (r.length + 1) hk rfl hps hbits (Nat.zero_le _) hlen
  refine ⟨t, ⟨hunread, htaken, hbitpos (Nat.zero_le _), hframe, hout, hremain, hcur⟩, ?_⟩
  rw [exec_decode hp htv hroot, decodeWalk_internal (s := decodeStart s) hk, ← hloop, ← hpasses]
  rfl

theorem PathsTaken.node (h : PathsTaken s ps r t) : t.node = s.node := by
  rw [h.frame]
  rfl

theorem PathsTaken.remain_ne_zero (h : PathsTaken s ps r t) (hlt : ps.length < (nodeAt s.node s.root).freq.toNat) :
    t.remain ≠ 0#64 := by
  intro h0
  have hremain := h.remain
  rw [h0] at hremain
  simp at hremain
  omega

/-- BITPOS counts the bits of the last byte fetched that are not taken (R203). -/
theorem PathsTaken.bitpos_eq (h : PathsTaken s ps r t) :
    t.bitpos.toNat = 8 * ceil8 (ps.flatMap Prod.fst).length - (ps.flatMap Prod.fst).length := by
  obtain ⟨-, -, hpos⟩ := h.taken
  have hbitpos := h.bitpos
  change 8 * t.inp.pos + 0 = 8 * s.inp.pos + _ + _ at hpos
  rw [ceil8]
  omega

/-- IN stands behind the byte of the last bit taken (R203). -/
theorem PathsTaken.inp (h : PathsTaken s ps r t) :
    t.inp = ⟨s.inp.data, s.inp.pos + ceil8 (ps.flatMap Prod.fst).length⟩ := by
  refine h.taken.inp_eq ?_
  change _ + 0 = _
  rw [h.bitpos_eq, ceil8]
  omega

/-- The end of the command with these paths and no symbol owed. -/
theorem PathsTaken.finished (h : PathsTaken s ps r t) (hp : s.phase = .idle) (h0 : t.remain = 0#64) :
    { t with phase := .idle } = { s with
      cur := s.root
      remain := 0#64
      shift := t.shift
      bitpos := t.bitpos
      inp := ⟨s.inp.data, s.inp.pos + ceil8 (ps.flatMap Prod.fst).length⟩
      out := s.out ++ ps.map Prod.snd
      accesses := t.accesses } := by
  have hframe := congrArg (fun u : State => { u with phase := .idle }) h.frame
  refine hframe.trans ?_
  rw [h.cur, h0, h.inp, h.out, ← hp]
  rfl

end

/-- Settles O46: after the paths nothing is owed, so the loop leaves with no further bit. -/
theorem decodeResult : Obligations.DecodeResult := by
  unfold Obligations.DecodeResult
  intro s ps r hp htv hroot hk hps hlen hbits
  obtain ⟨t, ht, hrun⟩ := exec_decode_paths hp htv hroot hk hps hlen.le hbits
  have h0 : t.remain = 0#64 := BitVec.eq_of_toNat_eq (by have := ht.remain; simp; omega)
  rw [hrun, loop_of_exit (decodeStep_stop h0)]
  exact ⟨_, rfl, ht.bitpos_eq, ht.finished hp h0⟩

/-! ### The two raises (R204, R206) -/

/-- Settles O47: after the paths and the bits inside a code no bit is unread and a symbol is owed. -/
theorem decodeTruncatedFaults : Obligations.DecodeTruncatedFaults := by
  unfold Obligations.DecodeTruncatedFaults
  intro s ps q hp htv hroot hps hq hlt hbits
  obtain ⟨t, ht, hrun⟩ := exec_decode_paths hp htv hroot (innerPath_internal hq) hps hlt.le hbits
  have hqt : innerPath t.node t.cur q = true := by rw [ht.node, ht.cur]; exact hq
  obtain ⟨u, hunread, htaken, hframe, hout, hremain, hloop⟩ := loop_innerPath q t [] 1 hqt
    (by rw [ht.unread, List.append_nil]) (by have := ht.bitpos; omega) (ht.remain_ne_zero hlt)
  have hraise : decodeStep u = .raised (raise .truncatedStream 0x08#8 u) :=
    decodeStep_truncated (hremain ▸ ht.remain_ne_zero hlt) hunread
  have hinp : u.inp = ⟨s.inp.data, s.inp.pos + s.inp.rest.length⟩ := by
    refine (ht.taken.trans htaken).inp_eq ?_
    rw [bitpos_of_unreadBits_nil hunread, ← List.length_append, ← hbits, length_bits]
    rfl
  have hall : WalkFrame (decodeStart s) u := ht.frame.trans hframe
  rw [hrun, hloop, loop_of_raised hraise]
  refine ⟨_, rfl, rfl, rfl, rfl, hout.trans ht.out, ?_, hinp, ?_⟩
  · have := ht.remain
    rw [raise_remain, hremain]
    omega
  · simp only [raise_fv, raise_tv, raise_dv, raise_node]
    rw [hall]
    exact ⟨rfl, rfl, rfl, rfl⟩

theorem reach_eq_foldl (nodes : Vector Node 511) (q : List Bool) : ∀ i : NodeIx,
    q.foldl (fun i x => childOf (nodeAt nodes i) x) i = reach nodes i q := by
  induction q with
  | nil => exact fun i => rfl
  | cons b q ih => exact fun i => ih _

/-- A bit that selects a missing child raises MalformedTree; OUT and REMAIN are as before (R206). -/
theorem decodeStep_missing {s : State} {b : Bool} {r : List Bool} (h : unreadBits s = b :: r) (h8 : s.bitpos.toNat ≤ 8)
    (hrem : s.remain ≠ 0#64) (hc : childOf (nodeAt s.node s.cur) b = Config.nil) :
    ∃ t, decodeStep s = .raised (raise .malformedTree 0x08#8 t) ∧ t.out = s.out ∧ t.remain = s.remain := by
  obtain ⟨t, hnext, -, -, -, hframe⟩ := nextBit_eq h h8
  have hsame : t.node = s.node ∧ t.cur = s.cur ∧ t.out = s.out ∧ t.remain = s.remain := by
    rw [hframe]
    exact ⟨rfl, rfl, rfl, rfl⟩
  obtain ⟨hnode, hcur, hout, hremain⟩ := hsame
  have hwalk : walkStep b t = .raised (raise .malformedTree 0x08#8 t) := by
    rw [walkStep, hnode, hcur]
    exact if_pos hc
  refine ⟨t, ?_, hout, hremain⟩
  rw [decodeStep, if_neg hrem, hnext]
  exact hwalk

/-- The walk from a node inside a code to a missing child (R206). -/
theorem loop_missing {b : Bool} {r : List Bool} (q : List Bool) : ∀ (s : State) (n : Nat),
    innerPath s.node s.cur q = true → childOf (nodeAt s.node (reach s.node s.cur q)) b = Config.nil →
    unreadBits s = q ++ b :: r → s.bitpos.toNat ≤ 8 → s.remain ≠ 0#64 →
    ∃ t, loop decodeStep (q.length + (n + 1)) s = .raised (raise .malformedTree 0x08#8 t) ∧
      t.out = s.out ∧ t.remain = s.remain := by
  induction q with
  | nil =>
    intro s n _ hc hunread h8 hrem
    obtain ⟨t, hstep, hsame⟩ := decodeStep_missing hunread h8 hrem hc
    exact ⟨t, by rw [List.length_nil, Nat.zero_add, loop_of_raised hstep], hsame⟩
  | cons x q ih =>
    intro s n hq hc hunread h8 hrem
    have hx : childOf (nodeAt s.node s.cur) x ≠ Config.nil := by
      rw [innerPath, Bool.and_eq_true, Bool.and_eq_true] at hq
      obtain ⟨⟨-, hchild⟩, -⟩ := hq
      simpa using hchild
    obtain ⟨t, hunread', -, h7, hframe, hout, hremain, hcur, hstep⟩ := decodeStep_move hunread h8 hrem hx
    have hnode : t.node = s.node := by rw [hframe]
    rw [innerPath_cons (innerPath_internal hq) hx, ← hcur] at hq
    rw [innerPath_internal hq] at hstep
    rw [reach, ← hcur] at hc
    rw [← hnode] at hq hc
    obtain ⟨u, hloop, hout', hremain'⟩ := ih t n hq hc hunread' (by omega) (hremain ▸ hrem)
    refine ⟨u, ?_, hout'.trans hout, hremain'.trans hremain⟩
    rw [List.length_cons, Nat.succ_add, loop_of_again hstep, hloop]

/-- Settles O48: after the paths the walk is inside a code when it meets the missing child. -/
theorem decodeMalformedTree : Obligations.DecodeMalformedTree := by
  unfold Obligations.DecodeMalformedTree
  intro s ps q r b hp htv hroot hps hq hc hlt hbits
  rw [List.append_assoc] at hbits
  rw [reach_eq_foldl] at hc
  obtain ⟨t, ht, hrun⟩ := exec_decode_paths hp htv hroot (innerPath_internal hq) hps hlt.le hbits
  rw [← ht.node, ← ht.cur] at hq hc
  obtain ⟨u, hloop, hout, hremain⟩ := loop_missing q t (r.length + 1) hq hc ht.unread
    (by have := ht.bitpos; omega) (ht.remain_ne_zero hlt)
  have hpasses : (q ++ b :: r).length + 1 = q.length + (r.length + 1 + 1) := by
    rw [List.length_append, List.length_cons, Nat.add_assoc]
  rw [hrun, hpasses, hloop]
  refine ⟨_, rfl, rfl, rfl, rfl, hout.trans ht.out, ?_⟩
  have := ht.remain
  rw [raise_remain, hremain]
  omega

end Sys2Proof.Machine
end

section
/-! SUPPORT. The round trip of COMPRESS and DECOMPRESS (spec/45_decoder.md R207; spec/46_system.md R226, R227): what each command
of the two sequences has ready for the next, that both build the same tree, and that DECODE reads packed codes back. -/

namespace Sys2Proof.Machine

/-! ### Moves of the host (R222, R228) -/

theorem run_of_step {s t : State} (h : step s = .next t) (n : Nat) :
    Host.Core.run Sys2Proof.core (n + 1) s = Host.Core.run Sys2Proof.core n t := by
  have hcore : Sys2Proof.core.step s = .next t := h
  simp only [Host.Core.run, hcore]

/-- A pending command word runs its command, with the other moves still pending. -/
theorem step_command {i : Instr} {s t : State} {es : List HostEvent} (hpend : s.pending = .command (encodeWord i) :: es)
    (h : exec i { s with pending := es } = .next t) : step s = .next t := by
  rw [step_of_pending hpend, hostStep, issue, decodeWord_encodeWord]
  exact h

/-- CLEAR leaves an idle block with no fault recorded, and the streams and the other moves as they were (R220). -/
theorem step_clear {s : State} {es : List HostEvent} (hp : s.phase = .idle)
    (hpend : s.pending = .command (encodeWord .clear) :: es) :
    ∃ t, step s = .next t ∧ t.phase = .idle ∧ t.err = 0#4 ∧ t.pending = es ∧ t.inp = s.inp ∧ t.out = s.out := by
  have hexec : exec .clear { s with pending := es } = .next (resetBlock { s with pending := es }) :=
    exec_idle (s := { s with pending := es }) hp .clear
  exact ⟨_, step_command hpend hexec, rfl, rfl, rfl, rfl, rfl⟩

/-! ### A table of counts (R122) -/

section

variable {s : State} {x : List Byte}

theorem toNat_freqAt_histogram (h : s.freq = histogram x) (hx : x.length < 2 ^ 64) (b : Byte) :
    (freqAt s b).toNat = x.count b := by
  have hbin : freqAt s b = BitVec.ofNat 64 (x.count b) := by
    rw [← getElem_histogram]
    simp only [freqAt, h]
  rw [hbin, BitVec.toNat_ofNat, Nat.mod_eq_of_lt (List.count_le_length.trans_lt hx)]

theorem freqAt_histogram_ne_zero (h : s.freq = histogram x) (hx : x.length < 2 ^ 64) {b : Byte} :
    freqAt s b ≠ 0#64 ↔ b ∈ x := by
  rw [← List.count_pos_iff, ← toNat_freqAt_histogram h hx, Nat.pos_iff_ne_zero, Ne, Ne, ← BitVec.toNat_inj]
  rfl

/-- The symbols of the table are the distinct bytes. -/
theorem presentSymbols_perm_dedup (h : s.freq = histogram x) (hx : x.length < 2 ^ 64) :
    (presentSymbols s).Perm x.dedup := by
  refine (List.perm_ext_iff_of_nodup (symbols_nodup.filter _) (List.nodup_dedup x)).2 fun b => ?_
  rw [← presentSymbols, mem_presentSymbols, freqAt_histogram_ne_zero h hx, List.mem_dedup]

theorem freqTotal_histogram (h : s.freq = histogram x) (hx : x.length < 2 ^ 64) : freqTotal s = x.length := by
  simp only [freqTotal_eq, toNat_freqAt_histogram h hx]
  rw [((presentSymbols_perm_dedup h hx).map _).sum_eq, List.sum_map_count_dedup_eq_length]

end

/-! ### What is ready after each command -/

/-- BUILD_TREE made the nodes and the root of `s`, from the table of `x`. -/
def BuiltFrom (x : List Byte) (s : State) : Prop :=
  ∃ u v, u.phase = .idle ∧ u.fv = true ∧ u.freq = histogram x ∧ exec .buildTree u = .next v ∧
    s.node = v.node ∧ s.ncount = v.ncount ∧ s.root = v.root

/-- The table of `x` is ready, no fault is recorded, and the host's moves `es` follow. -/
structure TableReady (x : List Byte) (es : List HostEvent) (s : State) : Prop where
  phase   : s.phase = .idle
  err     : s.err = 0#4
  pending : s.pending = es
  fv      : s.fv = true
  freq    : s.freq = histogram x

/-- So is the tree of that table. -/
structure TreeReady (x : List Byte) (es : List HostEvent) (s : State) : Prop extends TableReady x es s where
  tv     : s.tv = true
  tables : TablesOk s
  built  : BuiltFrom x s

section

variable {s t : State} {x : List Byte} {es : List HostEvent}

/-! #### What a ready tree is -/

theorem TreeReady.tree (h : TreeReady x es s) : TreeOk s := h.tables.tree h.tv

theorem TreeReady.leaves (h : TreeReady x es s) : LeavesOk s := h.tables.leaves h.tv

theorem TreeReady.nleaf_eq (h : TreeReady x es s) (hx : x.length < 2 ^ 64) : s.nleaf.toNat = x.dedup.length :=
  h.leaves.nleaf_eq.trans (presentSymbols_perm_dedup h.freq hx).length_eq

/-- The root counts the bytes of `x` (R134). -/
theorem TreeReady.total (h : TreeReady x es s) (hx : x.length < 2 ^ 64) :
    (nodeAt s.node s.root).freq.toNat = x.length :=
  (freqTotal_root h.tree h.leaves).trans (freqTotal_histogram h.freq hx)

/-! #### The commands behind COUNT, one step each -/

/-- BUILD_TREE makes the tree of a ready table (R130). -/
theorem TableReady.step_buildTree (h : TableReady x (.command (encodeWord .buildTree) :: es) s) (hne : x ≠ [])
    (hx : x.length < 2 ^ 64) :
    ∃ t, step s = .next t ∧ TreeReady x es t ∧ t.inp = s.inp ∧ t.out = s.out := by
  have hbin : ∃ b, freqAt s b ≠ 0#64 := by
    obtain ⟨b, hb⟩ := List.exists_mem_of_ne_nil x hne
    exact ⟨b, (freqAt_histogram_ne_zero h.freq hx).2 hb⟩
  have htotal : freqTotal s < 2 ^ 64 := (freqTotal_histogram h.freq hx).trans_lt hx
  obtain ⟨t, hexec, htree, hleaves, -, -, -, hframe⟩ :=
    buildTreeResult { s with pending := es } h.phase h.fv hbin htotal
  have hready : TableReady x es t := by
    rw [hframe]
    exact ⟨h.phase, h.err, rfl, h.fv, h.freq⟩
  have htv : t.tv = true := by rw [hframe]
  have hdv : t.dv = false := by rw [hframe]
  refine ⟨t, step_command h.pending hexec, ⟨hready, htv, ?_, ?_⟩, by rw [hframe], by rw [hframe]⟩
  · exact ⟨fun _ => hready.fv, by simp [hdv], fun _ => htree, fun _ => hleaves, by simp [hdv]⟩
  · exact ⟨{ s with pending := es }, t, h.phase, h.fv, h.freq, hexec, rfl, rfl, rfl⟩

/-- The commands of COMPRESS behind BUILD_TREE write neither the table nor the tree (R93). -/
theorem TreeReady.step_keeps {i : Instr} (hi : i = .buildDict ∨ i = .encMeta ∨ i = .pack)
    (h : TreeReady x (.command (encodeWord i) :: es) s) (hexec : exec i { s with pending := es } = .next t)
    (hphase : t.phase = .idle) : TreeReady x es t := by
  have hclear : i ≠ .clear := by rintro rfl; simp at hi
  have hkept : t.pending = es ∧ t.fv = s.fv ∧ t.freq = s.freq ∧ t.tv = s.tv ∧
      t.node = s.node ∧ t.ncount = s.ncount ∧ t.root = s.root := by
    have hw := writesOnly_exec hexec
    rcases hi with rfl | rfl | rfl
    · rw [hw]; exact ⟨rfl, rfl, rfl, rfl, rfl, rfl, rfl⟩
    · rw [hw]; exact ⟨rfl, rfl, rfl, rfl, rfl, rfl, rfl⟩
    · obtain ⟨-, hw⟩ := hw
      rw [hw]; exact ⟨rfl, rfl, rfl, rfl, rfl, rfl, rfl⟩
  obtain ⟨hpending, hfv, hfreq, htv, hnode, hncount, hroot⟩ := hkept
  obtain ⟨-, herr, -⟩ := control_same_of_not_raised hclear hexec (.inr (by rw [hphase]; simp))
  have hbefore : TablesOk { s with pending := es } := h.tables.congr rfl
  refine ⟨⟨hphase, herr.trans h.err, hpending, hfv.trans h.fv, hfreq.trans h.freq⟩, htv.trans h.tv,
    tablesOk_exec (s := { s with pending := es }) hclear h.phase hbefore hexec, ?_⟩
  rw [BuiltFrom, hnode, hncount, hroot]
  exact h.built

/-- BUILD_DICT adds the dictionary (R150). -/
theorem TreeReady.step_buildDict (h : TreeReady x (.command (encodeWord .buildDict) :: es) s) :
    ∃ t, step s = .next t ∧ TreeReady x es t ∧ t.dv = true ∧ t.inp = s.inp ∧ t.out = s.out := by
  obtain ⟨t, hexec, -, -, -, -, hframe⟩ := buildDictResult { s with pending := es } h.phase h.tv
    (h.tree.congr rfl rfl rfl rfl) (h.leaves.congr rfl rfl rfl rfl)
  have hphase : t.phase = .idle := by rw [hframe]; exact h.phase
  exact ⟨t, step_command h.pending hexec, h.step_keeps (.inl rfl) hexec hphase, by rw [hframe], by rw [hframe],
    by rw [hframe]⟩

/-- ENC_META writes the header of at most 255 symbols (R160). -/
theorem TreeReady.step_encMeta (h : TreeReady x (.command (encodeWord .encMeta) :: es) s) (hx : x.length < 2 ^ 64)
    (hle : x.dedup.length ≤ 255) :
    ∃ t, step s = .next t ∧ TreeReady x es t ∧ t.dv = s.dv ∧ t.inp = s.inp ∧
      t.hdrW = BitVec.ofNat 8 (headerWidth t) ∧ t.out = s.out ++ headerOf t := by
  have hexec : exec .encMeta { s with pending := es } = .next (headerWritten { s with pending := es }) :=
    exec_encMeta_tree h.phase h.tv (h.tree.congr rfl rfl rfl rfl) (h.leaves.congr rfl rfl rfl rfl)
      ((h.nleaf_eq hx).trans_le hle)
  exact ⟨_, step_command h.pending hexec, h.step_keeps (.inr (.inl rfl)) hexec h.phase, rfl, rfl, rfl, rfl⟩

/-- PACK writes the packed codes of all of `x` (R180): each of its bytes has a code. -/
theorem TreeReady.step_pack (h : TreeReady x (.command (encodeWord .pack) :: es) s) (hx : x.length < 2 ^ 64)
    (hdv : s.dv = true) (hinp : s.inp = ⟨x, 0⟩) :
    ∃ t, step s = .next t ∧ TreeReady x es t ∧ t.dv = true ∧ t.inp = ⟨x, x.length⟩ ∧ t.hdrW = s.hdrW ∧
      headerWidth t = headerWidth s ∧ t.out = s.out ++ pack (codesOf t x) ∧ headerOf t = headerOf s := by
  have hrest : s.inp.rest = x := by rw [hinp]; rfl
  have hcodes : ∀ b ∈ s.inp.rest, (dictAt s b).valid = true := fun b hb =>
    ((h.tables.dict hdv).valid b).2 ((freqAt_histogram_ne_zero h.freq hx).2 (hrest ▸ hb))
  obtain ⟨hchunk, hpack⟩ := packResult
  obtain ⟨t, -, hexec, -, hframe⟩ := hpack Config.chunk { s with pending := es } hchunk h.phase hdv hcodes
  have hexec := hexec rfl
  have hphase : t.phase = .idle := by rw [hframe]; exact h.phase
  refine ⟨t, step_command h.pending hexec, h.step_keeps (.inr (.inr rfl)) hexec hphase, ?_⟩
  rw [hframe, hrest, hinp]
  exact ⟨hdv, congrArg _ (Nat.zero_add _), rfl, rfl, rfl, rfl⟩

end

/-! ### COMPRESS (R226) -/

section

variable {s : State} {x : List Byte}

/-- COUNT makes the table of the whole input ready (R120, R122). -/
theorem step_count {es : List HostEvent} (hp : s.phase = .idle) (herr : s.err = 0#4)
    (hpend : s.pending = .command (encodeWord .count) :: es) (hinp : s.inp = ⟨x, 0⟩) (hx : x.length < 2 ^ 64) :
    ∃ t, step s = .next t ∧ TableReady x es t ∧ t.inp.data = x ∧ t.out = s.out := by
  have hrest : s.inp.rest = x := by rw [hinp]; rfl
  have hfit : ∀ b, s.inp.rest.count b < 2 ^ 64 := fun b => by rw [hrest]; exact List.count_le_length.trans_lt hx
  refine ⟨_, step_command hpend (countResult { s with pending := es } hp hfit), ⟨hp, herr, rfl, rfl, ?_⟩, ?_, rfl⟩
  · exact congrArg histogram hrest
  · exact congrArg InStream.data hinp

/-- The rewind places the input to be read again (R62). -/
theorem TableReady.step_rewind {es : List HostEvent} (h : TableReady x (.rewind :: es) s) :
    ∃ t, step s = .next t ∧ TableReady x es t ∧ t.inp = ⟨s.inp.data, 0⟩ ∧ t.out = s.out :=
  ⟨_, step_streamAction_ready rfl (by rw [h.phase]; simp) h.pending, ⟨h.phase, h.err, rfl, h.fv, h.freq⟩, rfl, rfl⟩

/-- COMPRESS leaves the header and the packed codes, the dictionary they were taken from, and the tree behind it. -/
theorem run_compressMoves (hp : s.phase = .idle) (hne : x ≠ []) (hle : x.dedup.length ≤ 255) (hx : x.length < 2 ^ 64) :
    ∃ t, Host.Core.run Sys2Proof.core 7 { s with pending := compressMoves, inp := ⟨x, 0⟩, out := [] } = .next t ∧
      TreeReady x [] t ∧ t.dv = true ∧ t.inp = ⟨x, x.length⟩ ∧ t.hdrW = BitVec.ofNat 8 (headerWidth t) ∧
      t.out = headerOf t ++ pack (codesOf t x) := by
  obtain ⟨t0, hclear, hphase0, herr0, hpend0, hinp0, hout0⟩ :=
    step_clear (s := { s with pending := compressMoves, inp := ⟨x, 0⟩, out := [] }) hp rfl
  obtain ⟨t1, hcount, htable, hdata1, hout1⟩ := step_count hphase0 herr0 hpend0 hinp0 hx
  obtain ⟨t2, hrewind, hplaced, hinp2, hout2⟩ := htable.step_rewind
  obtain ⟨t3, hbuildTree, htree, hinp3, hout3⟩ := hplaced.step_buildTree hne hx
  obtain ⟨t4, hbuildDict, hdict, hdv4, hinp4, hout4⟩ := htree.step_buildDict
  obtain ⟨t5, hencMeta, hheader, hdv5, hinp5, hw5, hout5⟩ := hdict.step_encMeta hx hle
  have hinput : t5.inp = ⟨x, 0⟩ := by rw [hinp5, hinp4, hinp3, hinp2, hdata1]
  obtain ⟨t6, hpack, hpacked, hdv6, hinp6, hw6, hwidth6, hout6, hheader6⟩ :=
    hheader.step_pack hx (hdv5.trans hdv4) hinput
  refine ⟨t6, ?_, hpacked, hdv6, hinp6, ?_, ?_⟩
  · rw [run_of_step hclear, run_of_step hcount, run_of_step hrewind, run_of_step hbuildTree, run_of_step hbuildDict,
      run_of_step hencMeta, run_of_step hpack]
    rfl
  · rw [hw6, hw5, hwidth6]
  · rw [hout6, hheader6, hout5, hout4, hout3, hout2, hout1, hout0]
    rfl

end

/-! ### The same tree in two runs (R134) -/

/-- Node memories that agree on a tree have the same paths in it. -/
theorem leafPath_congr {nodes nodes' : Vector Node 511} {l n : Nat} (hw : WalkOk nodes l n)
    (hsame : ∀ i : NodeIx, i.toNat < n → nodeAt nodes' i = nodeAt nodes i) (p : List Bool) :
    ∀ i : NodeIx, i.toNat < n → leafPath nodes' i p = leafPath nodes i p := by
  obtain ⟨-, hshape⟩ := hw
  induction p with
  | nil =>
    intro i hi
    rw [leafPath, leafPath, hsame i hi]
  | cons b p ih =>
    intro i hi
    obtain ⟨hleaf, hinner⟩ := hshape i hi
    rw [leafPath, leafPath, hsame i hi]
    cases hk : (nodeAt nodes i).kind with
    | leaf => rfl
    | internal =>
      have hil : l ≤ i.toNat := by
        by_contra hlt
        rw [hleaf (by omega)] at hk
        cases hk
      obtain ⟨-, hleft, hright⟩ := hinner hil
      have hchild : (childOf (nodeAt nodes i) b).toNat < n := by cases b <;> exact Nat.lt_trans ‹_› hi
      simp only [ih _ hchild]

/-- Two trees of the same table have the same paths. -/
theorem TreeReady.leafPath_eq {x : List Byte} {es es' : List HostEvent} {s s' : State} (h : TreeReady x es s)
    (h' : TreeReady x es' s') (p : List Bool) : leafPath s'.node s'.root p = leafPath s.node s.root p := by
  obtain ⟨u, v, hp, hfv, hfreq, hexec, hnode, hncount, hroot⟩ := h.built
  obtain ⟨u', v', hp', hfv', hfreq', hexec', hnode', -, hroot'⟩ := h'.built
  obtain ⟨-, -, -, -, hsameRoot, -, hsame⟩ :=
    buildTreeReadsOnlyFreq u u' v v' hp hp' hfv hfv' (hfreq'.trans hfreq.symm) hexec hexec'
  have hnodes : ∀ i : NodeIx, i.toNat < s.ncount.toNat → nodeAt s'.node i = nodeAt s.node i := fun i hi => by
    rw [hnode, hnode', ← nodeN_eq, ← nodeN_eq]
    exact hsame _ (hncount ▸ hi)
  rw [hroot', hsameRoot, ← hroot]
  exact leafPath_congr h.tree.walkOk hnodes p _ h.tree.root_lt

/-! ### DECODE of packed codes (R207) -/

/-- With codes that are the paths to their symbols, DECODE reads back as many packed symbols as the root counts, whatever
follows. -/
theorem exec_decode_packed {s : State} {c : Byte → List Bool} {x y : List Byte} (hp : s.phase = .idle)
    (htv : s.tv = true) (hroot : s.root ≠ Config.nil) (hc : ∀ b ∈ x, leafPath s.node s.root (c b) = some b)
    (htotal : (nodeAt s.node s.root).freq.toNat = x.length) (hrest : s.inp.rest = pack (x.flatMap c) ++ y) :
    ∃ t, exec .decode s = .next t ∧ t.phase = .idle ∧ t.err = s.err ∧ t.out = s.out ++ x := by
  cases hk : (nodeAt s.node s.root).kind with
  | leaf =>
    have hrun : x = List.replicate (nodeAt s.node s.root).freq.toNat (nodeAt s.node s.root).sym := by
      refine List.eq_replicate_iff.2 ⟨htotal.symm, fun b hb => ?_⟩
      obtain ⟨-, hsym⟩ := leafPath_leaf_eq hk (hc b hb)
      exact hsym
    exact ⟨_, decodeSingleLeaf s x hp htv hroot hk hrun, hp, rfl, rfl⟩
  | internal =>
    have hfst : (x.map fun b => (c b, b)).flatMap Prod.fst = x.flatMap c := List.flatMap_map ..
    have hsnd : (x.map fun b => (c b, b)).map Prod.snd = x := (List.map_map ..).trans (List.map_id x)
    have hps : ∀ p ∈ x.map fun b => (c b, b), leafPath s.node s.root p.1 = some p.2 := by
      intro p hmem
      obtain ⟨b, hb, rfl⟩ := List.mem_map.1 hmem
      exact hc b hb
    obtain ⟨t, hexec, -, hframe⟩ := decodeResult s (x.map fun b => (c b, b)) _ hp htv hroot hk hps
      ((List.length_map _).trans htotal.symm) (by rw [hrest, bits_append, bits_pack, hfst, List.append_assoc])
    refine ⟨t, hexec, ?_⟩
    rw [hframe, hsnd]
    exact ⟨hp, rfl, rfl⟩

/-! ### DECOMPRESS (R227) -/

section

variable {s u : State} {x y : List Byte} {es fs : List HostEvent}

/-- DEC_META reads the header back into the table it was written from (R164). -/
theorem TreeReady.step_decMeta (h : TreeReady x fs s) (hx : x.length < 2 ^ 64) (hle : x.dedup.length ≤ 255)
    (hp : u.phase = .idle) (herr : u.err = 0#4) (hpend : u.pending = .command (encodeWord .decMeta) :: es)
    (hinp : u.inp = ⟨headerOf s ++ y, 0⟩) :
    ∃ v, step u = .next v ∧ TableReady x es v ∧ v.inp.rest = y ∧ v.out = u.out := by
  have hnleaf : s.nleaf.toNat ≤ 255 := (h.nleaf_eq hx).trans_le hle
  obtain ⟨v, hexec, hphase, hfv, hfreq, -, -, hread⟩ := metadataRoundTrip s _ { u with pending := es } _ y h.phase h.tv
    h.tree h.leaves hnleaf (exec_encMeta_tree h.phase h.tv h.tree h.leaves hnleaf) rfl hp hinp
  obtain ⟨-, hwrites⟩ := writesOnly_exec hexec
  obtain ⟨-, hsame, -⟩ := control_same_of_not_raised (by simp) hexec (.inr (by rw [hphase]; simp))
  refine ⟨v, step_command hpend hexec, ⟨hphase, hsame.trans herr, by rw [hwrites], hfv, hfreq.trans h.freq⟩, ?_,
    by rw [hwrites]⟩
  rw [hread, InStream.rest, List.drop_left]

/-- DECODE reads back what was packed with the codes of the same table's tree. -/
theorem TreeReady.step_decode (h : TreeReady x fs s) (hdv : s.dv = true) (hx : x.length < 2 ^ 64)
    (hu : TreeReady x (.command (encodeWord .decode) :: es) u) (hrest : u.inp.rest = pack (codesOf s x) ++ y) :
    ∃ v, step u = .next v ∧ v.phase = .idle ∧ v.err = 0#4 ∧ v.out = u.out ++ x := by
  have hdict := h.tables.dict hdv
  have hpaths : ∀ b ∈ x, leafPath u.node u.root (dictAt s b).code = some b := fun b hb => by
    rw [h.leafPath_eq hu]
    exact hdict.path b ((hdict.valid b).2 ((freqAt_histogram_ne_zero h.freq hx).2 hb))
  obtain ⟨v, hexec, hphase, herr, hout⟩ := exec_decode_packed (s := { u with pending := es }) hu.phase hu.tv
    hu.tree.root_ne_nil hpaths (hu.total hx) hrest
  exact ⟨v, step_command hu.pending hexec, hphase, herr.trans hu.err, hout⟩

/-- DECOMPRESS turns a header and packed codes back into the bytes, whatever follows. -/
theorem run_decompressMoves (h : TreeReady x fs s) (hdv : s.dv = true) (hne : x ≠ []) (hle : x.dedup.length ≤ 255)
    (hx : x.length < 2 ^ 64) (hp : u.phase = .idle) (hpend : u.pending = decompressMoves)
    (hinp : u.inp = ⟨headerOf s ++ (pack (codesOf s x) ++ y), 0⟩) :
    ∃ v, Host.Core.run Sys2Proof.core 4 u = .next v ∧ v.phase = .idle ∧ v.err = 0#4 ∧ v.out = u.out ++ x := by
  obtain ⟨v0, hclear, hphase0, herr0, hpend0, hinp0, hout0⟩ := step_clear hp hpend
  obtain ⟨v1, hdecMeta, htable, hrest1, hout1⟩ := h.step_decMeta hx hle hphase0 herr0 hpend0 (hinp0.trans hinp)
  obtain ⟨v2, hbuildTree, htree, hinp2, hout2⟩ := htable.step_buildTree hne hx
  obtain ⟨v3, hdecode, hphase, herr, hout⟩ := h.step_decode hdv hx htree (hinp2 ▸ hrest1)
  refine ⟨v3, ?_, hphase, herr, by rw [hout, hout2, hout1, hout0]⟩
  rw [run_of_step hclear, run_of_step hdecMeta, run_of_step hbuildTree, run_of_step hdecode]
  rfl

end

/-- Settles O51: both sequences build the tree of the input's counts, so the codes packed are the paths walked. -/
theorem compressDecompressRoundTrip : Obligations.CompressDecompressRoundTrip := by
  unfold Obligations.CompressDecompressRoundTrip
  intro s u x y hp hpu hne hle hx
  obtain ⟨t, hcompress, hready, hdv, -, -, hout⟩ := run_compressMoves hp hne hle hx
  obtain ⟨v, hdecompress, hv⟩ := run_decompressMoves
    (u := { u with pending := decompressMoves, inp := ⟨t.out ++ y, 0⟩, out := [] }) hready hdv hne hle hx hpu rfl
    (by rw [hout, List.append_assoc])
  exact ⟨t, v, hcompress, hready.phase, hready.err, hdecompress, hv⟩

end Sys2Proof.Machine
end

section
/-! SUPPORT. A word written to CMD, CLEAR, NOP and the precondition check (spec/46_system.md R220, R222 to R224). -/

namespace Sys2Proof.Machine

/-! ### A word written to CMD (R222) -/

/-- What the decoder reads from one word is the command the word selects. -/
theorem decodeWord_of_decode_singleton {w : Byte} {i : Instr} (h : Sys2Proof.decode [w] = .ok (i, [])) :
    decodeWord w = .ok i := by
  cases hd : decodeWord w with
  | ok j =>
    simp only [Sys2Proof.decode, hd] at h
    cases h
    rfl
  | error r =>
    simp only [Sys2Proof.decode, hd] at h
    cases h

theorem issue_command {w : Byte} {i : Instr} (h : decodeWord w = .ok i) (s : State) : issue w s = exec i s := by
  simp only [issue, h]

/-- In FAULT a word that is not CLEAR is discarded: a command by the acceptance rule, and a reserved word too. -/
theorem issue_fault {w : Byte} {s : State} (hp : s.phase = .fault) (hw : w ≠ 0x01#8) : issue w s = .next s := by
  cases hd : decodeWord w with
  | ok i =>
    have hi : i ≠ .clear := by
      rintro rfl
      exact hw (decodeWord_eq_ok_iff.1 hd)
    rw [issue_command hd, exec_fault hp hi]
  | error r => rw [issue_reserved hd, execReserved, accept_fault hp]

/-- Settles O5: the step takes the move, and the write runs the command the word selects. -/
theorem stepRunsDecodedCommand : Obligations.StepRunsDecodedCommand := by
  unfold Obligations.StepRunsDecodedCommand
  intro s w es i hpend hw _
  rw [step_of_pending hpend, hostStep, issue_command (decodeWord_of_decode_singleton hw)]

/-- Settles O7: the step takes the move, and the word is discarded. -/
theorem faultPhaseDiscardsWords : Obligations.FaultPhaseDiscardsWords := by
  unfold Obligations.FaultPhaseDiscardsWords
  intro s w es hpend hp hw
  rw [step_of_pending hpend, hostStep, issue_fault (s := { s with pending := es }) hp hw]

/-- Settles O15: with nothing pending no move is taken. -/
theorem waitsForHost : Obligations.WaitsForHost := by
  unfold Obligations.WaitsForHost
  exact fun s => step_of_no_pending

/-! ### CLEAR and NOP (R220, R224) -/

/-- Outside BUSY CLEAR resets the block. -/
theorem exec_clear {s : State} (hp : s.phase = .idle ∨ s.phase = .fault) : exec .clear s = .next (resetBlock s) := by
  rcases hp with hp | hp <;> simp only [exec, execClear, hp]

/-- Settles O16: the reset block has every reset value, and the streams and the host's side of the old state. -/
theorem clearResets : Obligations.ClearResets := by
  unfold Obligations.ClearResets
  exact ⟨decode_encode_append .clear [],
    fun s hp => ⟨resetBlock s, exec_clear hp, blockAtReset_resetBlock s, rfl, rfl, rfl, rfl, rfl⟩⟩

/-- Settles O17: in IDLE NOP's pseudocode is empty and PHASE comes back; in FAULT the word is discarded. -/
theorem nopChangesNothing : Obligations.NopChangesNothing := by
  unfold Obligations.NopChangesNothing
  refine ⟨decode_encode_append .nop [], ?_⟩
  rintro s (hp | hp)
  · rw [exec_idle hp, bodyOf, finish, ← hp]
  · exact exec_fault hp (by simp)

/-! ### The precondition check (R223) -/

theorem ends_require {c : Bool} {w : Byte} {body : State → Run} {s : State} (hc : c = true)
    (h : ∀ r, body s = r → r.Ends s) : (require c w body s).Ends s := by
  rw [hc, require_true]
  exact h _ rfl

/-- A command whose requirement holds completes with ERR and ERRINFO as they were, or raises a fault that is not BadCommand. -/
theorem bodyOf_ends {i : Instr} (hi : i ≠ .clear) {s : State} (hreq : requiredFlag i s = true) : (bodyOf i s).Ends s := by
  cases i with
  | clear => exact absurd rfl hi
  | count => exact ends_countBody s
  | buildTree => exact ends_require hreq fun _ => ends_buildTreeMain
  | buildDict => exact ends_require hreq fun _ hr => hr ▸ ends_buildDictMain s
  | encMeta => exact ends_require hreq fun _ hr => hr ▸ ends_encMetaMain s
  | decMeta => exact ends_decMetaBody s
  | pack => exact ends_require hreq fun _ hr => hr ▸ ends_packMain Config.chunk s
  | decode => exact ends_require hreq fun _ hr => hr ▸ ends_decodeMain s
  | nop => exact ⟨rfl, rfl⟩

/-- The check reads a flag, not PHASE. -/
theorem requiredFlag_phase (i : Instr) (s : State) (p : Phase) : requiredFlag i { s with phase := p } = requiredFlag i s := by
  cases i <;> rfl

/-- CLEAR records no fault; every other command keeps ERR or raises a fault that is not BadCommand. -/
theorem err_exec_of_requiredFlag {i : Instr} {s t : State} (hp : s.phase = .idle) (hreq : requiredFlag i s = true)
    (h : exec i s = .next t) : t.err = s.err ∨ t.err ≠ 8#4 := by
  by_cases hi : i = .clear
  · subst hi
    obtain rfl := exec_clear_next h
    exact .inr (by simp)
  · have hends := bodyOf_ends hi ((requiredFlag_phase i s .busy).trans hreq)
    rcases exec_idle_cases hi hp h with ⟨-, -, -, herr, -⟩ | ⟨hraised, -⟩
    · exact .inl herr
    · rw [hraised] at hends
      obtain ⟨-, hne, -⟩ := Raised.err hends
      exact .inr hne

/-- Settles O21: a clear flag raises before anything else; behind the check no raise is BadCommand. -/
theorem preconditionFaults : Obligations.PreconditionFaults := by
  unfold Obligations.PreconditionFaults
  intro i s hp
  refine ⟨exec_flag_clear hp, fun hreq hne t h => ?_⟩
  rcases err_exec_of_requiredFlag hp hreq h with herr | herr
  · exact herr ▸ hne
  · exact herr

end Sys2Proof.Machine
end

section
/-! SUPPORT. Every step from a state of the invariant answers (spec/46_system.md R222, R225): what a pass of a loop takes, that no
command's pseudocode stops the model, and that each of the host's moves has its next state. -/

namespace Sys2Proof.Machine

/-! ### Pieces that never stop the model -/

/-- `r` completes or raises; it does not stop the model. -/
def Run.Answers : Run → Prop
  | .done _ => True
  | .raised _ => True
  | .stuck _ => False

/-- A pass that goes on takes `k` off the measure `m` of `s`, and no pass stops the model. -/
def Iter.Takes (m : State → Nat) (k : Nat) (s : State) : Iter → Prop
  | .again t => m t + k = m s
  | .exit _ => True
  | .raised _ => True
  | .stuck _ => False

/-- A pass that took 1, and what follows it. -/
theorem Iter.Takes.succ {m : State → Nat} {k : Nat} {s t : State} {i : Iter} (h : i.Takes m k t) (hst : m t + 1 = m s) :
    i.Takes m (k + 1) s := by
  cases i with
  | again u =>
    rw [Iter.Takes] at h ⊢
    omega
  | exit u => trivial
  | raised u => trivial
  | stuck f => exact h

theorem finish_answers {r : Run} (h : r.Answers) : ∃ t, finish r = .next t := by
  cases r with
  | done s => exact ⟨_, rfl⟩
  | raised s => exact ⟨_, rfl⟩
  | stuck f => exact absurd h id

theorem answers_andThen {r : Run} {k : State → Run} (h : r.Answers) (hk : ∀ s, (k s).Answers) : (r.andThen k).Answers := by
  cases r with
  | done s => exact hk s
  | raised s => exact h
  | stuck f => exact h

/-- A loop whose passes take something off a measure ends within a bound above that measure (R225). -/
theorem answers_loop {body : State → Iter} {m : State → Nat} {k : Nat} (hk : 1 ≤ k) (h : ∀ s, (body s).Takes m k s) {n : Nat}
    {s : State} (hn : m s < n) : (loop body n s).Answers := by
  have hagain : ∀ s t, True → body s = .again t → True ∧ m t < m s := by
    intro s t _ hb
    have htakes := h s
    rw [hb, Iter.Takes] at htakes
    exact ⟨trivial, by omega⟩
  rcases loop_rule hagain n s trivial hn with ⟨-, t, -, -, hl⟩ | ⟨-, t, -, -, hl⟩ | ⟨u, f, -, hu, -⟩
  · rw [hl]
    trivial
  · rw [hl]
    trivial
  · have htakes := h u
    rw [hu] at htakes
    exact absurd htakes id

/-! ### What a pass takes of IN (R121, R180, R201) -/

/-- The bytes of IN that are left. -/
def bytesLeft (s : State) : Nat := s.inp.left

/-- The bits that are left: those of IN and those of SHIFT. -/
def bitsLeft (s : State) : Nat := 8 * bytesLeft s + s.bitpos.toNat

theorem bytesLeft_tookByte {s : State} {b : Byte} {l : List Byte} (h : s.inp.rest = b :: l) :
    bytesLeft (tookByte b s) + 1 = bytesLeft s := by
  rw [bytesLeft, bytesLeft, left_eq_length_rest, left_eq_length_rest, rest_tookByte h, h, List.length_cons]

theorem countStep_takes (s : State) : (countStep s).Takes bytesLeft 1 s := by
  rcases countStep_cases s with ⟨-, h⟩ | ⟨b, l, hrest, ⟨-, h⟩ | ⟨-, h⟩⟩ <;> rw [h]
  · trivial
  · trivial
  · exact bytesLeft_tookByte hrest

theorem packSymbol_takes (s : State) : (packSymbol s).Takes bytesLeft 1 s := by
  cases hrest : s.inp.rest with
  | nil =>
    rw [packSymbol_eof hrest]
    trivial
  | cons b l =>
    cases hvalid : (dictAt s b).valid with
    | true =>
      rw [packSymbol_valid hrest hvalid, appendCode_frame]
      exact bytesLeft_tookByte hrest
    | false =>
      rw [packSymbol_miss hrest hvalid]
      trivial

theorem packChunk_takes (k : Nat) : ∀ s : State, (packChunk k s).Takes bytesLeft k s := by
  induction k with
  | zero => exact fun s => rfl
  | succ k ih =>
    intro s
    have hsymbol := packSymbol_takes s
    rw [packChunk]
    cases hs : packSymbol s with
    | again t =>
      rw [hs] at hsymbol
      exact (ih t).succ hsymbol
    | exit t => trivial
    | raised t => trivial
    | stuck f =>
      rw [hs] at hsymbol
      exact hsymbol

/-- A chunk that goes on has taken all its symbols; its flush takes none. -/
theorem packPass_takes (chunk : Nat) (s : State) : (packPass chunk s).Takes bytesLeft chunk s := by
  have hchunk := packChunk_takes chunk s
  rw [packPass]
  cases hs : packChunk chunk s with
  | again t =>
    rw [hs] at hchunk
    simp only [flushComplete_eq]
    exact hchunk
  | exit t => trivial
  | raised t => trivial
  | stuck f =>
    rw [hs] at hchunk
    exact hchunk

theorem bitsLeft_takeBit {s : State} (h : s.bitpos ≠ 0#4) : bitsLeft (takeBit s).2 + 1 = bitsLeft s := by
  have hpos : 1 ≤ s.bitpos.toNat := Nat.one_le_iff_ne_zero.2 fun h0 => h (BitVec.eq_of_toNat_eq h0)
  have hbitpos : (takeBit s).2.bitpos.toNat + 1 = s.bitpos.toNat := by
    show (s.bitpos - 1#4).toNat + 1 = s.bitpos.toNat
    bv_omega
  have hbytes : bytesLeft (takeBit s).2 = bytesLeft s := rfl
  rw [bitsLeft, bitsLeft, hbytes]
  omega

/-- NextBit takes one bit, of SHIFT or of a byte fetched into it. -/
theorem bitsLeft_nextBit {s t : State} {b : Bool} (h : nextBit s = some (b, t)) : bitsLeft t + 1 = bitsLeft s := by
  by_cases h0 : s.bitpos = 0#4
  · rw [nextBit, if_pos h0] at h
    rcases inRead_cases s with ⟨-, hr⟩ | ⟨c, l, hrest, hr⟩
    · rw [hr] at h
      cases h
    · rw [hr] at h
      obtain rfl : (takeBit (loadShift c (tookByte c s))).2 = t := congrArg Prod.snd (Option.some.inj h)
      have hbyte := bytesLeft_tookByte hrest
      have hload : bitsLeft (loadShift c (tookByte c s)) = 8 * bytesLeft (tookByte c s) + 8 := rfl
      have hempty : bitsLeft s = 8 * bytesLeft s := by rw [bitsLeft, h0]; rfl
      rw [bitsLeft_takeBit (by decide : (8#4 : BitVec 4) ≠ 0#4)]
      omega
  · rw [nextBit, if_neg h0] at h
    obtain rfl : (takeBit s).2 = t := congrArg Prod.snd (Option.some.inj h)
    exact bitsLeft_takeBit h0

theorem decodeStep_takes (s : State) : (decodeStep s).Takes bitsLeft 1 s := by
  rw [decodeStep]
  split
  · trivial
  · cases h : nextBit s with
    | none => trivial
    | some p =>
      have hbit := bitsLeft_nextBit h
      simp only
      rw [walkStep]
      split
      · trivial
      · simp only
        split
        · exact hbit
        · exact hbit

/-! ### Every command answers -/

theorem countBody_answers (s : State) : (countBody s).Answers :=
  answers_andThen (answers_loop (Nat.le_refl 1) countStep_takes (Nat.lt_succ_self (bytesLeft s))) fun _ => trivial

theorem packMain_answers {chunk : Nat} (hc : 1 ≤ chunk) (s : State) : (packMain chunk s).Answers :=
  answers_andThen (answers_loop hc (packPass_takes chunk) (Nat.lt_succ_self (bytesLeft s))) fun _ => trivial

theorem decodeWalk_answers (s : State) : (decodeWalk (decodeStart s)).Answers := by
  cases hk : (nodeAt s.node s.root).kind with
  | leaf =>
    rw [decodeWalk_leaf (s := decodeStart s) hk]
    trivial
  | internal =>
    rw [decodeWalk_internal (s := decodeStart s) hk]
    exact answers_loop (Nat.le_refl 1) decodeStep_takes (Nat.lt_succ_self (bitsLeft (decodeStart s)))

theorem readHeaderByte_answers {s : State} {k : Byte → State → Run} (h : ∀ b t, (k b t).Answers) :
    (readHeaderByte s k).Answers := by
  rw [readHeaderByte]
  cases inRead s with
  | none => trivial
  | some p => exact h p.1 p.2

theorem readFreq_answers {k : Nat → State → Run} (h : ∀ f t, (k f t).Answers) (w : Nat) :
    ∀ (f : Nat) (s : State), (readFreq w f s k).Answers := by
  induction w with
  | zero => exact h
  | succ w ih => exact fun f s => readHeaderByte_answers fun b t => ih _ t

theorem storeRecord_answers (y : Byte) (f : Nat) (s : State) : (storeRecord y f s).Answers := by
  rw [storeRecord]
  split
  · trivial
  · split <;> trivial

theorem decRecords_answers (w n : Nat) : ∀ s : State, (decRecords w n s).Answers := by
  induction n with
  | zero => exact fun s => trivial
  | succ n ih =>
    exact fun s => answers_andThen
      (readHeaderByte_answers fun y t => readFreq_answers (fun f u => storeRecord_answers y f u) w 0 t) ih

theorem decMetaBody_answers (s : State) : (decMetaBody s).Answers := by
  refine readHeaderByte_answers fun n t => readHeaderByte_answers fun w u => ?_
  rw [decHeader]
  split
  · trivial
  · exact answers_andThen (decRecords_answers _ _ _) fun _ => trivial

/-- BUILD_TREE of a table: no count, a total that fits, or one that does not (R130). -/
theorem exec_buildTree_answers {s : State} (hp : s.phase = .idle) (hfv : s.fv = true) : ∃ t, exec .buildTree s = .next t := by
  by_cases hzero : ∀ b, freqAt s b = 0#64
  · exact ⟨_, emptyInputFaults s hp hfv hzero⟩
  · by_cases hfit : freqTotal s < 2 ^ 64
    · obtain ⟨t, h, -⟩ := buildTreeResult s hp hfv (not_forall.1 hzero) hfit
      exact ⟨t, h⟩
    · obtain ⟨t, h, -⟩ := buildTreeOverflowFaults s hp hfv (Nat.not_lt.1 hfit)
      exact ⟨t, h⟩

/-- ENC_META of a tree: few enough leaves, or too many (R160, R165). -/
theorem exec_encMeta_answers {s : State} (hp : s.phase = .idle) (htv : s.tv = true) (ht : TreeOk s) (hl : LeavesOk s) :
    ∃ t, exec .encMeta s = .next t := by
  by_cases hle : s.nleaf.toNat ≤ 255
  · exact ⟨_, exec_encMeta_tree hp htv ht hl hle⟩
  · exact ⟨_, encMetaTooManySymbols s hp htv (Nat.not_le.1 hle)⟩

/-- A command in IDLE answers where the flags say the truth about the tables (R222). -/
theorem exec_idle_answers (i : Instr) {s : State} (hp : s.phase = .idle) (ht : TablesOk s) : ∃ t, exec i s = .next t := by
  cases hreq : requiredFlag i s with
  | false => exact ⟨_, exec_flag_clear hp hreq⟩
  | true =>
    cases i with
    | clear => exact ⟨_, exec_idle hp .clear⟩
    | count => exact exec_idle hp .count ▸ finish_answers (countBody_answers _)
    | buildTree => exact exec_buildTree_answers hp hreq
    | buildDict =>
      obtain ⟨t, h, -⟩ := buildDictResult s hp hreq (ht.tree hreq) (ht.leaves hreq)
      exact ⟨t, h⟩
    | encMeta => exact exec_encMeta_answers hp hreq (ht.tree hreq) (ht.leaves hreq)
    | decMeta => exact exec_idle hp .decMeta ▸ finish_answers (decMetaBody_answers _)
    | pack =>
      obtain ⟨t, h⟩ := finish_answers (packMain_answers (Nat.le_add_left 1 _) { s with phase := .busy })
      exact ⟨t, exec_pack_of_accept ((accept_packBody hp hreq).trans h) rfl⟩
    | decode => exact exec_decode hp hreq (ht.tree hreq).root_ne_nil ▸ finish_answers (decodeWalk_answers s)
    | nop => exact ⟨_, exec_idle hp .nop⟩

/-! ### Every move of the host answers -/

section

variable {s : State}

theorem Inv.exec_answers (h : Inv s) (i : Instr) : ∃ t, exec i s = .next t := by
  cases hp : s.phase with
  | idle => exact exec_idle_answers i hp h.tables
  | fault =>
    by_cases hi : i = .clear
    · exact ⟨_, hi ▸ exec_clear (.inr hp)⟩
    · exact ⟨s, exec_fault hp hi⟩
  | busy => exact absurd hp h.notBusy

/-- A word written to CMD is a command, or it is reserved: discarded in FAULT, BadCommand in IDLE. -/
theorem Inv.issue_answers (h : Inv s) (w : Byte) : ∃ t, issue w s = .next t := by
  cases hw : decodeWord w with
  | ok i => exact issue_command hw s ▸ h.exec_answers i
  | error r =>
    rw [issue_reserved hw]
    cases hp : s.phase with
    | idle => exact ⟨_, execReserved_idle hp w⟩
    | fault => exact ⟨s, accept_fault hp _⟩
    | busy => exact absurd hp h.notBusy

theorem Inv.abandon_answers (h : Inv s) (w : Byte) (k : Nat) : ∃ t, abandon w k s = .next t := by
  obtain ⟨t, ht⟩ := h.issue_answers w
  rw [abandon, ht]
  exact ⟨_, rfl⟩

/-- Every readable register has a value: with TV set there is a root to count (R38, R221). -/
theorem Inv.hostReg_eq_some (h : Inv s) (r : HostReg) : ∃ v, hostReg s r = some v := by
  cases r with
  | total => exact ⟨_, totalReg_eq fun htv => (h.tree htv).root_ne_nil⟩
  | _ => exact ⟨_, rfl⟩

theorem Inv.hostStep_answers (h : Inv s) (e : HostEvent) : ∃ t, hostStep e s = .next t := by
  cases e with
  | command w => exact h.issue_answers w
  | setInput bytes => exact ⟨_, streamAction_ready h.notBusy _⟩
  | rewind => exact ⟨_, streamAction_ready h.notBusy _⟩
  | takeOutput => exact ⟨_, streamAction_ready h.notBusy _⟩
  | truncateOutput n => exact ⟨_, streamAction_ready h.notBusy _⟩
  | readReg r =>
    obtain ⟨v, hv⟩ := h.hostReg_eq_some r
    exact ⟨_, hostRead_of_hostReg hv⟩
  | reset => exact ⟨_, rfl⟩
  | commandThenReset w k => exact h.abandon_answers w k

end

/-- Settles O59: with no move pending the block waits, and every move of the host answers from a state of the invariant. -/
theorem stepAlwaysAnswers : Obligations.StepAlwaysAnswers := by
  unfold Obligations.StepAlwaysAnswers
  intro s h
  cases hpend : s.pending with
  | nil => exact ⟨s, step_of_no_pending hpend⟩
  | cons e es =>
    rw [step_of_pending hpend]
    exact (h.congr (t := { s with pending := es }) rfl h.pos).hostStep_answers e

end Sys2Proof.Machine
end

section
/-! SUPPORT. The ends of COMPRESS (spec/46_system.md R226, spec/60_exceptions.md R250): the header and the body of an input that
fits, and the two inputs that do not fit, after whose raise the other words are discarded. -/

namespace Sys2Proof.Machine

/-- Settles O49: COMPRESS leaves the tree and the dictionary of the input, and what they were written as. -/
theorem compressWritesHeaderAndBody : Obligations.CompressWritesHeaderAndBody := by
  unfold Obligations.CompressWritesHeaderAndBody
  intro s x hp hne hle hx
  obtain ⟨t, hrun, hready, hdv, hinp, hw, hout⟩ := run_compressMoves hp hne hle hx
  have hwidth : t.hdrW.toNat = headerWidth t :=
    (congrArg BitVec.toNat hw).trans (toNat_ofNat_headerWidth t)
  exact ⟨t, headerWidth t, hrun, hready.phase, hready.err, hready.fv, hready.tv, hdv, hready.freq, hready.tree,
    hready.leaves, hready.tables.dict hdv, hinp, hwidth, hout⟩

/-! ### Command words after a raise (R222, R250) -/

/-- The moves that write the words of `is` to CMD. -/
def commandMoves (is : List Instr) : List HostEvent := is.map fun i => .command (encodeWord i)

/-- In FAULT all pending words but CLEAR are discarded, one a step. -/
theorem run_discarded {is : List Instr} (his : .clear ∉ is) : ∀ {s : State}, s.phase = .fault →
    s.pending = commandMoves is → Host.Core.run Sys2Proof.core is.length s = .next { s with pending := [] } := by
  induction is with
  | nil =>
    intro s _ hpend
    rw [show ([] : List HostEvent) = s.pending from hpend.symm]
    rfl
  | cons i is ih =>
    intro s hp hpend
    have hi : i ≠ .clear := (List.ne_of_not_mem_cons his).symm
    have hstep : step s = .next { s with pending := commandMoves is } :=
      step_command hpend (exec_fault (s := { s with pending := commandMoves is }) hp hi)
    rw [List.length_cons, run_of_step hstep]
    exact ih (List.not_mem_of_not_mem_cons his) hp rfl

/-- A step that raises is the last of its sequence to change anything but the pending moves. -/
theorem run_raised {is : List Instr} (his : .clear ∉ is) {s t : State} (hstep : step s = .next t) (hp : t.phase = .fault)
    (hpend : t.pending = commandMoves is) :
    Host.Core.run Sys2Proof.core (is.length + 1) s = .next { t with pending := [] } := by
  rw [run_of_step hstep, run_discarded his hp hpend]

/-! ### Inputs that do not fit (R226, R290) -/

section

variable {s : State} {x : List Byte}

/-- COMPRESS up to BUILD_TREE: the table of the input is ready and nothing has gone out. -/
theorem run_compressMoves_table (hp : s.phase = .idle) (hx : x.length < 2 ^ 64) (n : Nat) :
    ∃ t, Host.Core.run Sys2Proof.core (n + 3) { s with pending := compressMoves, inp := ⟨x, 0⟩, out := [] } =
        Host.Core.run Sys2Proof.core n t ∧
      TableReady x (commandMoves [.buildTree, .buildDict, .encMeta, .pack]) t ∧ t.out = [] := by
  obtain ⟨t0, hclear, hphase0, herr0, hpend0, hinp0, hout0⟩ :=
    step_clear (s := { s with pending := compressMoves, inp := ⟨x, 0⟩, out := [] }) hp rfl
  obtain ⟨t1, hcount, htable, -, hout1⟩ := step_count hphase0 herr0 hpend0 hinp0 hx
  obtain ⟨t2, hrewind, hplaced, -, hout2⟩ := htable.step_rewind
  refine ⟨t2, ?_, hplaced, by rw [hout2, hout1, hout0]⟩
  rw [run_of_step hclear, run_of_step hcount, run_of_step hrewind]

/-- Of the empty input BUILD_TREE raises EmptyInput (R135). -/
theorem run_compressMoves_empty (hp : s.phase = .idle) :
    ∃ t, Host.Core.run Sys2Proof.core 7 { s with pending := compressMoves, inp := ⟨[], 0⟩, out := [] } = .next t ∧
      t.phase = .fault ∧ t.err = 2#4 ∧ t.out = [] := by
  obtain ⟨t, hrun, htable, hout⟩ := run_compressMoves_table (x := []) hp (by decide) 4
  have hzero : ∀ b, freqAt t b = 0#64 := fun b =>
    not_not.1 (mt (freqAt_histogram_ne_zero htable.freq (by decide)).1 List.not_mem_nil)
  have hexec := emptyInputFaults { t with pending := commandMoves [.buildDict, .encMeta, .pack] } htable.phase htable.fv hzero
  have hend := run_raised (is := [.buildDict, .encMeta, .pack]) (by decide) (step_command htable.pending hexec) rfl rfl
  exact ⟨_, hrun.trans hend, rfl, rfl, hout⟩

/-- Bytes of all 256 values have 256 distinct values. -/
theorem length_dedup_of_all (h : ∀ b, b ∈ x) : 256 ≤ x.dedup.length :=
  length_symbols ▸ (symbols_nodup.subperm fun b _ => List.mem_dedup.2 (h b)).length_le

/-- Of an input with all 256 values ENC_META raises SymbolCountOverflow (R165). -/
theorem run_compressMoves_full (hp : s.phase = .idle) (hall : ∀ b, b ∈ x) (hx : x.length < 2 ^ 64) :
    ∃ t, Host.Core.run Sys2Proof.core 7 { s with pending := compressMoves, inp := ⟨x, 0⟩, out := [] } = .next t ∧
      t.phase = .fault ∧ t.err = 4#4 ∧ t.out = [] := by
  obtain ⟨t2, hrun, htable, hout2⟩ := run_compressMoves_table hp hx 4
  obtain ⟨t3, hbuildTree, htree, -, hout3⟩ := htable.step_buildTree (List.ne_nil_of_mem (hall 0#8)) hx
  obtain ⟨t4, hbuildDict, hdict, -, -, hout4⟩ := htree.step_buildDict
  have hmany : 255 < t4.nleaf.toNat := (length_dedup_of_all hall).trans_eq (hdict.nleaf_eq hx).symm
  have hexec := encMetaTooManySymbols { t4 with pending := commandMoves [.pack] } hdict.phase hdict.tv hmany
  have hend := run_raised (is := [.pack]) (by decide) (step_command hdict.pending hexec) rfl rfl
  have hrest := (run_of_step hbuildTree 3).trans ((run_of_step hbuildDict 2).trans hend)
  exact ⟨_, hrun.trans hrest, rfl, rfl, hout4.trans (hout3.trans hout2)⟩

end

/-- Settles O50: the table of no bytes has no symbol to build from, and the tree of all bytes too many for a header. -/
theorem compressRejectsUnfitInputs : Obligations.CompressRejectsUnfitInputs := by
  unfold Obligations.CompressRejectsUnfitInputs
  intro s x hp
  refine ⟨?_, fun hall hx => run_compressMoves_full hp hall hx⟩
  rintro rfl
  exact run_compressMoves_empty hp

end Sys2Proof.Machine
end

section
/-! SUPPORT. Taking a fault and leaving it (spec/60_exceptions.md R240, R250, R253): which of the host's moves end FAULT, and in
what state. -/

namespace Sys2Proof.Machine

/-- Settles O56: the raise is that record update, and the codes are those of the table. -/
theorem raiseWritesThreeFields : Obligations.RaiseWritesThreeFields := by
  unfold Obligations.RaiseWritesThreeFields
  exact ⟨fun _ _ _ => rfl, rfl, rfl, rfl, rfl, rfl, rfl, rfl, rfl⟩

/-! ### Leaving FAULT (R253) -/

section

variable {w : Byte} {k : Nat} {s t : State}

theorem issue_clear_next (h : issue 0x01#8 s = .next t) : t = resetBlock s := by
  rw [issue_command decodeWord_clear] at h
  exact exec_clear_next h

/-- A word that ends FAULT is CLEAR, since every other word is discarded there (R222 (c)). -/
theorem eq_clear_of_issue_leaves_fault (hp : s.phase = .fault) (h : issue w s = .next t) (ht : t.phase ≠ .fault) :
    w = 0x01#8 := by
  by_contra hw
  rw [issue_fault hp hw] at h
  obtain rfl := Host.Outcome.next.inj h
  exact ht hp

theorem blockAtReset_abandon (h : abandon w k s = .next t) : BlockAtReset t := by
  rw [abandon] at h
  cases hi : issue w s with
  | next u =>
    rw [hi] at h
    obtain rfl := Host.Outcome.next.inj h
    exact blockAtReset_resetBlock _
  | fault f => rw [hi] at h; cases h
  | refused r => rw [hi] at h; cases h

/-- Of the host's moves CLEAR and the two with reset in them end FAULT; the others keep PHASE there. -/
theorem hostStep_leaves_fault {e : HostEvent} (hp : s.phase = .fault) (h : hostStep e s = .next t)
    (ht : t.phase ≠ .fault) :
    BlockAtReset t ∧ (e = .command 0x01#8 ∨ e = .reset ∨ ∃ w k, e = .commandThenReset w k) := by
  cases e with
  | command w =>
    obtain rfl := eq_clear_of_issue_leaves_fault hp h ht
    obtain rfl := issue_clear_next h
    exact ⟨blockAtReset_resetBlock s, .inl rfl⟩
  | reset =>
    obtain rfl := Host.Outcome.next.inj h
    exact ⟨blockAtReset_resetBlock s, .inr (.inl rfl)⟩
  | commandThenReset w k => exact ⟨blockAtReset_abandon h, .inr (.inr ⟨w, k, rfl⟩)⟩
  | readReg r =>
    obtain ⟨v, rfl⟩ := hostRead_next h
    exact absurd hp ht
  | setInput bytes => rw [streamAction_next h] at ht; exact absurd hp ht
  | rewind => rw [streamAction_next h] at ht; exact absurd hp ht
  | takeOutput => rw [streamAction_next h] at ht; exact absurd hp ht
  | truncateOutput n => rw [streamAction_next h] at ht; exact absurd hp ht

end

/-- Settles O55: a wait stays in FAULT; a move that leaves it is the oldest pending one. -/
theorem onlyClearAndResetLeaveFault : Obligations.OnlyClearAndResetLeaveFault := by
  unfold Obligations.OnlyClearAndResetLeaveFault
  intro s t hp h ht
  cases hpend : s.pending with
  | nil =>
    rw [step_of_no_pending hpend] at h
    obtain rfl := Host.Outcome.next.inj h
    exact absurd hp ht
  | cons e es =>
    rw [step_of_pending hpend] at h
    obtain ⟨hreset, he⟩ := hostStep_leaves_fault (s := { s with pending := es }) hp h ht
    refine ⟨hreset, es, ?_⟩
    rcases he with rfl | rfl | ⟨w, k, rfl⟩
    · exact .inl rfl
    · exact .inr (.inl rfl)
    · exact .inr (.inr ⟨w, k, rfl⟩)

end Sys2Proof.Machine
end

section
/-! SUPPORT. A command abandoned by reset (spec/70_reset_and_hazards.md R280): the accesses it had made by then stay in the
streams, and nothing else of it does. -/

namespace Sys2Proof.Machine

section

variable {w : Byte} {s t : State} {as : List StreamAccess}

/-- A history that moved the streams did so access by access: its first `k` accesses, replayed, move them too. -/
theorem StreamsMovedBy.replay_take (h : StreamsMovedBy as s t) (k : Nat) :
    StreamsMovedBy (as.take k) s (replay (as.take k) s) := by
  obtain ⟨-, -, hread, -, -⟩ := h
  have hprefix : readBytes (as.take k) <+: readBytes as := by
    conv_rhs => rw [← List.take_append_drop k as, readBytes_append]
    exact List.prefix_append _ _
  rw [replay_eq]
  exact ⟨rfl, rfl, hprefix.trans hread, rfl, rfl⟩

/-- Where the command would answer, the abandoned command answers the reset block with its first `k` accesses replayed. -/
theorem abandon_of_issue (h : issue w s = .next t) (k : Nat) :
    abandon w k s = .next (resetBlock (replay ((t.accesses.drop s.accesses.length).take k) s)) := by
  rw [abandon, h]

/-- The part of the history that a word's command added is what it moved the streams by. -/
theorem streamsMovedBy_drop_of_issue (h : issue w s = .next t) :
    StreamsMovedBy (t.accesses.drop s.accesses.length) s t := by
  obtain ⟨as, has⟩ := streamsMovedBy_issue h
  have hdrop : t.accesses.drop s.accesses.length = as := by rw [has.1, List.drop_left]
  rwa [hdrop]

end

/-- Settles O14: the first `k` accesses, replayed, move the streams as they did; reset leaves the streams and the host's side. -/
theorem abandonedCommandKeepsItsAccesses : Obligations.AbandonedCommandKeepsItsAccesses := by
  unfold Obligations.AbandonedCommandKeepsItsAccesses
  intro s t w k es hpend hissue
  have hstep := (step_of_pending hpend).trans (abandon_of_issue hissue k)
  have hmoved := (streamsMovedBy_drop_of_issue hissue).replay_take k
  refine ⟨_, hstep, blockAtReset_resetBlock _, ?_, ?_, hmoved.congr rfl rfl rfl⟩
  · rw [resetBlock_pending, replay_eq]
  · rw [resetBlock_replies, replay_eq]

end Sys2Proof.Machine
end
